-- ==== Sys2Proof/Word.lean ====
section
/-! DEFINITION. The word type of the stimulus encoding (spec/30_encoding.md R100, R101; spec/00_scope.md R14) and
the two narrower widths that stimulus fields and state elements have. -/

namespace Sys2Proof

/-- A stimulus word: 32 bits, bit 31 the most significant (R14, R100). -/
abbrev Word := BitVec 32

/-- An 8-bit natural: one colour channel (R22) or a pattern index operand (R102, format P). -/
abbrev Byte := BitVec 8

/-- An opaque callback handle (R35, D7). -/
abbrev Handle := BitVec 16

end Sys2Proof
end

