-- ==== Sys2Proof/Syntax.lean ====
section
/-! DEFINITION. The nineteen stimuli, this block's instructions (spec/30_encoding.md R104), and the two enumerations
that are stimulus operands. One constructor per row of spec/opcode_table.json. -/

namespace Sys2Proof

/-- The mode selection (spec/10_state.md R21). Code 3 of the 2-bit field is reserved and is not a value. -/
inductive Mode where
  | off
  | constant
  | spectrum
  deriving DecidableEq, Repr, Inhabited

/-- The alarm state (spec/10_state.md R24). Codes 5 to 7 of the 3-bit field are reserved and are not values. -/
inductive AlarmState where
  | off
  | armed
  | sounding
  | snoozed
  | test
  deriving DecidableEq, Repr, Inhabited

/-- A stimulus with its operands (R102, R104). A pin level or a draw bit is a `Bool`: true is 1, the pin reads high
(R103). Host operations first, then edge decoder events, tone timer events, pipeline steps (R105). -/
inductive Instr where
  /-- 0x01 SET_MODE, format M -/
  | setMode (m : Mode)
  /-- 0x02 GET_MODE, format Z -/
  | getMode
  /-- 0x03 SET_CONSTANT_COLOR, format C -/
  | setConstantColor (r g b : Byte)
  /-- 0x04 ALARM_SOUNDING, format Z -/
  | alarmSounding
  /-- 0x05 BEGIN_TEST_TONE, format P -/
  | beginTestTone (p : Byte)
  /-- 0x06 END_TEST_TONE, format Z -/
  | endTestTone
  /-- 0x07 ON_ROTATE_CW, format H -/
  | onRotateCw (h : Handle)
  /-- 0x08 ON_ROTATE_CCW, format H -/
  | onRotateCcw (h : Handle)
  /-- 0x09 ON_PRESS, format UH -/
  | onPress (u : BitVec 4) (h : Handle)
  /-- 0x0A ALARM_SET, format S -/
  | alarmSet (a : AlarmState)
  /-- 0x10 ENC_EDGE, format E -/
  | encEdge (clk dir : Bool)
  /-- 0x11 BTN_EDGE, format UL -/
  | btnEdge (u : BitVec 4) (level : Bool)
  /-- 0x12 BTN_TICK, format UL -/
  | btnTick (u : BitVec 4) (level : Bool)
  /-- 0x20 PAT_TICK, format Z -/
  | patTick
  /-- 0x21 FREQ_TICK, format Z -/
  | freqTick
  /-- 0x30 PIPE_BEGIN, format Z -/
  | pipeBegin
  /-- 0x31 PIPE_SAMPLE, format V -/
  | pipeSample (v : BitVec 16)
  /-- 0x32 PIPE_ANALYZE, format Z -/
  | pipeAnalyze
  /-- 0x33 PIPE_LED, format L -/
  | pipeLed (slow : Bool)
  deriving DecidableEq, Repr, Inhabited

end Sys2Proof
end

