-- ==== Sys2Proof/Decode.lean ====
section
/-! DEFINITION. The decoder of spec/30_encoding.md R101 to R109, total on 32-bit words, and the encoder written from
the same tables. A reserved opcode or a set must-be-zero bit is `invalidWord` (R106, R107); `m` = 3 and `s` >= 5 are
`reservedOperand` (R108). -/

namespace Sys2Proof

/-- Why a word is refused before any state is looked at (R109, R118). -/
inductive DecodeError where
  | invalidWord
  | reservedOperand
  deriving DecidableEq, Repr, Inhabited

/-- `w[hi:lo]` as a bit vector of `n` = hi - lo + 1 bits (spec/00_scope.md R14). -/
def field (w : Word) (lo n : Nat) : BitVec n := w.extractLsb' lo n

/-- One bit of the word (R14). -/
def bit (w : Word) (i : Nat) : Bool := w.getLsbD i

/-- The enumerated field `m` (R103); 3 is reserved. -/
def Mode.ofCode (m : BitVec 2) : Option Mode :=
  match m.toNat with
  | 0 => some .off
  | 1 => some .constant
  | 2 => some .spectrum
  | _ => none

/-- The code of a mode (spec/10_state.md R21). -/
def Mode.code : Mode → BitVec 2
  | .off => 0
  | .constant => 1
  | .spectrum => 2

/-- The enumerated field `s` (R103); 5 to 7 are reserved. -/
def AlarmState.ofCode (a : BitVec 3) : Option AlarmState :=
  match a.toNat with
  | 0 => some .off
  | 1 => some .armed
  | 2 => some .sounding
  | 3 => some .snoozed
  | 4 => some .test
  | _ => none

/-- The code of an alarm state (spec/10_state.md R24). -/
def AlarmState.code : AlarmState → BitVec 3
  | .off => 0
  | .armed => 1
  | .sounding => 2
  | .snoozed => 3
  | .test => 4

/-- The must-be-zero bits below the opcode, `(w & m) = 0` with `m` the row's mask less its opcode byte (R101, R106);
otherwise the word spells no stimulus. -/
def whenZero (w m : Word) (i : Except DecodeError Instr) : Except DecodeError Instr :=
  if w &&& m = 0 then i else .error .invalidWord

/-- R106: the row by the opcode, the must-be-zero bits, the fields of R102, the values reserved without a
configuration (R108). -/
def decode (w : Word) : Except DecodeError Instr :=
  match (field w 24 8).toNat with
  | 0x01 => whenZero w 0x00FFFFFC <|
      match Mode.ofCode (field w 0 2) with
      | some m => .ok (.setMode m)
      | none => .error .reservedOperand
  | 0x02 => whenZero w 0x00FFFFFF (.ok .getMode)
  | 0x03 => .ok (.setConstantColor (field w 16 8) (field w 8 8) (field w 0 8))
  | 0x04 => whenZero w 0x00FFFFFF (.ok .alarmSounding)
  | 0x05 => whenZero w 0x00FFFF00 (.ok (.beginTestTone (field w 0 8)))
  | 0x06 => whenZero w 0x00FFFFFF (.ok .endTestTone)
  | 0x07 => whenZero w 0x00FF0000 (.ok (.onRotateCw (field w 0 16)))
  | 0x08 => whenZero w 0x00FF0000 (.ok (.onRotateCcw (field w 0 16)))
  | 0x09 => whenZero w 0x000F0000 (.ok (.onPress (field w 20 4) (field w 0 16)))
  | 0x0A => whenZero w 0x00FFFFF8 <|
      match AlarmState.ofCode (field w 0 3) with
      | some a => .ok (.alarmSet a)
      | none => .error .reservedOperand
  | 0x10 => whenZero w 0x00FFFFFC (.ok (.encEdge (bit w 0) (bit w 1)))
  | 0x11 => whenZero w 0x000FFFFE (.ok (.btnEdge (field w 20 4) (bit w 0)))
  | 0x12 => whenZero w 0x000FFFFE (.ok (.btnTick (field w 20 4) (bit w 0)))
  | 0x20 => whenZero w 0x00FFFFFF (.ok .patTick)
  | 0x21 => whenZero w 0x00FFFFFF (.ok .freqTick)
  | 0x30 => whenZero w 0x00FFFFFF (.ok .pipeBegin)
  | 0x31 => whenZero w 0x00FF0000 (.ok (.pipeSample (field w 0 16)))
  | 0x32 => whenZero w 0x00FFFFFF (.ok .pipeAnalyze)
  | 0x33 => whenZero w 0x00FFFFFE (.ok (.pipeLed (bit w 0)))
  | _ => .error .invalidWord

/-- The opcode of a stimulus (R104). -/
def Instr.opcode : Instr → BitVec 8
  | .setMode _ => 0x01
  | .getMode => 0x02
  | .setConstantColor _ _ _ => 0x03
  | .alarmSounding => 0x04
  | .beginTestTone _ => 0x05
  | .endTestTone => 0x06
  | .onRotateCw _ => 0x07
  | .onRotateCcw _ => 0x08
  | .onPress _ _ => 0x09
  | .alarmSet _ => 0x0A
  | .encEdge _ _ => 0x10
  | .btnEdge _ _ => 0x11
  | .btnTick _ _ => 0x12
  | .patTick => 0x20
  | .freqTick => 0x21
  | .pipeBegin => 0x30
  | .pipeSample _ => 0x31
  | .pipeAnalyze => 0x32
  | .pipeLed _ => 0x33

/-- The word with `v` in the bits from `lo` up and 0 elsewhere: a field in its place (R101, R102). -/
def place (lo : Nat) {n : Nat} (v : BitVec n) : Word := v.setWidth 32 <<< lo

/-- A one-bit field in its place. -/
def placeBit (i : Nat) (b : Bool) : Word := place i (BitVec.ofBool b)

/-- The payload fields of a stimulus in their places, by its format (R102); the bits no field takes are 0. -/
def Instr.payload : Instr → Word
  | .setMode m => place 0 m.code
  | .setConstantColor r g b => place 16 r ||| place 8 g ||| place 0 b
  | .beginTestTone p => place 0 p
  | .onRotateCw h => place 0 h
  | .onRotateCcw h => place 0 h
  | .onPress u h => place 20 u ||| place 0 h
  | .alarmSet a => place 0 a.code
  | .encEdge clk dir => placeBit 1 dir ||| placeBit 0 clk
  | .btnEdge u level => place 20 u ||| placeBit 0 level
  | .btnTick u level => place 20 u ||| placeBit 0 level
  | .pipeSample v => place 0 v
  | .pipeLed slow => placeBit 0 slow
  | .getMode => 0
  | .alarmSounding => 0
  | .endTestTone => 0
  | .patTick => 0
  | .freqTick => 0
  | .pipeBegin => 0
  | .pipeAnalyze => 0

/-- The word of a stimulus: opcode in `w[31:24]`, payload below it (R101). -/
def encode (i : Instr) : Word := place 24 i.opcode ||| i.payload

/-- What supplies a stimulus, by opcode class `w[31:28]` (R105, spec/60_exceptions.md R285). -/
inductive StimulusClass where
  | host
  | edgeDecoder
  | toneTimer
  | pipeline
  deriving DecidableEq, Repr, Inhabited

/-- R105: the class of an opcode class number; the other twelve are no class. -/
def StimulusClass.ofOpcode (op : BitVec 8) : Option StimulusClass :=
  match (op.extractLsb' 4 4).toNat with
  | 0 => some .host
  | 1 => some .edgeDecoder
  | 2 => some .toneTimer
  | 3 => some .pipeline
  | _ => none

/-- The instruction the decoder reads from a table row's word: `nbits` bits of value `w`, every bit above them 0. The
stimulus word is a number and has no storage order (spec/20_memory.md R73), so no bytes are laid out. -/
def decodeTableWord (nbits w : Nat) : Option Instr :=
  match decode (BitVec.ofNat 32 (w % 2 ^ nbits)) with
  | .ok i => some i
  | .error _ => none

end Sys2Proof
end

