-- ==== Sys2Proof/Config.lean ====
section
/-! DEFINITION. The configuration of spec/00_scope.md R7 to R12, one field per parameter, and the constants the spec
fixes. The check that a configuration is valid (R13, R280) and the default values stand in
Sys2Proof/Machine/Params.lean. -/

namespace Sys2Proof

/-- The quadrature FSM's position (spec/10_state.md R34): seven named values and the unnamed eighth, code 7. -/
inductive EncState where
  | start
  | cw1
  | cw2
  | cw3
  | ccw1
  | ccw2
  | ccw3
  | reserved
  deriving DecidableEq, Repr, Inhabited

/-- One entry of the quadrature table: in `state`, the pair `pp` leads to `next` (spec/40_edge_decoder.md R133). -/
structure QEntry where
  state : EncState
  pp : Fin 4
  next : EncState
  deriving DecidableEq, Repr, Inhabited

/-- One entry of a tone pattern (R10): a frequency in hertz, or one of the two sentinels. -/
inductive PatEntry where
  | freq (hz : Nat)
  | hold
  | silence
  deriving DecidableEq, Repr, Inhabited

/-- DESIGN CHOICE, safe (notes/assumptions/4.md): the real numbers a configuration can name. Nothing is known of the
`k`-th. -/
opaque Config.realNumber : Nat → ℝ

/-- A real parameter (R7, R8, R10, R12) as plain data: a rational, or the `k`-th real number, known to lie between two
rationals. The number it stands for is `RealParam.val` in Denote.lean. -/
inductive RealParam where
  | rat (q : Rat)
  | real (lo hi : Rat) (k : Nat)
  deriving DecidableEq, Repr, Inhabited

/-- A rational at most the parameter. -/
def RealParam.lo : RealParam → Rat
  | .rat q => q
  | .real lo _ _ => lo

/-- A rational at least the parameter. -/
def RealParam.hi : RealParam → Rat
  | .rat q => q
  | .real lo hi _ => if hi < lo then lo else hi

/-- The base colour triple (R0, G0, B0) of R8. -/
structure BaseColor where
  r : RealParam
  g : RealParam
  b : RealParam
  deriving DecidableEq, Repr, Inhabited

/-- The implementation parameters of R7 to R12. `NUM_BUTTONS` is the length of `btnPullUp` (notes/assumptions/22.md);
`BINS_PER_LED` is derived. The exact functions of `NUM` (R12) are not fields: the model's numbers are exact
(notes/assumptions/18.md). -/
structure Config where
  /-- `N`, the number of samples and of bins (R7) -/
  n : Nat
  /-- `NUM_LEDS` (R7) -/
  numLeds : Nat
  /-- `ADC_MAX` (R7) -/
  adcMax : Nat
  /-- `SAMPLE_DELAY`, seconds; no rule reads it (R7) -/
  sampleDelay : RealParam
  /-- `SAMPLING_PERIOD_S`; read only by the informational R180 (R7) -/
  samplingPeriod : RealParam
  /-- `PHASE_SCALE_C` (R7) -/
  phaseScale : RealParam
  /-- `BASE_COLOR` (R8) -/
  baseColor : BaseColor
  /-- `RED_SPAN` (R8) -/
  redSpan : RealParam
  /-- `ENC_PULL_DOWN` (R9) -/
  encPullDown : Bool
  /-- `QTABLE`, a partial map: the first entry for a (state, pair) counts (R9, notes/assumptions/14.md) -/
  qtable : List QEntry
  /-- `BTN_PULL_UP[u]`, one entry per button (R9) -/
  btnPullUp : List Bool
  /-- `BTN_PERIOD_MS`; no rule reads it (R9) -/
  btnPeriodMs : RealParam
  /-- `BTN_THRESHOLD` (R9) -/
  btnThreshold : Nat
  /-- `PATTERNS` (R10) -/
  patterns : List (List PatEntry)
  /-- `PATTERN_TICK`, seconds; no rule reads it (R10) -/
  patternTick : RealParam
  /-- `ALARM_PATTERN` (R10) -/
  alarmPattern : Nat
  /-- `DUTY_HIGH` (R10) -/
  dutyHigh : Nat
  /-- `PWM_CARRIER_HZ`; no rule reads it (R10) -/
  pwmCarrierHz : RealParam
  /-- `ATAN2_ZERO` (R12), as a multiple of π (notes/assumptions/5.md) -/
  atan2Zero : RealParam
  deriving DecidableEq, Repr, Inhabited

/-- `NUM_BUTTONS` (R9). -/
def Config.numButtons (c : Config) : Nat := c.btnPullUp.length

/-- `BINS_PER_LED` = `N / NUM_LEDS` (R7). -/
def Config.binsPerLed (c : Config) : Nat := c.n / c.numLeds

/-- `DUTY_LOW` = 0 (R10, D25). -/
def Config.dutyLow : Nat := 0

/-- `MAG_CLAMP` = 255 (R8, U9). -/
def Config.magClamp : Rat := 255

/-- `MAG_DIVISOR` = 255 (R8, U9). -/
def Config.magDivisor : Rat := 255

/-- `RENDER_BUDGET_MS` = 100; no rule computes with it, it enters as the `slow` bit (R11). -/
def Config.renderBudgetMs : Nat := 100

/-- `YIELD_SLEEP_MS` = 1; no rule computes with it (R11). -/
def Config.yieldSleepMs : Nat := 1

/-- What is wrong with a configuration: the two construction errors of spec/60_exceptions.md R280, in the order they
are checked, and the refusal of spec/00_scope.md R13 for this spec's own constraints. -/
inductive ConfigProblem where
  | nNotPowerOfTwo
  | ledsNotDividingN
  | badConfig
  deriving DecidableEq, Repr, Inhabited

end Sys2Proof
end

