-- ==== Sys2Proof/Machine/Exact.lean ====
section
/-! DEFINITION. The exact numbers the spectrum pipeline computes with (spec/41_spectrum_pipeline.md; the rules are over
exact reals, spec/00_scope.md R12, spec/44_arithmetic_and_sequencing.md R363). For `N` a power of two every `re[k]` and
`im[k]` is a rational combination of cosines of multiples of 2π/N, so it lies in the real field generated by
cos(2π/N). `Alg` is that field as a tower of square roots: γ 0 = 0, γ (l+1) = √(2 + γ l), where
2·cos(2π/N) = γ (log2 N - 2). What an `Alg` denotes as a real is `Alg.val` in Denote.lean; DEDUCED, notes/assumptions/6.md
and 7.md. -/

namespace Sys2Proof.Machine

/-- An exact number at a tower level: a rational, or at level l+1 the number a + b·γ (l+1) with a, b of level l. -/
inductive Alg where
  | rat (q : Rat)
  | ext (a b : Alg)
  deriving DecidableEq, Repr, Inhabited

/-- a + b·γ in normal form: a rational with no γ part is a `rat`. -/
def Alg.mk (a b : Alg) : Alg :=
  match a, b with
  | .rat p, .rat q => if q.num = 0 then .rat p else .ext (.rat p) (.rat q)
  | a, b => .ext a b

/-- The number at level 0 (γ 0 = 0, so a γ part counts nothing). -/
def Alg.ratPart : Alg → Rat
  | .rat q => q
  | .ext a _ => a.ratPart

/-- The two parts of a number at level l+1. -/
def Alg.parts : Alg → Alg × Alg
  | .rat q => (.rat q, .rat 0)
  | .ext a b => (a, b)

def Alg.addRat (p : Rat) : Alg → Alg
  | .rat q => .rat (p + q)
  | .ext a b => .ext (a.addRat p) b

def Alg.add : Alg → Alg → Alg
  | .rat p, y => y.addRat p
  | .ext a b, .rat q => (Alg.ext a b).addRat q
  | .ext a b, .ext c d => .mk (a.add c) (b.add d)

/-- A rational times a number. -/
def Alg.scale (q : Rat) : Alg → Alg
  | .rat p => .rat (q * p)
  | .ext a b => .mk (a.scale q) (b.scale q)

def Alg.neg (x : Alg) : Alg := x.scale (-1)

def Alg.sub (x y : Alg) : Alg := x.add y.neg

/-- γ l times a number of level l: (a + b·γ)·γ = b·(2 + γ') + a·γ. -/
def Alg.mulGamma : Nat → Alg → Alg
  | 0, _ => .rat 0
  | l + 1, x => .mk ((x.parts.2.scale 2).add (Alg.mulGamma l x.parts.2)) x.parts.1

/-- (γ (l+1))² = 2 + γ l times a number of level l. -/
def Alg.mulDelta (l : Nat) (x : Alg) : Alg := (x.scale 2).add (Alg.mulGamma l x)

/-- The product of two numbers of a level: (a + bγ)(c + dγ) = (ac + bd·γ²) + (ad + bc)γ. -/
def Alg.mul : Nat → Alg → Alg → Alg
  | 0, x, y => .rat (x.ratPart * y.ratPart)
  | _ + 1, .rat p, y => y.scale p
  | _ + 1, .ext a b, .rat q => (Alg.ext a b).scale q
  | l + 1, .ext a b, .ext c d =>
    .mk ((Alg.mul l a c).add (Alg.mulDelta l (Alg.mul l b d))) ((Alg.mul l a d).add (Alg.mul l b c))

/-- (a + bγ)(a - bγ) = a² - b²·γ², of the level below. -/
def Alg.norm (l : Nat) (a b : Alg) : Alg := (Alg.mul l a a).sub (Alg.mulDelta l (Alg.mul l b b))

/-- The inverse of a nonzero number: (a - bγ) / norm. -/
def Alg.inv : Nat → Alg → Alg
  | 0, x => .rat x.ratPart⁻¹
  | _ + 1, .rat q => .rat q⁻¹
  | l + 1, .ext a b => .mk (Alg.mul l a (Alg.inv l (Alg.norm l a b))) (Alg.mul l b (Alg.inv l (Alg.norm l a b))).neg

/-- The sign of a rational: -1, 0 or 1. -/
def ratSign (q : Rat) : Int := q.num.sign

/-- The sign of a number, decided exactly: with opposite signs of a and b·γ the larger square wins. -/
def Alg.sign : Nat → Alg → Int
  | 0, x => ratSign x.ratPart
  | _ + 1, .rat q => ratSign q
  | l + 1, .ext a b =>
    if Alg.sign l b = 0 then Alg.sign l a
    else if Alg.sign l a = 0 ∨ Alg.sign l a = Alg.sign l b then Alg.sign l b
    else Alg.sign l a * Alg.sign l (Alg.norm l a b)

/-- The number with a nonnegative sign. -/
def Alg.abs (l : Nat) (x : Alg) : Alg := if Alg.sign l x < 0 then x.neg else x

/-- Square root of a natural, rounded down, bit by bit: `r` holds the bits found so far. -/
def isqrtFrom (n : Nat) : Nat → Nat → Nat
  | 0, r => r
  | i + 1, r => if (r + 2 ^ i) * (r + 2 ^ i) ≤ n then isqrtFrom n i (r + 2 ^ i) else isqrtFrom n i r

/-- The greatest r with r² ≤ n. -/
def isqrt (n : Nat) : Nat := isqrtFrom n (n.log2 / 2 + 1) 0

/-- The rational square root of a rational that is a square. -/
def ratSqrt? (q : Rat) : Option Rat :=
  if 0 ≤ q.num ∧ isqrt q.num.toNat * isqrt q.num.toNat = q.num.toNat ∧ isqrt q.den * isqrt q.den = q.den then
    some (mkRat (isqrt q.num.toNat) (isqrt q.den))
  else none

/-- A candidate square root of a number in its own field. For b ≠ 0, (u + vγ)² = a + bγ makes the norm a square n²
and u² one of (a ± n)/2, v = b/(2u); for b = 0 the root is u or vγ. -/
def Alg.sqrtCand : Nat → Alg → Option Alg
  | 0, x => (ratSqrt? x.ratPart).map .rat
  | l + 1, x =>
    if x.parts.2 = .rat 0 then
      match Alg.sqrtCand l x.parts.1 with
      | some u => some (.mk u (.rat 0))
      | none => (Alg.sqrtCand l (Alg.mul l x.parts.1 (Alg.inv l (Alg.mulDelta l (.rat 1))))).map (Alg.mk (.rat 0))
    else
      match Alg.sqrtCand l (Alg.norm l x.parts.1 x.parts.2) with
      | none => none
      | some n =>
        match Alg.sqrtCand l ((x.parts.1.add n).scale (1 / 2)) with
        | some u => some (.mk u (Alg.mul l x.parts.2 (Alg.inv l (u.scale 2))))
        | none =>
          match Alg.sqrtCand l ((x.parts.1.sub n).scale (1 / 2)) with
          | some u => some (.mk u (Alg.mul l x.parts.2 (Alg.inv l (u.scale 2))))
          | none => none

/-- The nonnegative square root of a number in its own field, if it has one there. The candidate is squared again, so
an answer is right whatever the search found. -/
def Alg.sqrt? (l : Nat) (x : Alg) : Option Alg :=
  match Alg.sqrtCand l x with
  | some y => if Alg.mul l y y = x then some (Alg.abs l y) else none
  | none => none

/-- γ l as a number of level l. -/
def Alg.gamma : Nat → Alg
  | 0 => .rat 0
  | _ + 1 => .ext (.rat 0) (.rat 1)

/-- The tower level of `N` = 2^p: p - 2, and 0 for `N` < 4. -/
def levelOf (n : Nat) : Nat := n.log2 - 2

/-- 2·cos(2π/N). -/
def twoCosStep (n : Nat) : Alg :=
  if n = 1 then .rat 2 else if n = 2 then .rat (-2) else Alg.gamma (levelOf n)

/-- From 2·cos(jθ) = a and 2·cos((j+1)θ) = b, the next `k` cosines, cos(jθ) first: 2·cos((j+2)θ) = 2·cos θ·b - a. -/
def cosList (l : Nat) (step : Alg) : Nat → Alg → Alg → List Alg
  | 0, _, _ => []
  | k + 1, a, b => a.scale (1 / 2) :: cosList l step k b ((Alg.mul l step b).sub a)

/-- cos(2πj/N) for j = 0 to N - 1. -/
def cosTable (n : Nat) : List Alg := cosList (levelOf n) (twoCosStep n) n (.rat 2) (twoCosStep n)

/-- cos(2πm/N) from the table. -/
def cosAt (tab : List Alg) (n m : Nat) : Alg := tab.getD (m % n) (.rat 0)

/-- sin(2πm/N) = cos(2π(m + 3N/4)/N) from the table; 0 where `N` is 1 or 2. -/
def sinAt (tab : List Alg) (n m : Nat) : Alg :=
  if n % 4 = 0 then tab.getD ((m + 3 * (n / 4)) % n) (.rat 0) else .rat 0

/-- A magnitude (R177): a number of the field, or the nonnegative square root of one. -/
inductive Mag where
  | exact (y : Alg)
  | root (r : Alg)
  deriving DecidableEq, Repr, Inhabited

/-- A phase (R178): q·π, or the parameter `ATAN2_ZERO` where it is no rational multiple of π, or the angle of the point
(re, im) where that is no multiple of π/N. -/
inductive Phase where
  | piMul (q : Rat)
  | param (p : RealParam)
  | dir (re im : Alg)
  deriving DecidableEq, Repr, Inhabited

/-! ### Enclosures -/

/-- A rational interval that holds a real number; a point when the number is known exactly. -/
structure Encl where
  lo : Rat
  hi : Rat
  deriving DecidableEq, Repr, Inhabited

def Encl.point (q : Rat) : Encl := ⟨q, q⟩

/-- The rationals that bound a real parameter. -/
def Encl.param (p : RealParam) : Encl := ⟨p.lo, p.hi⟩

def Encl.add (a b : Encl) : Encl := ⟨a.lo + b.lo, a.hi + b.hi⟩

/-- A rational times an enclosed number. -/
def Encl.scale (q : Rat) (a : Encl) : Encl := if 0 ≤ q.num then ⟨q * a.lo, q * a.hi⟩ else ⟨q * a.hi, q * a.lo⟩

def Encl.mul (a b : Encl) : Encl :=
  ⟨min (min (a.lo * b.lo) (a.lo * b.hi)) (min (a.hi * b.lo) (a.hi * b.hi)),
   max (max (a.lo * b.lo) (a.lo * b.hi)) (max (a.hi * b.lo) (a.hi * b.hi))⟩

/-- `clamp(v, lo, hi)` of spec/00_scope.md R15 on an enclosed number. -/
def Encl.clamp (lo hi : Rat) (a : Encl) : Encl := ⟨max lo (min a.lo hi), max lo (min a.hi hi)⟩

/-- The resolution of a rounded end point: 2^80. -/
def resolution : Nat := 2 ^ 80

def roundDown (q : Rat) : Rat := mkRat (q * resolution).floor resolution

def roundUp (q : Rat) : Rat := mkRat (q * resolution).ceil resolution

/-- The same number in a wider interval with short end points; a point stays a point. -/
def Encl.round (a : Encl) : Encl := if a.lo = a.hi then a else ⟨roundDown a.lo, roundUp a.hi⟩

/-- A rational at most √q, for q ≥ 0. -/
def sqrtDown (q : Rat) : Rat := mkRat (isqrt (q * resolution * resolution).floor.toNat) resolution

/-- A rational at least √q. -/
def sqrtUp (q : Rat) : Rat := mkRat (isqrt (q * resolution * resolution).floor.toNat + 1) resolution

/-- The square root of an enclosed nonnegative number. -/
def Encl.sqrt (a : Encl) : Encl := ⟨sqrtDown (max 0 a.lo), sqrtUp (max 0 a.hi)⟩

/-- γ l enclosed. -/
def gammaEncl : Nat → Encl
  | 0 => .point 0
  | l + 1 => ((Encl.point 2).add (gammaEncl l)).sqrt

/-- A number of a level enclosed. -/
def Alg.encl : Nat → Alg → Encl
  | 0, x => .point x.ratPart
  | _ + 1, .rat q => .point q
  | l + 1, .ext a b => (Alg.encl l a).add ((Alg.encl l b).mul (gammaEncl (l + 1)))

def Mag.encl (l : Nat) : Mag → Encl
  | .exact y => (y.encl l).round
  | .root r => (r.encl l).sqrt

/-- π enclosed, to twenty digits. -/
def piEncl : Encl := ⟨mkRat 314159265358979323846 (10 ^ 20), mkRat 314159265358979323847 (10 ^ 20)⟩

/-- The sum of the first `k` terms of arctan x = x - x³/3 + x⁵/5 - … -/
def atanSum (x : Rat) : Nat → Rat
  | 0 => 0
  | k + 1 => atanSum x k + (if k % 2 = 0 then 1 else -1) * x ^ (2 * k + 1) * mkRat 1 (2 * k + 1)

/-- arctan x / π for an enclosed x in [0, 1]: an even number of terms is below, an odd number above. -/
def atanTurns (a : Encl) : Encl :=
  (⟨atanSum (max 0 (roundDown a.lo)) 28 / piEncl.hi, atanSum (min 1 (roundUp a.hi)) 29 / piEncl.lo⟩ : Encl).round

/-- y/x, checked by multiplying back. -/
def Alg.ratio? (l : Nat) (y x : Alg) : Option Alg :=
  if Alg.mul l (Alg.mul l y (Alg.inv l x)) x = y then some (Alg.mul l y (Alg.inv l x)) else none

/-- arctan(y/x) / π for 0 < y ≤ x, by the series or by arctan r = π/4 - arctan((1 - r)/(1 + r)). -/
def octantTurns (l : Nat) (x y : Alg) : Encl :=
  match Alg.ratio? l y x with
  | none => ⟨0, 1 / 4⟩
  | some r =>
    if 12 * (r.encl l).hi ≤ 5 then atanTurns (r.encl l)
    else
      match Alg.ratio? l (x.sub y) (x.add y) with
      | none => ⟨0, 1 / 4⟩
      | some w => (Encl.point (1 / 4)).add ((atanTurns (w.encl l)).scale (-1))

/-- The angle of (x, y), x ≥ 0 and y ≥ 0 not both 0, over π, in [0, 1/2]. -/
def quadrantTurns (l : Nat) (x y : Alg) : Encl :=
  if Alg.sign l y = 0 then .point 0
  else if Alg.sign l x = 0 then .point (1 / 2)
  else if 0 ≤ Alg.sign l (x.sub y) then octantTurns l x y
  else (Encl.point (1 / 2)).add ((octantTurns l y x).scale (-1))

/-- The angle in (-π, π] of the point (re, im) ≠ (0, 0), over π (spec/00_scope.md R15, `atan2`). -/
def turns (l : Nat) (re im : Alg) : Encl :=
  if Alg.sign l re < 0 then
    if Alg.sign l im < 0 then (Encl.point (-1)).add (quadrantTurns l (re.abs l) (im.abs l))
    else (Encl.point 1).add ((quadrantTurns l (re.abs l) (im.abs l)).scale (-1))
  else
    if Alg.sign l im < 0 then (quadrantTurns l (re.abs l) (im.abs l)).scale (-1)
    else quadrantTurns l (re.abs l) (im.abs l)

/-- An angle known modulo π exactly: where (re, im) ≠ (0, 0) is its mirror image turned by 2πj/N, its angle over π
is j/N modulo 1, and an enclosure narrower than 1 tells which. `j/N` is tried for the `j` next to the enclosure. -/
def exactTurns? (tab : List Alg) (n : Nat) (re im : Alg) (e : Encl) : Option Rat :=
  let j : Int := ((e.lo + e.hi) * n / 2 + 1 / 2).floor
  let q : Rat := mkRat j n
  let m : Nat := (j % n).toNat
  let l := levelOf n
  let c := cosAt tab n m
  let s := sinAt tab n m
  if e.lo ≤ q ∧ q ≤ e.hi ∧ e.hi - e.lo < 1 ∧ (Alg.sign l re ≠ 0 ∨ Alg.sign l im ≠ 0)
      ∧ re = (Alg.mul l re c).add (Alg.mul l im s) ∧ im = (Alg.mul l re s).sub (Alg.mul l im c) then some q
  else none

end Sys2Proof.Machine
end

