-- ==== Sys2Proof/Machine/Params.lean ====
section
/-! DEFINITION. The configuration check (spec/00_scope.md R13, spec/60_exceptions.md R280), the quadrature table as a
partial map with the properties every table must have (spec/40_edge_decoder.md R133, R134) and its default (R135), and
the configuration that State.reset is built from (notes/assumptions/1.md). -/

namespace Sys2Proof

/-- `lo ≤ q ≤ hi` for integer bounds. -/
def ratWithin (lo hi : Int) (q : Rat) : Bool := decide (lo * q.den ≤ q.num) && decide (q.num ≤ hi * q.den)

/-- A real parameter's bounds lie between two integers. -/
def RealParam.within (lo hi : Int) (p : RealParam) : Bool := ratWithin lo hi p.lo && ratWithin lo hi p.hi

/-- A real parameter's lower bound is positive. -/
def RealParam.positive (p : RealParam) : Bool := decide (0 < p.lo.num)

end Sys2Proof

namespace Sys2Proof.Machine

/-- `QTABLE(s, pp)`, `none` where the pair is not in the table (R133). The first entry counts. -/
def qLookup (t : List QEntry) (s : EncState) (pp : Fin 4) : Option EncState :=
  match t with
  | [] => none
  | e :: rest => if e.state = s ∧ e.pp = pp then some e.next else qLookup rest s pp

/-- The default table of R135: exactly eight entries, clockwise pairs 2, 0, 1, 3. -/
def defaultQTable : List QEntry :=
  [⟨.start, 2, .cw1⟩, ⟨.cw1, 0, .cw2⟩, ⟨.cw2, 1, .cw3⟩, ⟨.cw3, 3, .start⟩,
   ⟨.start, 1, .ccw1⟩, ⟨.ccw1, 0, .ccw2⟩, ⟨.ccw2, 2, .ccw3⟩, ⟨.ccw3, 3, .start⟩]

/-- Two pin pairs that differ in exactly one of their two bits: 0-1, 0-2, 3-1, 3-2. -/
def oneBitApart (a b : Fin 4) : Bool := a.val + b.val != 3 && a != b

/-- R134 (b), (c) and (d) for one clockwise sequence q1, q2, q3, 3. For (d), from each state of either chain the pair
two steps ahead in its sequence is absent; that the rest of the sequence then fires nothing follows, since from START
it reaches at most CW1 or CCW1 before it ends (DEDUCED, notes/assumptions/15.md). DESIGN CHOICE, safe
(notes/assumptions/27.md): the four pairs need not be distinct; only the one-bit steps that R134 (b) names are
checked, so q2 may be 3. -/
def chainsOk (t : List QEntry) (q1 q2 q3 : Fin 4) : Bool :=
  oneBitApart 3 q1 && oneBitApart q1 q2 && oneBitApart q2 q3 && oneBitApart q3 3
  && qLookup t .start q1 == some .cw1 && qLookup t .cw1 q2 == some .cw2
  && qLookup t .cw2 q3 == some .cw3 && qLookup t .cw3 3 == some .start
  && qLookup t .start q3 == some .ccw1 && qLookup t .ccw1 q2 == some .ccw2
  && qLookup t .ccw2 q1 == some .ccw3 && qLookup t .ccw3 3 == some .start
  && qLookup t .start q2 == none && qLookup t .cw1 q3 == none
  && qLookup t .cw2 3 == none && qLookup t .cw3 q1 == none
  && qLookup t .ccw1 q1 == none && qLookup t .ccw2 3 == none && qLookup t .ccw3 q3 == none

/-- The four pin pairs. -/
def pinPairs : List (Fin 4) := [0, 1, 2, 3]

/-- R134: (a) the table's states are the seven named ones, and some clockwise sequence has (b) to (d). -/
def qtableOk (t : List QEntry) : Bool :=
  t.all (fun e => e.state != .reserved && e.next != .reserved)
  && pinPairs.any fun q1 => pinPairs.any fun q2 => pinPairs.any fun q3 => chainsOk t q1 q2 q3

/-- A frequency entry holds a positive integer (R10). -/
def entryOk : PatEntry → Bool
  | .freq hz => decide (0 < hz)
  | .hold => true
  | .silence => true

/-- `N` = 2^p (R7). -/
def isPowerOfTwo (n : Nat) : Bool := 2 ^ n.log2 == n

/-- The constraints of the tables of R7 to R10 that are not construction errors, and the field widths of R102 that
bound them (R13, D2). A real parameter is held to its range by the rationals that bound it (notes/assumptions/4.md). -/
def constraintsOk (c : Config) : Bool :=
  decide (c.adcMax ≤ 65535)
  && c.samplingPeriod.positive && c.pwmCarrierHz.positive
  && c.phaseScale.positive
  && c.baseColor.r.within 0 255 && c.baseColor.g.within 0 255 && c.baseColor.b.within 0 255
  && c.redSpan.within 0 255
  && qtableOk c.qtable
  && decide (1 ≤ c.numButtons) && decide (c.numButtons ≤ 16)
  && decide (1 ≤ c.btnThreshold)
  && decide (c.patterns.length ≤ 256) && c.patterns.all (fun p => !p.isEmpty && p.all entryOk)
  && decide (c.alarmPattern < c.patterns.length)
  && decide (-c.atan2Zero.lo.den < c.atan2Zero.lo.num) && decide (c.atan2Zero.hi.num ≤ c.atan2Zero.hi.den)

/-- The construction check: the two errors of R280 in its order, then R13. -/
def configProblem (c : Config) : Option ConfigProblem :=
  if isPowerOfTwo c.n = false then some .nNotPowerOfTwo
  else if c.numLeds = 0 ∨ c.n % c.numLeds ≠ 0 then some .ledsNotDividingN
  else if constraintsOk c = false then some .badConfig
  else none

/-- DESIGN CHOICE, unsafe for a claim about State.reset alone (notes/assumptions/1.md): the test configuration T1 of
spec/95_test_vectors.md; the parameters no rule reads are those of notes/assumptions/23.md. -/
def defaultConfig : Config where
  n := 4
  numLeds := 2
  adcMax := 1023
  sampleDelay := .rat (mkRat 48 1000000)
  samplingPeriod := .rat (mkRat 48 1000000)
  phaseScale := .rat 1
  baseColor := ⟨.rat 0, .rat 100, .rat 200⟩
  redSpan := .rat 255
  encPullDown := false
  qtable := defaultQTable
  btnPullUp := [true]
  btnPeriodMs := .rat 1
  btnThreshold := 3
  patterns := [[.freq 880, .hold, .silence], [.freq 440]]
  patternTick := .rat 1
  alarmPattern := 1
  dutyHigh := 32768
  pwmCarrierHz := .rat 1
  atan2Zero := .rat 0

end Sys2Proof.Machine
end

