-- ==== Sys2Proof/Machine/State.lean ====
section
/-! DEFINITION. The machine's state (spec/10_state.md R20 to R52) as plain data, the reasons a step can stop
(spec/30_encoding.md R118, spec/60_exceptions.md R280), and the state after reset (R52, spec/70_reset_and_hazards.md
R320). -/

namespace Sys2Proof.Machine

/-- A colour: three channels of 0 to 255 (R22, spec/41_spectrum_pipeline.md R188). -/
structure Rgb where
  r : Byte
  g : Byte
  b : Byte
  deriving DecidableEq, Repr, Inhabited

/-- The colour of a light-unit write (spec/00_scope.md R17; spec/41_spectrum_pipeline.md R192): its three bytes; or,
where the rational enclosures do not decide a quadrant or a ceiling, the magnitudes and phases of the band it is
`Colour` of (DESIGN CHOICE, safe: notes/assumptions/8.md). Either stands for exactly one triple of integers,
`LedColor.val` in Denote.lean. -/
inductive LedColor where
  | rgb (color : Rgb)
  | band (ms : List Mag) (ps : List Phase)
  deriving DecidableEq, Repr, Inhabited

/-- The button FSM's position (R36). -/
inductive BtnState where
  | holdUp
  | falling
  | holdDown
  | rising
  deriving DecidableEq, Repr, Inhabited

/-- One button's copy of the state (R36 to R40). -/
structure Button where
  /-- `btn_state[u]` (R36) -/
  state : BtnState
  /-- `btn_count[u]` (R37) -/
  count : Nat
  /-- `btn_irq_en[u]` (R38) -/
  irqEn : Bool
  /-- `btn_timer_run[u]` (R39) -/
  timerRun : Bool
  /-- `cb_press[u]` (R40) -/
  cbPress : Option Handle
  deriving DecidableEq, Repr, Inhabited

/-- The pipeline sequencer's phase (R41). -/
inductive PipePhase where
  | idle
  | sampling
  | analyze
  | render
  deriving DecidableEq, Repr, Inhabited

/-- The mode an iteration latched (R42). -/
inductive IterMode where
  | constant
  | spectrum
  deriving DecidableEq, Repr, Inhabited

/-- An output event (spec/00_scope.md R17). -/
inductive Event where
  | fireCw (h : Handle)
  | fireCcw (h : Handle)
  | firePress (u : BitVec 4) (h : Handle)
  | ledWrite (n : Nat) (color : LedColor)
  | yieldSleep
  | ret (v : Nat)
  deriving DecidableEq, Repr, Inhabited

/-- The block's state. The first three fields are the model's own (notes/assumptions/1.md, 2.md, 9.md); the others
are the spec's. A bit is a `Bool`; `NONE` and "no value" are `none`. -/
structure State where
  /-- the configuration, constant for the life of the block (R338) -/
  cfg : Config
  /-- the stimulus words not yet applied, next first (R16) -/
  input : List Word
  /-- the output events emitted so far, oldest first (R17) -/
  outputs : List Event
  /-- `mode_sel` (R21) -/
  modeSel : Mode
  /-- `const_valid` (R22) -/
  constValid : Bool
  /-- `const_color` (R22) -/
  constColor : Option Rgb
  /-- `led_drv_en` (R23) -/
  ledDrvEn : Bool
  /-- `alarm_state` (R24) -/
  alarmState : AlarmState
  /-- `alarm_saved` (R25) -/
  alarmSaved : AlarmState
  /-- `test_active` (R25) -/
  testActive : Bool
  /-- `pat_sel` (R26) -/
  patSel : Nat
  /-- `pat_pos` (R26) -/
  patPos : Nat
  /-- `pat_timer_run` (R27) -/
  patTimerRun : Bool
  /-- `freq_timer_run` (R28) -/
  freqTimerRun : Bool
  /-- `tone_freq` (R29) -/
  toneFreq : Option Nat
  /-- `tone_phase` (R30) -/
  tonePhase : Bool
  /-- `pwm_en` (R31) -/
  pwmEn : Bool
  /-- `pwm_duty` (R32) -/
  pwmDuty : Nat
  /-- `radio_hiz` (R33) -/
  radioHiz : Bool
  /-- `enc_state` (R34) -/
  encState : EncState
  /-- `cb_cw` (R35) -/
  cbCw : Option Handle
  /-- `cb_ccw` (R35) -/
  cbCcw : Option Handle
  /-- the button FSMs, button u at index u (R36 to R40) -/
  buttons : List Button
  /-- `pipe_phase` (R41) -/
  pipePhase : PipePhase
  /-- `pipe_idx` (R41) -/
  pipeIdx : Nat
  /-- `pipe_mode` (R42) -/
  pipeMode : Option IterMode
  /-- `x` (R43) -/
  x : List (Option Nat)
  /-- `re` (R44) -/
  re : List (Option Alg)
  /-- `im` (R44) -/
  im : List (Option Alg)
  /-- `mag` (R45) -/
  mag : List (Option Mag)
  /-- `ph` (R45) -/
  ph : List (Option Phase)
  deriving DecidableEq, Repr, Inhabited

/-- The construction errors of R280. -/
inductive ConfigError where
  | nNotPowerOfTwo
  | ledsNotDividingN
  deriving DecidableEq, Repr, Inhabited

/-- The number R280 gives an error. -/
def ConfigError.code : ConfigError → Nat
  | .nNotPowerOfTwo => 1
  | .ledsNotDividingN => 2

/-- The faults: the only errors the block raises (R280, R281). -/
inductive Fault where
  /-- Raised by construction, and by every step of a state whose configuration has the error, for no block exists then
  (R280, spec/93_implementation_defined.md U16). Safe. -/
  | configError (e : ConfigError)
  deriving DecidableEq, Repr, Inhabited

/-- The refusals: the closed list of R118, and two of the model's own. -/
inductive Refusal where
  /-- Raised by exec for a stimulus that has no meaning yet; no arm raises it. Safe. -/
  | notModelled (mnemonic : String)
  /-- Raised by the fetch for a word that spells no stimulus (R106, R107). Safe. -/
  | invalidWord
  /-- Raised by the fetch (`m` = 3, `s` >= 5) and by the meanings (`u`, `p`, `v`) for an operand reserved by value
  (R108). Safe. -/
  | reservedOperand
  /-- Raised by a meaning whose guard fails (R113). Safe. -/
  | guardFailed
  /-- Raised by a meaning that reads an element or a scalar that holds no value (R72, R210). Safe. -/
  | unwrittenRead
  /-- Raised by construction and by every step of a state whose configuration breaks this spec's own constraints
  (R13, U17). Safe. -/
  | badConfig
  /-- The model's own: raised by a step when the trace is used up, for then nothing happens (R16, R324;
  notes/assumptions/2.md). Safe. -/
  | noStimulus
  deriving DecidableEq, Repr, Inhabited

/-- A button after reset, in its released steady state (R36 to R40, R52). -/
def resetButton (pullUp : Bool) : Button where
  state := if pullUp then .holdUp else .holdDown
  count := 0
  irqEn := true
  timerRun := false
  cbPress := none

/-- The state that construction creates from a configuration (R52, R320). -/
def resetState (c : Config) : State where
  cfg := c
  input := []
  outputs := []
  modeSel := .off
  constValid := false
  constColor := none
  ledDrvEn := false
  alarmState := .off
  alarmSaved := .off
  testActive := false
  patSel := 0
  patPos := 0
  patTimerRun := false
  freqTimerRun := false
  toneFreq := none
  tonePhase := false
  pwmEn := false
  pwmDuty := Config.dutyLow
  radioHiz := false
  encState := .start
  cbCw := none
  cbCcw := none
  buttons := c.btnPullUp.map resetButton
  pipePhase := .idle
  pipeIdx := 0
  pipeMode := none
  x := List.replicate c.n none
  re := List.replicate c.n none
  im := List.replicate c.n none
  mag := List.replicate c.n none
  ph := List.replicate c.n none

/-- The machine right after reset (R52), built from the model's default configuration; an empty trace. -/
def State.reset : State := resetState defaultConfig

end Sys2Proof.Machine
end

