-- ==== Sys2Proof/Machine/Flags.lean ====
section
/-! DEFINITION. The one-bit values (spec/10_state.md R49). The block has no arithmetic condition codes; what is computed
bit by bit is: the sounding predicate, the light driver's level, whether a callback is armed, and the numbers that
queries return. -/

namespace Sys2Proof.Machine

/-- `alarm_state` = SOUNDING, the one predicate on the alarm state the block's behaviour depends on
(spec/43_alarm_tone.md R242). -/
def State.sounding (s : State) : Bool := s.alarmState == .sounding

/-- The driver's level in an effective mode: 1 unless OFF (spec/42_mode_controller.md R222, D17). -/
def driverLevel : Mode → Bool
  | .off => false
  | .constant => true
  | .spectrum => true

/-- The number of a bit (R246's 1 and 0). -/
def bitCode (b : Bool) : Nat := if b then 1 else 0

/-- The armed condition of a callback: its handle is not NONE (R35, R49). -/
def armed (cb : Option Handle) : Bool := cb.isSome

/-- The code of an encoder position (R34). -/
def encCode : EncState → BitVec 3
  | .start => 0
  | .cw1 => 1
  | .cw2 => 2
  | .cw3 => 3
  | .ccw1 => 4
  | .ccw2 => 5
  | .ccw3 => 6
  | .reserved => 7

/-- The code of a button position (R36). -/
def btnCode : BtnState → BitVec 2
  | .holdUp => 0
  | .falling => 1
  | .holdDown => 2
  | .rising => 3

/-- The code of a sequencer phase (R41). -/
def phaseCode : PipePhase → BitVec 2
  | .idle => 0
  | .sampling => 1
  | .analyze => 2
  | .render => 3

end Sys2Proof.Machine
end

