-- ==== Sys2Proof/Machine/Operands.lean ====
section
/-! DEFINITION. Operand forms: the pin pair of the encoder (spec/40_edge_decoder.md R132), the value of a query's answer,
and access to array elements by index (spec/20_memory.md R72, spec/44_arithmetic_and_sequencing.md R366). -/

namespace Sys2Proof.Machine

/-- `raw = clk + 2*dir`, and `3 - raw` where the pins are pull-down (R132). -/
def pinPair (pullDown clk dir : Bool) : Fin 4 :=
  if pullDown then Fin.ofNat 4 (3 - (clk.toNat + 2 * dir.toNat)) else Fin.ofNat 4 (clk.toNat + 2 * dir.toNat)

/-- `MemRead(A, i)` (R72): the element's value; `none` where there is no element i or it holds no value. -/
def readElem {α : Type} (a : List (Option α)) (i : Nat) : Option α :=
  match a[i]? with
  | some v => v
  | none => none

/-- `MemWrite(A, i, v)` (R72); `none` where there is no element i. -/
def writeElem {α : Type} (a : List (Option α)) (i : Nat) (v : α) : Option (List (Option α)) :=
  if i < a.length then some (a.set i (some v)) else none

/-- The `count` elements from index `i` on, `none` where one of them cannot be read. -/
def readRange {α : Type} (a : List (Option α)) (i : Nat) : Nat → Option (List α)
  | 0 => some []
  | count + 1 =>
    match readElem a i with
    | none => none
    | some v =>
      match readRange a (i + 1) count with
      | none => none
      | some vs => some (v :: vs)

/-- An array of which every element holds a value. -/
def filled {α : Type} (vs : List α) : List (Option α) := vs.map some

/-- An array of `n` elements that hold no value (R76). -/
def emptied (n : Nat) {α : Type} : List (Option α) := List.replicate n none

end Sys2Proof.Machine
end

