-- ==== Sys2Proof/Machine/Ops.lean ====
section
/-! DEFINITION. The named operations that the stimulus meanings share: output events (spec/00_scope.md R17), the
sequencer (R15), the effective mode and the driver level (spec/42_mode_controller.md R221, R222), entering and leaving
SOUNDING (spec/43_alarm_tone.md R244, R245), the button array, construction (spec/60_exceptions.md R280,
spec/70_reset_and_hazards.md R320) and taking the next stimulus from the trace. The block has no trap, no exception
entry and no return from one (R283, R288): nothing of that kind is here to model. -/

namespace Sys2Proof.Machine

/-- The outcome of a step of this machine. -/
abbrev Result := Host.Outcome State Fault Refusal

/-- `emit E` (R15). -/
def emit (e : Event) (s : State) : State := { s with outputs := s.outputs ++ [e] }

/-- `if b then emit E`. -/
def emitIf (b : Bool) (e : Event) (s : State) : State := if b then emit e s else s

/-- Invoke a callback if it is armed: `if cb != NONE then emit Fire(…)` (R136, R146, D6). -/
def fireIf (b : Bool) (cb : Option Handle) (event : Handle → Event) (s : State) : State :=
  match cb with
  | some h => emitIf b (event h) s
  | none => s

/-- `seq <- (phase, idx)` (R15). -/
def setSeq (phase : PipePhase) (idx : Nat) (s : State) : State := { s with pipePhase := phase, pipeIdx := idx }

/-- `EffMode()` (R221). -/
def effMode (s : State) : Mode := if s.sounding then .off else s.modeSel

/-- `ApplyEffMode()` (R222). -/
def applyEffMode (s : State) : State := { s with ledDrvEn := driverLevel (effMode s) }

/-- `EnterSounding(p)` (R244), called when `alarm_state` has just become SOUNDING. -/
def enterSounding (p : Nat) (s : State) : State :=
  { applyEffMode { s with radioHiz := true } with
    patSel := p
    patPos := 0
    toneFreq := none
    tonePhase := false
    freqTimerRun := false
    pwmDuty := Config.dutyLow
    pwmEn := true
    patTimerRun := true }

/-- `LeaveSounding()` (R245), called when `alarm_state` has just left SOUNDING. -/
def leaveSounding (s : State) : State :=
  applyEffMode
    { s with
      patTimerRun := false
      freqTimerRun := false
      pwmEn := false
      pwmDuty := Config.dutyLow
      tonePhase := false
      toneFreq := none
      radioHiz := false }

/-- Write button u's state. -/
def setButton (u : BitVec 4) (b : Button) (s : State) : State := { s with buttons := s.buttons.set u.toNat b }

/-- Run `k` on button u's state; an index `u` >= NUM_BUTTONS is reserved (spec/30_encoding.md R108). -/
def withButton (u : BitVec 4) (s : State) (k : Button → Result) : Result :=
  if u.toNat < s.cfg.numButtons then
    match s.buttons[u.toNat]? with
    | some b => k b
    | none => .refused .reservedOperand
  else .refused .reservedOperand

/-- `if guard then … else refuse(guard_failed)` (R113, R118). -/
def guarded (g : Bool) (r : Result) : Result := if g then r else .refused .guardFailed

/-- An operand that may be reserved by value (R108, R118). -/
def operandOk (ok : Bool) (r : Result) : Result := if ok then r else .refused .reservedOperand

/-- What stops a step before its stimulus is applied. -/
inductive Stop where
  | fault (f : Fault)
  | refused (r : Refusal)
  deriving DecidableEq, Repr

/-- What a configuration's problem is answered with: `raise ConfigError` (R280) or `refuse(bad_config)` (R13). -/
def problemStop : ConfigProblem → Stop
  | .nNotPowerOfTwo => .fault (.configError .nNotPowerOfTwo)
  | .ledsNotDividingN => .fault (.configError .ledsNotDividingN)
  | .badConfig => .refused .badConfig

def Stop.outcome : Stop → Result
  | .fault f => .fault f
  | .refused r => .refused r

/-- Construction, the block's one reset: the check, then the state of R52 (R280, R320). -/
def construct (c : Config) : Result :=
  match configProblem c with
  | some p => (problemStop p).outcome
  | none => .next (resetState c)

/-- What a word the decoder refuses is answered with (R109, R118). -/
def decodeStop : DecodeError → Stop
  | .invalidWord => .refused .invalidWord
  | .reservedOperand => .refused .reservedOperand

/-- The next stimulus and the state with its word taken from the trace. No stimulus can be applied to a block whose
configuration is invalid (R13, U16). -/
def nextStimulus (s : State) : Except Stop (Instr × State) :=
  match configProblem s.cfg with
  | some p => .error (problemStop p)
  | none =>
    match s.input with
    | [] => .error (.refused .noStimulus)
    | w :: rest =>
      match decode w with
      | .error e => .error (decodeStop e)
      | .ok i => .ok (i, { s with input := rest })

/-- Put a word before the rest of the trace, where the next step takes it. -/
def pushWord (w : Word) (s : State) : State := { s with input := w :: s.input }

end Sys2Proof.Machine
end

