-- ==== Sys2Proof/Machine/AlarmTone.lean ====
section
/-! DEFINITION. The alarm tone synthesizer's stimuli (spec/43_alarm_tone.md): ALARM_SOUNDING, BEGIN_TEST_TONE,
END_TEST_TONE, ALARM_SET, PAT_TICK, FREQ_TICK. -/

namespace Sys2Proof.Machine

/-- ALARM_SOUNDING (R246). -/
def execAlarmSounding (s : State) : Result := .next (emit (.ret (bitCode s.sounding)) s)

/-- BEGIN_TEST_TONE (R247). -/
def execBeginTestTone (p : Byte) (s : State) : Result :=
  operandOk (decide (p.toNat < s.cfg.patterns.length)) <|
    guarded (!s.sounding) <|
      .next (enterSounding p.toNat
        { s with alarmSaved := s.alarmState, alarmState := .sounding, testActive := true })

/-- END_TEST_TONE (R248): nothing where no test tone is active. -/
def execEndTestTone (s : State) : Result :=
  if s.testActive then .next (leaveSounding { s with alarmState := s.alarmSaved, testActive := false })
  else .next s

/-- ALARM_SET (R249). -/
def execAlarmSet (a : AlarmState) (s : State) : Result :=
  if s.alarmState ≠ .sounding ∧ a = .sounding then
    .next (enterSounding s.cfg.alarmPattern { s with alarmState := .sounding })
  else if s.alarmState = .sounding ∧ a ≠ .sounding then
    .next (leaveSounding { s with alarmState := a, testActive := false })
  else if s.alarmState ≠ .sounding then .next { s with alarmState := a }
  else .next s

/-- What a pattern entry does to the tone (R250). -/
def applyEntry (e : PatEntry) (s : State) : State :=
  match e with
  | .freq hz => { s with toneFreq := some hz, freqTimerRun := true }
  | .hold => s
  | .silence => { s with toneFreq := none, freqTimerRun := false, tonePhase := false, pwmDuty := Config.dutyLow }

/-- PAT_TICK (R250): the entry at `pat_pos`, then the next position, wrapping at the pattern's end. -/
def execPatTick (s : State) : Result :=
  guarded s.patTimerRun <|
    match s.cfg.patterns[s.patSel]? with
    | none => .refused .unwrittenRead
    | some pattern =>
      match pattern[s.patPos]? with
      | none => .refused .unwrittenRead
      | some e => .next { applyEntry e s with patPos := (s.patPos + 1) % pattern.length }

/-- The duty of a half-period (R252). -/
def dutyOf (c : Config) (high : Bool) : Nat := if high then c.dutyHigh else Config.dutyLow

/-- FREQ_TICK (R252). -/
def execFreqTick (s : State) : Result :=
  guarded s.freqTimerRun <|
    .next { s with tonePhase := !s.tonePhase, pwmDuty := dutyOf s.cfg (!s.tonePhase) }

end Sys2Proof.Machine
end

