-- ==== Sys2Proof/Machine/EdgeDecoder.lean ====
section
/-! DEFINITION. The edge decoder's stimuli (spec/40_edge_decoder.md): ENC_EDGE, ON_ROTATE_CW, ON_ROTATE_CCW, BTN_EDGE,
BTN_TICK, ON_PRESS. -/

namespace Sys2Proof.Machine

/-- The encoder's next position: the table's, and START where the pair is not in it (R133, R136). -/
def encNext (t : List QEntry) (e : EncState) (pp : Fin 4) : EncState :=
  match qLookup t e pp with
  | some next => next
  | none => .start

/-- The pair is valid in this position, so the callback of a completed rotation is due (R136). -/
def encHit (t : List QEntry) (e : EncState) (pp : Fin 4) : Bool := (qLookup t e pp).isSome

/-- ENC_EDGE (R136). The callback comes before the transition (R137). -/
def execEncEdge (clk dir : Bool) (s : State) : Result :=
  let pp := pinPair s.cfg.encPullDown clk dir
  let hit := encHit s.cfg.qtable s.encState pp
  let s1 := fireIf (hit && s.encState == .cw3) s.cbCw .fireCw s
  let s2 := fireIf (hit && s.encState == .ccw3) s.cbCcw .fireCcw s1
  .next { s2 with encState := encNext s.cfg.qtable s.encState pp }

/-- ON_ROTATE_CW (R139). -/
def execOnRotateCw (h : Handle) (s : State) : Result := .next { s with cbCw := some h }

/-- ON_ROTATE_CCW (R140). -/
def execOnRotateCcw (h : Handle) (s : State) : Result := .next { s with cbCcw := some h }

/-- A qualifying edge starts the candidate transition to `next` (R145). -/
def startCandidate (next : BtnState) (b : Button) : Button :=
  { b with irqEn := false, timerRun := true, count := 0, state := next }

/-- One edge of a button's pin (R142, R145); any other edge changes nothing. -/
def edgeButton (level : Bool) (b : Button) : Button :=
  match b.state, level with
  | .holdUp, false => startCandidate .falling b
  | .holdDown, true => startCandidate .rising b
  | .holdUp, true => b
  | .holdDown, false => b
  | .falling, _ => b
  | .rising, _ => b

/-- BTN_EDGE (R145). -/
def execBtnEdge (u : BitVec 4) (level : Bool) (s : State) : Result :=
  withButton u s fun b => guarded b.irqEn (.next (setButton u (edgeButton level b) s))

/-- The candidate ends in a steady position: the timer stops and the edge interrupt is enabled again (R146). -/
def settleButton (steady : BtnState) (b : Button) : Button :=
  { b with state := steady, count := 0, timerRun := false, irqEn := true }

/-- The pin's level before the edge: 1 in FALLING, else 0 (R146). -/
def startLevel (b : Button) : Bool := b.state == .falling

/-- The steady position before the edge (R146). -/
def backState (b : Button) : BtnState := if b.state = .falling then .holdUp else .holdDown

/-- The steady position the edge leads to (R146). -/
def fwdState (b : Button) : BtnState := if b.state = .falling then .holdDown else .holdUp

/-- This tick accepts the candidate: a consistent read that brings the counter to the threshold (R146). -/
def tickAccepts (threshold : Nat) (level : Bool) (b : Button) : Bool :=
  level != startLevel b && b.count + 1 == threshold

/-- The edge direction matches the active polarity (R143, R146). -/
def activeEdge (pullUp : Bool) (b : Button) : Bool := (b.state == .falling) == pullUp

/-- One tick of a button's re-check timer (R146): abort, accept, or count on. -/
def tickButton (threshold : Nat) (level : Bool) (b : Button) : Button :=
  if level = startLevel b then settleButton (backState b) b
  else if tickAccepts threshold level b then settleButton (fwdState b) b
  else { b with count := b.count + 1 }

/-- `BTN_PULL_UP[u]` (R9). -/
def pullUpOf (c : Config) (u : BitVec 4) : Bool := c.btnPullUp.getD u.toNat false

/-- BTN_TICK (R146). -/
def execBtnTick (u : BitVec 4) (level : Bool) (s : State) : Result :=
  withButton u s fun b =>
    guarded b.timerRun <|
      .next <| setButton u (tickButton s.cfg.btnThreshold level b) <|
        fireIf (tickAccepts s.cfg.btnThreshold level b && activeEdge (pullUpOf s.cfg u) b) b.cbPress (.firePress u) s

/-- ON_PRESS (R148). -/
def execOnPress (u : BitVec 4) (h : Handle) (s : State) : Result :=
  withButton u s fun b => .next (setButton u { b with cbPress := some h } s)

end Sys2Proof.Machine
end

