-- ==== Sys2Proof/Machine/ModeController.lean ====
section
/-! DEFINITION. The mode controller's stimuli (spec/42_mode_controller.md): SET_MODE, GET_MODE, SET_CONSTANT_COLOR. -/

namespace Sys2Proof.Machine

/-- SET_MODE (R223). -/
def execSetMode (m : Mode) (s : State) : Result := .next (applyEffMode { s with modeSel := m })

/-- GET_MODE (R224): the stored selection. -/
def execGetMode (s : State) : Result := .next (emit (.ret s.modeSel.code.toNat) s)

/-- SET_CONSTANT_COLOR (R225). -/
def execSetConstantColor (r g b : Byte) (s : State) : Result :=
  .next { s with constColor := some ⟨r, g, b⟩, constValid := true }

end Sys2Proof.Machine
end

