-- ==== Sys2Proof/Machine/Spectrum.lean ====
section
/-! DEFINITION. The functions of the spectrum pipeline (spec/41_spectrum_pipeline.md): the transform `Dft` (R175),
magnitude and phase (R177, R178), `Band` (R185 to R187) and `Colour` (R189 to R194). Phases are in units of π, so π
itself cancels out of the ramps of R191: (2/π)·ap = 2·(ap/π). -/

namespace Sys2Proof.Machine

/-- The sum over n of x[n]·t(k·n), the samples from index `n` on. -/
def dftSum (t : Nat → Alg) (k : Nat) : Nat → List Nat → Alg
  | _, [] => .rat 0
  | n, v :: rest => ((t (k * n)).scale v).add (dftSum t k (n + 1) rest)

/-- `re[k]` of R175. -/
def dftRe (tab : List Alg) (n : Nat) (xs : List Nat) (k : Nat) : Alg := dftSum (cosAt tab n) k 0 xs

/-- `im[k]` of R175. -/
def dftIm (tab : List Alg) (n : Nat) (xs : List Nat) (k : Nat) : Alg := (dftSum (sinAt tab n) k 0 xs).neg

/-- R177: √(re² + im²). -/
def magnitude (l : Nat) (re im : Alg) : Mag :=
  match Alg.sqrt? l ((Alg.mul l re re).add (Alg.mul l im im)) with
  | some y => .exact y
  | none => .root ((Alg.mul l re re).add (Alg.mul l im im))

/-- R178: atan2(im, re), with the parameter `ATAN2_ZERO` at (0, 0). -/
def phase (tab : List Alg) (c : Config) (re im : Alg) : Phase :=
  if Alg.sign (levelOf c.n) re = 0 ∧ Alg.sign (levelOf c.n) im = 0 then
    match c.atan2Zero with
    | .rat q => .piMul q
    | .real lo hi k => .param (.real lo hi k)
  else
    match exactTurns? tab c.n re im (turns (levelOf c.n) re im) with
    | some q => .piMul q
    | none => .dir re im

/-- The transform of a sample block with its magnitudes and phases. -/
structure Spectrum where
  re : List Alg
  im : List Alg
  mag : List Mag
  ph : List Phase
  deriving DecidableEq, Repr, Inhabited

/-- R176's `(re, im) <- Dft(x)` and its loop over k. -/
def analyze (c : Config) (xs : List Nat) : Spectrum :=
  let tab := cosTable c.n
  let re := (List.range c.n).map (dftRe tab c.n xs)
  let im := (List.range c.n).map (dftIm tab c.n xs)
  { re := re
    im := im
    mag := List.zipWith (magnitude (levelOf c.n)) re im
    ph := List.zipWith (phase tab c) re im }

/-! ### Band mapper -/

/-- A sum of magnitudes: the part in the field, and the square roots enclosed. -/
def magSum (l : Nat) : List Mag → Alg × Encl
  | [] => (.rat 0, .point 0)
  | .exact y :: rest => ((magSum l rest).1.add y, (magSum l rest).2)
  | .root r :: rest => ((magSum l rest).1, (magSum l rest).2.add ((Mag.root r).encl l))

/-- `sm` of R185, enclosed. -/
def sumMagnitude (l : Nat) (ms : List Mag) : Encl := ((magSum l ms).1.encl l).add (magSum l ms).2

/-- A sum of phases over π: the multiples of π and the parameter added up, and of the other angles the product of their
points and the enclosed sum. -/
structure PhaseSum where
  turns : Encl
  re : Alg
  im : Alg
  rest : Encl
  deriving DecidableEq, Repr, Inhabited

def phaseSum (l : Nat) : List Phase → PhaseSum
  | [] => ⟨.point 0, .rat 1, .rat 0, .point 0⟩
  | .piMul q :: ps => { phaseSum l ps with turns := (Encl.point q).add (phaseSum l ps).turns }
  | .param p :: ps => { phaseSum l ps with turns := (Encl.param p).add (phaseSum l ps).turns }
  | .dir a b :: ps =>
    { phaseSum l ps with
      re := (Alg.mul l (phaseSum l ps).re a).sub (Alg.mul l (phaseSum l ps).im b)
      im := (Alg.mul l (phaseSum l ps).re b).add (Alg.mul l (phaseSum l ps).im a)
      rest := (phaseSum l ps).rest.add (Sys2Proof.Machine.turns l a b) }

/-- `sp` of R185 over π, enclosed; a point where the angles that are no multiples of π/N add up to one. -/
def sumPhase (tab : List Alg) (n : Nat) (ps : List Phase) : Encl :=
  let s := phaseSum (levelOf n) ps
  s.turns.add <|
    match exactTurns? tab n s.re s.im s.rest with
    | some q => .point q
    | none => s.rest

/-- 1 / (BINS_PER_LED · PHASE_SCALE_C), enclosed (R187). -/
def phaseFactor (c : Config) : Encl :=
  ⟨1 / (c.binsPerLed * c.phaseScale.hi), 1 / (c.binsPerLed * c.phaseScale.lo)⟩

/-- `Band(n)` of R185 from the band's magnitudes and phases: the averages (am, ap/π), enclosed (R186, R187). -/
def bandAverages (c : Config) (ms : List Mag) (ps : List Phase) : Encl × Encl :=
  ((sumMagnitude (levelOf c.n) ms).scale (1 / (c.binsPerLed * Config.magDivisor)),
   ((sumPhase (cosTable c.n) c.n ps).mul (phaseFactor c)).clamp (-1) 1)

/-! ### Colour mapper -/

/-- The rows of R189's table, in the order of the phases they cover. -/
inductive Quadrant where
  | redNeg
  | blue
  | green
  | redPos
  deriving DecidableEq, Repr, Inhabited

/-- The place of a phase, over π, in the order Q_RED_NEG, Q_BLUE, Q_GREEN, Q_RED_POS (R189; C6: π is Q_RED_POS). -/
def quadrantIndex (t : Rat) : Nat :=
  if t < -1 / 2 then 0 else if t < 0 then 1 else if t < 1 / 2 then 2 else 3

def quadrantAt : Nat → Quadrant
  | 0 => .redNeg
  | 1 => .blue
  | 2 => .green
  | _ => .redPos

/-- The ramp of R191 at a phase over π. -/
def ramp (q : Quadrant) (t : Encl) : Encl :=
  match q with
  | .redNeg => (Encl.point (-1)).add (t.scale (-2))
  | .blue => (Encl.point 1).add (t.scale 2)
  | .green => (Encl.point 1).add (t.scale (-2))
  | .redPos => (Encl.point (-1)).add (t.scale 2)

/-- The red channel before scaling (R192). -/
def redBase (c : Config) (q : Quadrant) (t : Encl) : Encl :=
  match q with
  | .redNeg => (ramp .redNeg t).mul (.param c.redSpan)
  | .redPos => (ramp .redPos t).mul (.param c.redSpan)
  | .blue => .param c.baseColor.r
  | .green => .param c.baseColor.r

/-- The green channel before scaling (R192). -/
def greenBase (c : Config) (q : Quadrant) (t : Encl) : Encl :=
  match q with
  | .green => (ramp .green t).mul (.param c.baseColor.g)
  | .redNeg => .param c.baseColor.g
  | .blue => .param c.baseColor.g
  | .redPos => .param c.baseColor.g

/-- The blue channel before scaling (R192). -/
def blueBase (c : Config) (q : Quadrant) (t : Encl) : Encl :=
  match q with
  | .blue => (ramp .blue t).mul (.param c.baseColor.b)
  | .redNeg => .param c.baseColor.b
  | .green => .param c.baseColor.b
  | .redPos => .param c.baseColor.b

/-- `clamp(ceil(v), 0, 255)` (R192, R361). -/
def channelOf (v : Rat) : Nat := min v.ceil.toNat 255

/-- The magnitude clamp m = min(am, 255) (R190). -/
def clampMag (am : Encl) : Encl := ⟨min am.lo Config.magClamp, min am.hi Config.magClamp⟩

/-- One channel of the result from its value before rounding, where the enclosure decides the ceiling (R192). -/
def channel? (v : Encl) : Option Byte :=
  if channelOf v.lo = channelOf v.hi then some (BitVec.ofNat 8 (channelOf v.lo)) else none

/-- R192 in one quadrant, where the three ceilings are decided. -/
def colourIn? (c : Config) (am ap : Encl) (q : Quadrant) : Option Rgb :=
  (channel? ((redBase c q ap).mul (clampMag am))).bind fun r =>
    (channel? ((greenBase c q ap).mul (clampMag am))).bind fun g =>
      (channel? ((blueBase c q ap).mul (clampMag am))).map fun b => ⟨r, g, b⟩

/-- The quadrants a phase enclosed over π can lie in, the first one and the others (R189). -/
def otherQuadrants (ap : Encl) : List Quadrant :=
  (List.range' (quadrantIndex ap.lo + 1) (quadrantIndex ap.hi - quadrantIndex ap.lo)).map quadrantAt

/-- `Colour(ap, am)` of R192 where the enclosures decide it: in each quadrant the phase can lie in, the three ceilings
are decided and the same. -/
def colour? (c : Config) (am ap : Encl) : Option Rgb :=
  (colourIn? c am ap (quadrantAt (quadrantIndex ap.lo))).filter fun color =>
    (otherQuadrants ap).all fun q => colourIn? c am ap q == some color

/-- `Colour(Band)` of R185 and R192: its bytes where the enclosures decide them, and else held by the band itself. -/
def ledColour (c : Config) (ms : List Mag) (ps : List Phase) : LedColor :=
  ((colour? c (bandAverages c ms ps).1 (bandAverages c ms ps).2).map LedColor.rgb).getD (.band ms ps)

end Sys2Proof.Machine
end

