-- ==== Sys2Proof/Machine/Pipeline.lean ====
section
/-! DEFINITION. The pipeline task's stimuli (spec/41_spectrum_pipeline.md): PIPE_BEGIN, PIPE_SAMPLE, PIPE_ANALYZE,
PIPE_LED. -/

namespace Sys2Proof.Machine

/-- PIPE_BEGIN (R171): the one step that reads the mode (R89). -/
def execPipeBegin (s : State) : Result :=
  guarded (s.pipePhase == .idle) <|
    match effMode s with
    | .spectrum => .next (setSeq .sampling 0 { s with pipeMode := some .spectrum })
    | .constant => .next (setSeq .render 0 { s with pipeMode := some .constant })
    | .off => .next s

/-- The sequencer after sample i (R173). -/
def afterSample (n i : Nat) (s : State) : State :=
  if i + 1 = n then setSeq .analyze 0 s else setSeq .sampling (i + 1) s

/-- PIPE_SAMPLE (R173). A write outside `x` is refused like a failed guard (notes/assumptions/12.md). -/
def execPipeSample (v : BitVec 16) (s : State) : Result :=
  operandOk (decide (v.toNat ≤ s.cfg.adcMax)) <|
    guarded (s.pipePhase == .sampling) <|
      match writeElem s.x s.pipeIdx v.toNat with
      | none => .refused .guardFailed
      | some x => .next (afterSample s.cfg.n s.pipeIdx { s with x := x })

/-- The arrays after the transform: `re`, `im`, `mag`, `ph` written, `x` emptied (R176, R76). -/
def storeSpectrum (p : Spectrum) (s : State) : State :=
  { s with re := filled p.re, im := filled p.im, mag := filled p.mag, ph := filled p.ph, x := emptied s.cfg.n }

/-- PIPE_ANALYZE (R176). -/
def execPipeAnalyze (s : State) : Result :=
  guarded (s.pipePhase == .analyze) <|
    match readRange s.x 0 s.cfg.n with
    | none => .refused .unwrittenRead
    | some xs => .next (setSeq .render 0 (storeSpectrum (analyze s.cfg xs) s))

/-- The sequencer after light unit n (R210). -/
def afterLed (numLeds n : Nat) (s : State) : State :=
  if n + 1 = numLeds then setSeq .idle 0 s else setSeq .render (n + 1) s

/-- The end of R210's pseudocode: the write behind its gate (R212), the yield (R207), the sequencer. -/
def renderUnit (color : LedColor) (slow : Bool) (s : State) : State :=
  afterLed s.cfg.numLeds s.pipeIdx (emitIf slow .yieldSleep (emitIf s.ledDrvEn (.ledWrite s.pipeIdx color) s))

/-- The magnitudes and phases of the band of the light unit `pipe_idx` (R184, R185); `none` where an element of it holds
no value. -/
def bandOf (s : State) : Option (List Mag × List Phase) :=
  match readRange s.mag (s.pipeIdx * s.cfg.binsPerLed) s.cfg.binsPerLed,
      readRange s.ph (s.pipeIdx * s.cfg.binsPerLed) s.cfg.binsPerLed with
  | some ms, some ps => some (ms, ps)
  | none, _ => none
  | some _, none => none

/-- PIPE_LED in a SPECTRUM iteration (R210). -/
def renderSpectrum (slow : Bool) (s : State) : Result :=
  match bandOf s with
  | none => .refused .unwrittenRead
  | some band => .next (renderUnit (ledColour s.cfg band.1 band.2) slow s)

/-- PIPE_LED in a CONSTANT iteration (R210, R211); refused where no colour was ever set. -/
def renderConstant (slow : Bool) (s : State) : Result :=
  match s.constValid, s.constColor with
  | true, some color => .next (renderUnit (.rgb color) slow s)
  | true, none => .refused .unwrittenRead
  | false, _ => .refused .unwrittenRead

/-- PIPE_LED (R210). -/
def execPipeLed (slow : Bool) (s : State) : Result :=
  guarded (s.pipePhase == .render) <|
    match s.pipeMode with
    | some .spectrum => renderSpectrum slow s
    | some .constant => renderConstant slow s
    | none => .refused .unwrittenRead

end Sys2Proof.Machine
end

