-- ==== Sys2Proof/Machine/Dispatch.lean ====
section
/-! DEFINITION. What a stimulus does: one arm per constructor, one direct call of its meaning (spec/00_scope.md R16). -/

namespace Sys2Proof.Machine

def exec (i : Instr) (s : State) : Host.Outcome State Fault Refusal :=
  match i with
  | .setMode m => Sys2Proof.Machine.execSetMode m s
  | .getMode => Sys2Proof.Machine.execGetMode s
  | .setConstantColor r g b => Sys2Proof.Machine.execSetConstantColor r g b s
  | .alarmSounding => Sys2Proof.Machine.execAlarmSounding s
  | .beginTestTone p => Sys2Proof.Machine.execBeginTestTone p s
  | .endTestTone => Sys2Proof.Machine.execEndTestTone s
  | .onRotateCw h => Sys2Proof.Machine.execOnRotateCw h s
  | .onRotateCcw h => Sys2Proof.Machine.execOnRotateCcw h s
  | .onPress u h => Sys2Proof.Machine.execOnPress u h s
  | .alarmSet a => Sys2Proof.Machine.execAlarmSet a s
  | .encEdge clk dir => Sys2Proof.Machine.execEncEdge clk dir s
  | .btnEdge u level => Sys2Proof.Machine.execBtnEdge u level s
  | .btnTick u level => Sys2Proof.Machine.execBtnTick u level s
  | .patTick => Sys2Proof.Machine.execPatTick s
  | .freqTick => Sys2Proof.Machine.execFreqTick s
  | .pipeBegin => Sys2Proof.Machine.execPipeBegin s
  | .pipeSample v => Sys2Proof.Machine.execPipeSample v s
  | .pipeAnalyze => Sys2Proof.Machine.execPipeAnalyze s
  | .pipeLed slow => Sys2Proof.Machine.execPipeLed slow s

end Sys2Proof.Machine
end

