-- ==== Sys2Proof/Machine/Step.lean ====
section
/-! DEFINITION. One step: the next stimulus of the trace is decoded and applied whole (spec/20_memory.md R81, R83). -/

namespace Sys2Proof.Machine

/-- One step (R16). -/
def step (s : State) : Host.Outcome State Fault Refusal :=
  match nextStimulus s with
  | .ok (i, s') => exec i s'
  | .error e => e.outcome

/-- A state whose next stimulus is the table row's word: `nbits` bits of value `w`, the bits above them 0. -/
def State.withFetchWord (s : State) (nbits w : Nat) : State := pushWord (BitVec.ofNat 32 (w % 2 ^ nbits)) s

end Sys2Proof.Machine
end

