-- ==== Sys2Proof/Machine/Denote.lean ====
section
/-! DEFINITION. What the exact numbers denote as mathematical reals, and the rules of spec/41_spectrum_pipeline.md
written over the reals, word for word, with π, cos, sin, √ and the angle of a point (spec/00_scope.md R12, R15). The
machine computes none of this; the statements say that what it computes is this. -/

namespace Sys2Proof

/-- The real number a parameter stands for: the k-th real number, held between its bounds. Every real lies between two
rationals, so this shuts none out. -/
noncomputable def RealParam.val : RealParam → ℝ
  | .rat q => (q : ℝ)
  | .real lo hi k => max (lo : ℝ) (min (Config.realNumber k) (hi : ℝ))

/-- The frequency of bin `k` in hertz, `k × 1/(SAMPLING_PERIOD_S × N)` (R180, informational: no stimulus reads it). -/
noncomputable def Config.binFrequency (c : Config) (k : Nat) : ℝ := k * (1 / (c.samplingPeriod.val * c.n))

end Sys2Proof

namespace Sys2Proof.Machine

/-- γ l: γ 0 = 0, γ (l+1) = √(2 + γ l). -/
noncomputable def gammaReal : Nat → ℝ
  | 0 => 0
  | l + 1 => √(2 + gammaReal l)

/-- The real number an `Alg` denotes at a level. -/
noncomputable def Alg.val : Nat → Alg → ℝ
  | _, .rat q => (q : ℝ)
  | 0, .ext a _ => Alg.val 0 a
  | l + 1, .ext a b => Alg.val l a + Alg.val l b * gammaReal (l + 1)

/-- The real number a magnitude denotes. -/
noncomputable def Mag.val (l : Nat) : Mag → ℝ
  | .exact y => Alg.val l y
  | .root r => √(Alg.val l r)

/-- `atan2(y, x)` of spec/00_scope.md R15: the angle in (-π, π] of (x, y), and at (0, 0) the parameter `ATAN2_ZERO`
(R12, R178). -/
noncomputable def atan2 (c : Config) (y x : ℝ) : ℝ :=
  open Classical in
  if x = 0 ∧ y = 0 then c.atan2Zero.val * Real.pi else Complex.arg ⟨x, y⟩

/-- The real number, in radians, a phase denotes. -/
noncomputable def Phase.val (l : Nat) : Phase → ℝ
  | .piMul q => (q : ℝ) * Real.pi
  | .param p => p.val * Real.pi
  | .dir re im => Complex.arg ⟨Alg.val l re, Alg.val l im⟩

/-- An enclosure holds a real number. -/
def Encl.holds (e : Encl) (x : ℝ) : Prop := (e.lo : ℝ) ≤ x ∧ x ≤ (e.hi : ℝ)

/-- The nth sample as a real; 0 outside the block. -/
def sampleAt (xs : List Nat) (n : Nat) : ℝ := (xs.getD n 0 : ℝ)

/-- `re[k]` of R175 over the reals. -/
noncomputable def dftReal (n : Nat) (xs : List Nat) (k : Nat) : ℝ :=
  ∑ i ∈ Finset.range n, sampleAt xs i * Real.cos (2 * Real.pi * k * i / n)

/-- `im[k]` of R175 over the reals. -/
noncomputable def dftImag (n : Nat) (xs : List Nat) (k : Nat) : ℝ :=
  -∑ i ∈ Finset.range n, sampleAt xs i * Real.sin (2 * Real.pi * k * i / n)

/-- `clamp(v, lo, hi)` of spec/00_scope.md R15. -/
noncomputable def clampReal (v lo hi : ℝ) : ℝ := max lo (min v hi)

/-- `am` of R185 and R186 from the band's magnitudes. -/
noncomputable def avgMagnitude (c : Config) (ms : List ℝ) : ℝ := ms.sum / (c.binsPerLed * 255)

/-- `ap` of R185 and R187 from the band's phases. -/
noncomputable def avgPhase (c : Config) (ps : List ℝ) : ℝ :=
  clampReal (ps.sum / (c.binsPerLed * c.phaseScale.val)) (-Real.pi) Real.pi

/-- The adjusted base triple of R192: the ramp of the phase's quadrant (R189, R191) on its one channel. -/
noncomputable def adjusted (c : Config) (ap : ℝ) : ℝ × ℝ × ℝ :=
  open Classical in
  if -Real.pi / 2 ≤ ap ∧ ap < 0 then (c.baseColor.r.val, c.baseColor.g.val, c.baseColor.b.val * (1 + 2 / Real.pi * ap))
  else if -Real.pi ≤ ap ∧ ap < -Real.pi / 2 then
    (c.redSpan.val * (-(2 / Real.pi) * ap - 1), c.baseColor.g.val, c.baseColor.b.val)
  else if 0 ≤ ap ∧ ap < Real.pi / 2 then
    (c.baseColor.r.val, c.baseColor.g.val * (1 - 2 / Real.pi * ap), c.baseColor.b.val)
  else (c.redSpan.val * (2 / Real.pi * ap - 1), c.baseColor.g.val, c.baseColor.b.val)

/-- `clamp(ceil(v), 0, 255)` of R192 over the reals, as a natural. -/
noncomputable def channelReal (v : ℝ) : Nat := (max 0 (min ⌈v⌉ 255)).toNat

/-- `Colour(ap, am)` of R192 over the reals: red, green, blue. -/
noncomputable def colourReal (c : Config) (ap am : ℝ) : Nat × Nat × Nat :=
  (channelReal ((adjusted c ap).1 * min am 255), channelReal ((adjusted c ap).2.1 * min am 255),
   channelReal ((adjusted c ap).2.2 * min am 255))

/-- The three channels of a colour as naturals. -/
def Rgb.toNats (color : Rgb) : Nat × Nat × Nat := (color.r.toNat, color.g.toNat, color.b.toNat)

/-- The triple of integers a light-unit write holds (spec/00_scope.md R17): its bytes, or `Colour(Band)` of its band over
the reals (R185, R192). -/
noncomputable def LedColor.val (c : Config) : LedColor → Nat × Nat × Nat
  | .rgb color => color.toNats
  | .band ms ps =>
    colourReal c (avgPhase c (ps.map (Phase.val (levelOf c.n)))) (avgMagnitude c (ms.map (Mag.val (levelOf c.n))))

end Sys2Proof.Machine
end

