-- ==== Sys2Proof/Machine/Trace.lean ====
section
/-! DEFINITION. Trace lines (spec/30_encoding.md R111) as a mnemonic with named values, assembled by the tables of R102
and R104 written as data; the pseudo-stimuli of R112; and a run of stimuli. No stimulus reads any of this: it is the
spec's notation, and the claims about sequences of stimuli are stated with it. -/

namespace Sys2Proof.Machine

/-- One field of a format (R102): its name, its lowest bit in the word, its width. -/
structure FieldSpec where
  name : String
  lo : Nat
  width : Nat
  deriving DecidableEq, Repr, Inhabited

/-- One row of R104: mnemonic, opcode, and the fields of its format. -/
structure FormatRow where
  mnemonic : String
  opcode : Nat
  fields : List FieldSpec
  deriving DecidableEq, Repr, Inhabited

/-- R104 with the formats of R102. -/
def formatRows : List FormatRow :=
  [⟨"SET_MODE", 0x01, [⟨"m", 0, 2⟩]⟩,
   ⟨"GET_MODE", 0x02, []⟩,
   ⟨"SET_CONSTANT_COLOR", 0x03, [⟨"r", 16, 8⟩, ⟨"g", 8, 8⟩, ⟨"b", 0, 8⟩]⟩,
   ⟨"ALARM_SOUNDING", 0x04, []⟩,
   ⟨"BEGIN_TEST_TONE", 0x05, [⟨"p", 0, 8⟩]⟩,
   ⟨"END_TEST_TONE", 0x06, []⟩,
   ⟨"ON_ROTATE_CW", 0x07, [⟨"h", 0, 16⟩]⟩,
   ⟨"ON_ROTATE_CCW", 0x08, [⟨"h", 0, 16⟩]⟩,
   ⟨"ON_PRESS", 0x09, [⟨"u", 20, 4⟩, ⟨"h", 0, 16⟩]⟩,
   ⟨"ALARM_SET", 0x0A, [⟨"s", 0, 3⟩]⟩,
   ⟨"ENC_EDGE", 0x10, [⟨"dir", 1, 1⟩, ⟨"clk", 0, 1⟩]⟩,
   ⟨"BTN_EDGE", 0x11, [⟨"u", 20, 4⟩, ⟨"level", 0, 1⟩]⟩,
   ⟨"BTN_TICK", 0x12, [⟨"u", 20, 4⟩, ⟨"level", 0, 1⟩]⟩,
   ⟨"PAT_TICK", 0x20, []⟩,
   ⟨"FREQ_TICK", 0x21, []⟩,
   ⟨"PIPE_BEGIN", 0x30, []⟩,
   ⟨"PIPE_SAMPLE", 0x31, [⟨"v", 0, 16⟩]⟩,
   ⟨"PIPE_ANALYZE", 0x32, []⟩,
   ⟨"PIPE_LED", 0x33, [⟨"slow", 0, 1⟩]⟩]

/-- A value in a trace line: a number, or the name of an enumeration's value (R111). -/
inductive LineValue where
  | num (v : Nat)
  | name (v : String)
  deriving DecidableEq, Repr, Inhabited

/-- A trace line: a mnemonic and its `name=value` pairs (R111). -/
structure TraceLine where
  mnemonic : String
  fields : List (String × LineValue)
  deriving DecidableEq, Repr, Inhabited

/-- The names of the values of the enumerated fields `m` and `s` (R103). -/
def enumCode (field value : String) : Option Nat :=
  match field, value with
  | "m", "OFF" => some 0
  | "m", "CONSTANT" => some 1
  | "m", "SPECTRUM" => some 2
  | "s", "OFF" => some 0
  | "s", "ARMED" => some 1
  | "s", "SOUNDING" => some 2
  | "s", "SNOOZED" => some 3
  | "s", "TEST" => some 4
  | _, _ => none

/-- The number a field of a line stands for. -/
def lineValue (field : String) : LineValue → Option Nat
  | .num v => some v
  | .name v => enumCode field v

/-- The fields of a line put into their places; `none` where one is absent or does not fit its width. -/
def placeFields (given : List (String × LineValue)) : List FieldSpec → Option Nat
  | [] => some 0
  | f :: rest =>
    match (given.lookup f.name).bind (lineValue f.name), placeFields given rest with
    | some v, some w => if v < 2 ^ f.width then some (v * 2 ^ f.lo + w) else none
    | some _, none => none
    | none, _ => none

/-- The word of a trace line (R111): its row's opcode and its fields, each given once; the fields are found by name. -/
def assemble (line : TraceLine) : Option Word :=
  match formatRows.find? (fun row => row.mnemonic == line.mnemonic) with
  | none => none
  | some row =>
    if line.fields.length = row.fields.length then
      (placeFields line.fields row.fields).map fun w => BitVec.ofNat 32 (row.opcode * 2 ^ 24 + w)
    else none

/-- Apply stimuli one after the other, stopping at the first that is refused. -/
def runInstrs : List Instr → State → Result
  | [], s => .next s
  | i :: rest, s =>
    match exec i s with
    | .next s' => runInstrs rest s'
    | .fault f => .fault f
    | .refused r => .refused r

/-- ROT_CW (R112): one clockwise detent for the default table. -/
def rotCw (pullDown : Bool) : List Instr :=
  if pullDown then [.encEdge true false, .encEdge true true, .encEdge false true, .encEdge false false]
  else [.encEdge false true, .encEdge false false, .encEdge true false, .encEdge true true]

/-- ROT_CCW (R112): one counter-clockwise detent for the default table. -/
def rotCcw (pullDown : Bool) : List Instr :=
  if pullDown then [.encEdge false true, .encEdge true true, .encEdge true false, .encEdge false false]
  else [.encEdge true false, .encEdge false false, .encEdge false true, .encEdge true true]

/-- An edge to `level` and as many ticks that read it as accept it. -/
def debounced (c : Config) (u : BitVec 4) (level : Bool) : List Instr :=
  .btnEdge u level :: List.replicate c.btnThreshold (.btnTick u level)

/-- PRESS u (R112). -/
def press (c : Config) (u : BitVec 4) : List Instr := debounced c u (!c.btnPullUp.getD u.toNat false)

/-- RELEASE u (R112). -/
def release (c : Config) (u : BitVec 4) : List Instr := debounced c u (c.btnPullUp.getD u.toNat false)

/-- SAMPLE_BLOCK (R112). -/
def sampleBlock (vs : List (BitVec 16)) : List Instr := vs.map .pipeSample

/-- RENDER_ALL (R112). -/
def renderAll (c : Config) : List Instr := List.replicate c.numLeds (.pipeLed false)

/-- PIPE_ITER (R112). -/
def pipeIter (c : Config) (vs : List (BitVec 16)) : List Instr :=
  [.pipeBegin] ++ sampleBlock vs ++ [.pipeAnalyze] ++ renderAll c

end Sys2Proof.Machine
end

