-- ==== Sys2Proof/Safety.lean ====
section
/-! DEFINITION. What counts as a sane state: the invariants of spec/10_state.md R51, the ranges and shapes that the state
rules give each element, the guards of spec/30_encoding.md R113, the mutual exclusion of spec/43_alarm_tone.md R260, and
the states that construction and steps can reach. -/

namespace Sys2Proof.Machine

/-- R51 (a) to (g). -/
structure Invariants (s : State) : Prop where
  /-- (a) -/
  driver : s.ledDrvEn = true ↔ effMode s ≠ .off
  /-- (b), the interrupt enable -/
  irq : ∀ b ∈ s.buttons, b.irqEn = true ↔ (b.state = .holdUp ∨ b.state = .holdDown)
  /-- (b), the timer -/
  timer : ∀ b ∈ s.buttons, b.timerRun = true ↔ (b.state = .falling ∨ b.state = .rising)
  /-- (c) -/
  tone : s.patTimerRun = s.sounding ∧ s.pwmEn = s.sounding ∧ s.radioHiz = s.sounding
  /-- (d), first half -/
  freqRuns : s.freqTimerRun = true → s.alarmState = .sounding ∧ s.toneFreq ≠ none
  /-- (d), second half -/
  freqStopped : s.freqTimerRun = false → s.pwmDuty = Config.dutyLow ∧ s.tonePhase = false
  /-- (e) -/
  test : s.testActive = true → s.alarmState = .sounding
  /-- (f) -/
  encoder : s.encState ≠ .reserved
  /-- (g), first half -/
  sampled : s.pipePhase = .analyze → ∀ i < s.cfg.n, (readElem s.x i).isSome = true
  /-- (g), second half -/
  analyzed : s.pipePhase = .render → s.pipeMode = some .spectrum →
    ∀ k < s.cfg.n, (readElem s.mag k).isSome = true ∧ (readElem s.ph k).isSome = true

/-- The range of `pipe_idx` in a phase (R41). -/
def seqInRange (c : Config) (phase : PipePhase) (idx : Nat) : Prop :=
  match phase with
  | .idle => idx = 0
  | .sampling => idx < c.n
  | .analyze => idx = 0
  | .render => idx < c.numLeds

/-- The ranges and shapes of the state rules, and what R51's invariants rest on. -/
structure Shape (s : State) : Prop where
  /-- the configuration is valid (R13, R280) -/
  config : configProblem s.cfg = none
  /-- five arrays of exactly `N` elements (R70, R338) -/
  arrays : s.x.length = s.cfg.n ∧ s.re.length = s.cfg.n ∧ s.im.length = s.cfg.n ∧ s.mag.length = s.cfg.n
    ∧ s.ph.length = s.cfg.n
  /-- one state per button (R36) -/
  buttonCount : s.buttons.length = s.cfg.numButtons
  /-- R147 (a), and so R37 -/
  counts : ∀ b ∈ s.buttons, b.count < s.cfg.btnThreshold
  /-- R26 -/
  pattern : ∃ p, s.cfg.patterns[s.patSel]? = some p ∧ s.patPos < p.length
  /-- R29: the tone frequency is positive -/
  frequency : ∀ hz, s.toneFreq = some hz → 0 < hz
  /-- R32 -/
  duty : s.pwmDuty = s.cfg.dutyHigh ∨ s.pwmDuty = Config.dutyLow
  /-- R41 -/
  sequencer : seqInRange s.cfg s.pipePhase s.pipeIdx
  /-- R42: outside IDLE the iteration has a mode -/
  latched : s.pipePhase ≠ .idle → s.pipeMode.isSome = true
  /-- R43: samples are in [0, ADC_MAX] -/
  samples : ∀ i v, readElem s.x i = some v → v ≤ s.cfg.adcMax
  /-- R77: while sampling, the elements below the index hold values -/
  sampledSoFar : s.pipePhase = .sampling → ∀ i < s.pipeIdx, (readElem s.x i).isSome = true
  /-- R22 -/
  colour : s.constValid = s.constColor.isSome
  /-- R248: the state a test tone puts back is not SOUNDING -/
  saved : s.testActive = true → s.alarmSaved ≠ .sounding

/-- A sane state. -/
structure Sane (s : State) : Prop where
  invariants : Invariants s
  shape : Shape s

/-- Button u's state, where there is one. -/
def buttonAt (s : State) (u : BitVec 4) : Option Button := s.buttons[u.toNat]?

/-- The guard of R113, one row a stimulus. -/
def guardHolds (i : Instr) (s : State) : Bool :=
  match i with
  | .beginTestTone _ => !s.sounding
  | .btnEdge u _ => (buttonAt s u).any Button.irqEn
  | .btnTick u _ => (buttonAt s u).any Button.timerRun
  | .patTick => s.patTimerRun
  | .freqTick => s.freqTimerRun
  | .pipeBegin => s.pipePhase == .idle
  | .pipeSample _ => s.pipePhase == .sampling
  | .pipeAnalyze => s.pipePhase == .analyze
  | .pipeLed _ => s.pipePhase == .render && (s.pipeMode != some .constant || s.constValid)
  | .setMode _ => true
  | .getMode => true
  | .setConstantColor _ _ _ => true
  | .alarmSounding => true
  | .endTestTone => true
  | .onRotateCw _ => true
  | .onRotateCcw _ => true
  | .onPress _ _ => true
  | .alarmSet _ => true
  | .encEdge _ _ => true

/-- A write to the light strip. -/
def Event.isLedWrite : Event → Bool
  | .ledWrite _ _ => true
  | .fireCw _ => false
  | .fireCcw _ => false
  | .firePress _ _ => false
  | .yieldSleep => false
  | .ret _ => false

/-- R260 (a) to (d): what the mutual exclusion protocol guarantees of a state. -/
structure Exclusion (s : State) : Prop where
  /-- (a) -/
  dark : s.alarmState = .sounding → s.ledDrvEn = false
  /-- (b) -/
  radio : s.pwmEn = true → s.radioHiz = true
  /-- (c) -/
  lights : s.pwmEn = true → s.ledDrvEn = false
  /-- (d) -/
  silent : s.alarmState ≠ .sounding →
    s.pwmEn = false ∧ s.radioHiz = false ∧ s.patTimerRun = false ∧ s.freqTimerRun = false

/-- The states that construction from a configuration and then steps can reach, whatever trace is given
(spec/70_reset_and_hazards.md R320, R324). -/
inductive Reachable (c : Config) : State → Prop where
  | start (s : State) (trace : List Word) : construct c = .next s → Reachable c { s with input := trace }
  | step (s t : State) : Reachable c s → Sys2Proof.Machine.step s = .next t → Reachable c t

/-- The elements that only the mode controller, the alarm and the tone write (R21 to R33). -/
structure ControlPart where
  modeSel : Mode
  constValid : Bool
  constColor : Option Rgb
  ledDrvEn : Bool
  deriving DecidableEq, Repr

/-- `mode_sel`, `const_valid`, `const_color`, `led_drv_en`. -/
def controlPart (s : State) : ControlPart := ⟨s.modeSel, s.constValid, s.constColor, s.ledDrvEn⟩

/-- The alarm and tone state (R24 to R33). -/
structure TonePart where
  alarmState : AlarmState
  alarmSaved : AlarmState
  testActive : Bool
  patSel : Nat
  patPos : Nat
  patTimerRun : Bool
  freqTimerRun : Bool
  toneFreq : Option Nat
  tonePhase : Bool
  pwmEn : Bool
  pwmDuty : Nat
  radioHiz : Bool
  deriving DecidableEq, Repr

def tonePart (s : State) : TonePart :=
  ⟨s.alarmState, s.alarmSaved, s.testActive, s.patSel, s.patPos, s.patTimerRun, s.freqTimerRun, s.toneFreq,
   s.tonePhase, s.pwmEn, s.pwmDuty, s.radioHiz⟩

/-- The edge decoder's state (R34 to R40). -/
structure EdgePart where
  encState : EncState
  cbCw : Option Handle
  cbCcw : Option Handle
  buttons : List Button
  deriving DecidableEq, Repr

def edgePart (s : State) : EdgePart := ⟨s.encState, s.cbCw, s.cbCcw, s.buttons⟩

/-- The pipeline's state (R41 to R45). -/
structure PipelinePart where
  pipePhase : PipePhase
  pipeIdx : Nat
  pipeMode : Option IterMode
  x : List (Option Nat)
  re : List (Option Alg)
  im : List (Option Alg)
  mag : List (Option Mag)
  ph : List (Option Phase)
  deriving DecidableEq, Repr

def pipelinePart (s : State) : PipelinePart :=
  ⟨s.pipePhase, s.pipeIdx, s.pipeMode, s.x, s.re, s.im, s.mag, s.ph⟩

/-- The model's own fields apart from `outputs`: the configuration and the trace. -/
def ownPart (s : State) : Config × List Word := (s.cfg, s.input)

end Sys2Proof.Machine
end

