-- ==== Sys2Proof/WellFormed.lean ====
section
/-! DEFINITION. Well-formed stimuli: the operands that spec/30_encoding.md R108 reserves by value and that need the
configuration to be told. The two reserved values that need no configuration (`m` = 3, `s` >= 5) cannot be written
down as an `Instr`; the decoder refuses them. -/

namespace Sys2Proof

/-- R108: `u` < NUM_BUTTONS, `p` < the number of patterns, `v` <= ADC_MAX. -/
def Instr.wf (c : Config) : Instr → Bool
  | .onPress u _ => decide (u.toNat < c.numButtons)
  | .btnEdge u _ => decide (u.toNat < c.numButtons)
  | .btnTick u _ => decide (u.toNat < c.numButtons)
  | .beginTestTone p => decide (p.toNat < c.patterns.length)
  | .pipeSample v => decide (v.toNat ≤ c.adcMax)
  | .setMode _ => true
  | .getMode => true
  | .setConstantColor _ _ _ => true
  | .alarmSounding => true
  | .endTestTone => true
  | .onRotateCw _ => true
  | .onRotateCcw _ => true
  | .alarmSet _ => true
  | .encEdge _ _ => true
  | .patTick => true
  | .freqTick => true
  | .pipeBegin => true
  | .pipeAnalyze => true
  | .pipeLed _ => true

end Sys2Proof
end

