-- ==== Sys2Proof/Certificates/Slice0/Obligations.lean ====
section
/-! DEFINITION. The statements about this machine, for the provers. Each is written from the numbered rules its docstring
cites; `s` is any state unless a premise says otherwise, and a state that no step reaches is ruled out only by the
invariant `Sane`, itself stated below. -/

open Sys2Proof Sys2Proof.Machine

/-! ### Words -/

/-- R101 to R106: the decoder reads back every stimulus with every operand at every value its field admits. -/
def Obligations.DecodeEncode : Prop := ∀ i : Instr, decode (encode i) = .ok i

/-- R100 to R106: a word that decodes is the one word of its stimulus; no payload bit is ignored. -/
def Obligations.EncodeDecode : Prop := ∀ (w : Word) (i : Instr), decode w = .ok i → encode i = w

/-- R106, R107: a word spells no stimulus exactly where no row of R104 has its opcode, or a bit outside the row's
fields is one. -/
def Obligations.InvalidWordsAreThoseOutsideTheTable : Prop :=
  ∀ w : Word, decode w = .error .invalidWord ↔
    ¬∃ row ∈ formatRows, w.toNat / 2 ^ 24 = row.opcode ∧
      ∀ b, b < 24 → w.getLsbD b = true → ∃ f ∈ row.fields, f.lo ≤ b ∧ b < f.lo + f.width

/-- R108: a reserved value in an enumerated field is refused by the decoder, and an operand outside the configuration's
bounds by the stimulus, in every state. That this reason wins in the states in which the guard fails too is DEDUCED
(notes/assumptions/11.md). -/
def Obligations.ReservedOperandsAreRefused : Prop :=
  decode 0x01000003 = .error .reservedOperand ∧
    (∀ v : BitVec 3, 5 ≤ v.toNat → decode (0x0A000000 ||| v.setWidth 32) = .error .reservedOperand) ∧
    ∀ (i : Instr) (s : State), i.wf s.cfg = false → exec i s = .refused .reservedOperand

/-- R102, R104, R111: a trace line of each mnemonic with its fields assembles to the stimulus's word; for `m` and `s` the
enumeration's name does too. R111 puts the fields in the order of R102's table, where `dir` stands before `clk`; the lines
of spec/95_test_vectors.md V-W1 have `clk` first. That both lines assemble is DEDUCED (notes/assumptions/24.md). -/
def Obligations.TraceLinesAssembleToWords : Prop :=
  (∀ m : Mode, assemble ⟨"SET_MODE", [("m", .num m.code.toNat)]⟩ = some (encode (.setMode m))) ∧
  assemble ⟨"SET_MODE", [("m", .name "OFF")]⟩ = some (encode (.setMode .off)) ∧
  assemble ⟨"SET_MODE", [("m", .name "CONSTANT")]⟩ = some (encode (.setMode .constant)) ∧
  assemble ⟨"SET_MODE", [("m", .name "SPECTRUM")]⟩ = some (encode (.setMode .spectrum)) ∧
  assemble ⟨"GET_MODE", []⟩ = some (encode .getMode) ∧
  (∀ r g b : Byte, assemble ⟨"SET_CONSTANT_COLOR", [("r", .num r.toNat), ("g", .num g.toNat), ("b", .num b.toNat)]⟩
    = some (encode (.setConstantColor r g b))) ∧
  assemble ⟨"ALARM_SOUNDING", []⟩ = some (encode .alarmSounding) ∧
  (∀ p : Byte, assemble ⟨"BEGIN_TEST_TONE", [("p", .num p.toNat)]⟩ = some (encode (.beginTestTone p))) ∧
  assemble ⟨"END_TEST_TONE", []⟩ = some (encode .endTestTone) ∧
  (∀ h : Handle, assemble ⟨"ON_ROTATE_CW", [("h", .num h.toNat)]⟩ = some (encode (.onRotateCw h))) ∧
  (∀ h : Handle, assemble ⟨"ON_ROTATE_CCW", [("h", .num h.toNat)]⟩ = some (encode (.onRotateCcw h))) ∧
  (∀ (u : BitVec 4) (h : Handle), assemble ⟨"ON_PRESS", [("u", .num u.toNat), ("h", .num h.toNat)]⟩
    = some (encode (.onPress u h))) ∧
  (∀ a : AlarmState, assemble ⟨"ALARM_SET", [("s", .num a.code.toNat)]⟩ = some (encode (.alarmSet a))) ∧
  assemble ⟨"ALARM_SET", [("s", .name "OFF")]⟩ = some (encode (.alarmSet .off)) ∧
  assemble ⟨"ALARM_SET", [("s", .name "ARMED")]⟩ = some (encode (.alarmSet .armed)) ∧
  assemble ⟨"ALARM_SET", [("s", .name "SOUNDING")]⟩ = some (encode (.alarmSet .sounding)) ∧
  assemble ⟨"ALARM_SET", [("s", .name "SNOOZED")]⟩ = some (encode (.alarmSet .snoozed)) ∧
  assemble ⟨"ALARM_SET", [("s", .name "TEST")]⟩ = some (encode (.alarmSet .test)) ∧
  (∀ clk dir : Bool, assemble ⟨"ENC_EDGE", [("dir", .num dir.toNat), ("clk", .num clk.toNat)]⟩
    = some (encode (.encEdge clk dir))) ∧
  (∀ clk dir : Bool, assemble ⟨"ENC_EDGE", [("clk", .num clk.toNat), ("dir", .num dir.toNat)]⟩
    = some (encode (.encEdge clk dir))) ∧
  (∀ (u : BitVec 4) (level : Bool), assemble ⟨"BTN_EDGE", [("u", .num u.toNat), ("level", .num level.toNat)]⟩
    = some (encode (.btnEdge u level))) ∧
  (∀ (u : BitVec 4) (level : Bool), assemble ⟨"BTN_TICK", [("u", .num u.toNat), ("level", .num level.toNat)]⟩
    = some (encode (.btnTick u level))) ∧
  assemble ⟨"PAT_TICK", []⟩ = some (encode .patTick) ∧
  assemble ⟨"FREQ_TICK", []⟩ = some (encode .freqTick) ∧
  assemble ⟨"PIPE_BEGIN", []⟩ = some (encode .pipeBegin) ∧
  (∀ v : BitVec 16, assemble ⟨"PIPE_SAMPLE", [("v", .num v.toNat)]⟩ = some (encode (.pipeSample v))) ∧
  assemble ⟨"PIPE_ANALYZE", []⟩ = some (encode .pipeAnalyze) ∧
  ∀ slow : Bool, assemble ⟨"PIPE_LED", [("slow", .num slow.toNat)]⟩ = some (encode (.pipeLed slow))

/-- Words of spec/95_test_vectors.md V-W1 and V-W3, one or two of each family. -/
def Obligations.SampleWordsDecode : Prop :=
  decode 0x01000002 = .ok (.setMode .spectrum) ∧
  decode 0x03FF8000 = .ok (.setConstantColor 0xFF 0x80 0x00) ∧
  decode 0x05000001 = .ok (.beginTestTone 1) ∧
  decode 0x0A000003 = .ok (.alarmSet .snoozed) ∧
  decode 0x0930FFFF = .ok (.onPress 3 0xFFFF) ∧
  decode 0x10000002 = .ok (.encEdge false true) ∧
  decode 0x11200001 = .ok (.btnEdge 2 true) ∧
  decode 0x20000000 = .ok .patTick ∧
  decode 0x310001FE = .ok (.pipeSample 510) ∧
  decode 0x33000001 = .ok (.pipeLed true)

/-! ### Construction and steps -/

/-- R280: the construction check, in its order, with the numbers of the two errors. -/
def Obligations.ConstructionErrors : Prop :=
  ConfigError.nNotPowerOfTwo.code = 1 ∧ ConfigError.ledsNotDividingN.code = 2 ∧
  ∀ c : Config,
    ((¬∃ p, c.n = 2 ^ p) → construct c = .fault (.configError .nNotPowerOfTwo)) ∧
    ((∃ p, c.n = 2 ^ p) → (c.numLeds = 0 ∨ c.n % c.numLeds ≠ 0) →
      construct c = .fault (.configError .ledsNotDividingN)) ∧
    ((∃ p, c.n = 2 ^ p) → c.numLeds ≠ 0 → c.n % c.numLeds = 0 →
      construct c = .refused .badConfig ∨ construct c = .next (resetState c))

/-- R7 to R10, R13, R134: a configuration is accepted exactly where it meets the constraints of the parameter tables. The
model's own here: a real parameter stands for a number between its bounds and is accepted where both meet the constraint
(notes/assumptions/4.md); the range of `ATAN2_ZERO` (notes/assumptions/5.md); that the type words 'positive real' and
'positive integer' are constraints (notes/assumptions/19.md); of R134 the reading of (d) (notes/assumptions/15.md), and
that the four pairs need not be distinct (notes/assumptions/27.md). -/
def Obligations.AcceptedConfigurations : Prop :=
  (∀ p : RealParam, (p.lo : ℝ) ≤ p.val ∧ p.val ≤ p.hi) ∧
  ∀ c : Config, construct c = .next (resetState c) ↔
    (∃ p, c.n = 2 ^ p) ∧ c.numLeds ∣ c.n ∧ 1 ≤ c.numLeds ∧ c.adcMax ≤ 65535 ∧
    0 < c.samplingPeriod.lo ∧ 0 < c.pwmCarrierHz.lo ∧ 0 < c.phaseScale.lo ∧
    (0 ≤ c.baseColor.r.lo ∧ c.baseColor.r.hi ≤ 255) ∧ (0 ≤ c.baseColor.g.lo ∧ c.baseColor.g.hi ≤ 255) ∧
    (0 ≤ c.baseColor.b.lo ∧ c.baseColor.b.hi ≤ 255) ∧ (0 ≤ c.redSpan.lo ∧ c.redSpan.hi ≤ 255) ∧
    (∀ e ∈ c.qtable, e.state ≠ .reserved ∧ e.next ≠ .reserved) ∧
    (∃ q1 q2 q3 : Fin 4,
      (∀ pair ∈ [((3 : Fin 4), q1), (q1, q2), (q2, q3), (q3, 3)], pair.1 ^^^ pair.2 = 1 ∨ pair.1 ^^^ pair.2 = 2) ∧
      (qLookup c.qtable .start q1 = some .cw1 ∧ qLookup c.qtable .cw1 q2 = some .cw2 ∧
        qLookup c.qtable .cw2 q3 = some .cw3 ∧ qLookup c.qtable .cw3 3 = some .start) ∧
      (qLookup c.qtable .start q3 = some .ccw1 ∧ qLookup c.qtable .ccw1 q2 = some .ccw2 ∧
        qLookup c.qtable .ccw2 q1 = some .ccw3 ∧ qLookup c.qtable .ccw3 3 = some .start) ∧
      (qLookup c.qtable .start q2 = none ∧ qLookup c.qtable .cw1 q3 = none ∧ qLookup c.qtable .cw2 3 = none ∧
        qLookup c.qtable .cw3 q1 = none ∧ qLookup c.qtable .ccw1 q1 = none ∧ qLookup c.qtable .ccw2 3 = none ∧
        qLookup c.qtable .ccw3 q3 = none)) ∧
    (1 ≤ c.numButtons ∧ c.numButtons ≤ 16) ∧ 1 ≤ c.btnThreshold ∧
    c.patterns.length ≤ 256 ∧
    (∀ p ∈ c.patterns, p ≠ [] ∧ ∀ hz, PatEntry.freq hz ∈ p → 1 ≤ hz) ∧ c.alarmPattern < c.patterns.length ∧
    (-1 < c.atan2Zero.lo ∧ c.atan2Zero.hi ≤ 1)

/-- R52, R320: what construction leaves in every element. -/
def Obligations.ResetValues : Prop :=
  ∀ (c : Config) (t : State), construct c = .next t →
    t.modeSel = .off ∧ t.constValid = false ∧ t.constColor = none ∧ t.ledDrvEn = false ∧
    t.alarmState = .off ∧ t.alarmSaved = .off ∧ t.testActive = false ∧ t.patSel = 0 ∧ t.patPos = 0 ∧
    t.patTimerRun = false ∧ t.freqTimerRun = false ∧ t.toneFreq = none ∧ t.tonePhase = false ∧
    t.pwmEn = false ∧ t.pwmDuty = 0 ∧ t.radioHiz = false ∧
    t.encState = .start ∧ t.cbCw = none ∧ t.cbCcw = none ∧
    t.buttons.length = c.numButtons ∧
    (∀ (u : Nat) (p : Bool), c.btnPullUp[u]? = some p →
      t.buttons[u]? = some ⟨if p then .holdUp else .holdDown, 0, true, false, none⟩) ∧
    t.pipePhase = .idle ∧ t.pipeIdx = 0 ∧ t.pipeMode = none ∧
    t.x = List.replicate c.n none ∧ t.re = List.replicate c.n none ∧ t.im = List.replicate c.n none ∧
    t.mag = List.replicate c.n none ∧ t.ph = List.replicate c.n none

/-- R322: in the state that construction creates, the stimuli that can come first. -/
def Obligations.FirstStimuli : Prop :=
  ∀ (c : Config) (s : State), construct c = .next s → ∀ i : Instr, i.wf c = true →
    ((∃ t, exec i s = .next t) ↔
      (StimulusClass.ofOpcode i.opcode = some .host ∨ (∃ clk dir, i = .encEdge clk dir) ∨
        (∃ u level, i = .btnEdge u level) ∨ i = .pipeBegin))

/-- R16, R81, R83: a step applies the decoded stimulus at the head of the trace, whole, and takes its word away. -/
def Obligations.StepRunsDecodedStimulus : Prop :=
  ∀ (s : State) (w : Word) (rest : List Word) (i : Instr), configProblem s.cfg = none → s.input = w :: rest →
    decode w = .ok i → step s = exec i { s with input := rest }

/-- R109, R118: a word that spells no stimulus, or holds a reserved value, stops the run with its reason; so does the
end of the trace (notes/assumptions/2.md), and no stimulus is applied to an invalid configuration. -/
def Obligations.StepStops : Prop :=
  ∀ s : State,
    (configProblem s.cfg = none → s.input = [] → step s = .refused .noStimulus) ∧
    (∀ w rest, configProblem s.cfg = none → s.input = w :: rest → decode w = .error .invalidWord →
      step s = .refused .invalidWord) ∧
    (∀ w rest, configProblem s.cfg = none → s.input = w :: rest → decode w = .error .reservedOperand →
      step s = .refused .reservedOperand) ∧
    (configProblem s.cfg = some .nNotPowerOfTwo → step s = .fault (.configError .nNotPowerOfTwo)) ∧
    (configProblem s.cfg = some .ledsNotDividingN → step s = .fault (.configError .ledsNotDividingN)) ∧
    (configProblem s.cfg = some .badConfig → step s = .refused .badConfig)

/-- R338: the configuration and the array sizes never change. That the trace stands in the state and a step takes exactly
one word from it is the model's choice (notes/assumptions/2.md). -/
def Obligations.StepKeepsSizes : Prop :=
  ∀ s t : State, Sane s → step s = .next t →
    t.cfg = s.cfg ∧ (∃ w, s.input = w :: t.input) ∧ t.buttons.length = s.buttons.length ∧
    t.x.length = s.cfg.n ∧ t.re.length = s.cfg.n ∧ t.im.length = s.cfg.n ∧ t.mag.length = s.cfg.n ∧
    t.ph.length = s.cfg.n

/-- R113: in a sane state a stimulus with legal operands completes exactly where its guard holds. -/
def Obligations.GuardsDecideCompletion : Prop :=
  ∀ (i : Instr) (s : State), Sane s → i.wf s.cfg = true →
    ((∃ t, exec i s = .next t) ↔ guardHolds i s = true)

/-- R113, R118: outside its guard a stimulus is refused as `guard_failed`; only the missing colour of a CONSTANT
iteration is `unwritten_read` (R210, notes/assumptions/16.md). -/
def Obligations.FailedGuardsAreRefused : Prop :=
  ∀ (i : Instr) (s : State), s.buttons.length = s.cfg.numButtons → i.wf s.cfg = true → guardHolds i s = false →
    exec i s = .refused .guardFailed ∨
      ((∃ slow, i = .pipeLed slow) ∧ s.pipePhase = .render ∧ s.pipeMode = some .constant ∧ s.constValid = false ∧
        exec i s = .refused .unwrittenRead)

/-! ### Invariants -/

/-- R51, R52, R321: the state that construction creates is sane, whatever trace it is given. -/
def Obligations.ConstructionIsSane : Prop :=
  ∀ (c : Config) (s : State) (trace : List Word), construct c = .next s → Sane { s with input := trace }

/-- R51 with the ranges of the state rules: every step keeps a sane state sane. -/
def Obligations.StepKeepsSane : Prop := ∀ s t : State, Sane s → step s = .next t → Sane t

/-- R51 (a) to (g), in every reachable state, for every configuration and every trace. -/
def Obligations.ReachableInvariants : Prop := ∀ (c : Config) (s : State), Reachable c s → Invariants s

/-- R260 (a) to (d), in every reachable state: the four implications, no light-strip write while sounding, and no
iteration begun. -/
def Obligations.MutualExclusion : Prop :=
  ∀ (c : Config) (s : State), Reachable c s →
    Exclusion s ∧
    (s.alarmState = .sounding →
      (∀ (i : Instr) (t : State), exec i s = .next t →
        ∃ new, t.outputs = s.outputs ++ new ∧ ∀ e ∈ new, e.isLedWrite = false) ∧
      ∀ t : State, exec .pipeBegin s = .next t → t = s)

/-! ### Mode controller -/

/-- R221, R222, R223: SET_MODE, in every state; while sounding the driver stays off; `m` = 3 is reserved. -/
def Obligations.SetModeEffect : Prop :=
  ∀ (m : Mode) (s : State),
    encode (.setMode m) = place 24 (0x01 : BitVec 8) ||| place 0 m.code ∧
    decode (place 24 (0x01 : BitVec 8) ||| place 0 (3 : BitVec 2)) = .error .reservedOperand ∧
    exec (.setMode m) s = .next { s with
      modeSel := m
      ledDrvEn := decide (s.alarmState ≠ .sounding ∧ m ≠ .off) }

/-- R224: GET_MODE answers the stored selection's code, while sounding too, and changes nothing. -/
def Obligations.GetModeEffect : Prop :=
  ∀ s : State,
    encode .getMode = place 24 (0x02 : BitVec 8) ∧
    exec .getMode s = .next { s with
      outputs := s.outputs ++ [.ret (match s.modeSel with | .off => 0 | .constant => 1 | .spectrum => 2)] }

/-- R225: SET_CONSTANT_COLOR. -/
def Obligations.SetConstantColorEffect : Prop :=
  ∀ (r g b : Byte) (s : State),
    encode (.setConstantColor r g b) = place 24 (0x03 : BitVec 8) ||| (place 16 r ||| place 8 g ||| place 0 b) ∧
    exec (.setConstantColor r g b) s = .next { s with constColor := some ⟨r, g, b⟩, constValid := true }

/-! ### Alarm tone -/

/-- R246: ALARM_SOUNDING. -/
def Obligations.AlarmSoundingEffect : Prop :=
  ∀ s : State,
    encode .alarmSounding = place 24 (0x04 : BitVec 8) ∧
    exec .alarmSounding s = .next { s with
      outputs := s.outputs ++ [.ret (if s.alarmState = .sounding then 1 else 0)] }

/-- R244, R247: BEGIN_TEST_TONE outside SOUNDING, with everything that entering SOUNDING writes; inside it is refused.
That `p` out of range is the reason while sounding too is DEDUCED (notes/assumptions/11.md). -/
def Obligations.BeginTestToneEffect : Prop :=
  ∀ (p : Byte) (s : State),
    encode (.beginTestTone p) = place 24 (0x05 : BitVec 8) ||| place 0 p ∧
    (s.cfg.patterns.length ≤ p.toNat → exec (.beginTestTone p) s = .refused .reservedOperand) ∧
    (p.toNat < s.cfg.patterns.length → s.alarmState = .sounding →
      exec (.beginTestTone p) s = .refused .guardFailed) ∧
    (p.toNat < s.cfg.patterns.length → s.alarmState ≠ .sounding →
      exec (.beginTestTone p) s = .next { s with
        alarmSaved := s.alarmState
        alarmState := .sounding
        testActive := true
        radioHiz := true
        ledDrvEn := false
        patSel := p.toNat
        patPos := 0
        toneFreq := none
        tonePhase := false
        freqTimerRun := false
        pwmDuty := 0
        pwmEn := true
        patTimerRun := true })

/-- R245, R248: END_TEST_TONE puts the saved alarm state back and leaves SOUNDING; with no test tone it changes nothing.
In a state no run reaches, in which the saved state is SOUNDING, the driver stays off. -/
def Obligations.EndTestToneEffect : Prop :=
  ∀ s : State,
    encode .endTestTone = place 24 (0x06 : BitVec 8) ∧
    (s.testActive = false → exec .endTestTone s = .next s) ∧
    (s.testActive = true →
      exec .endTestTone s = .next { s with
        alarmState := s.alarmSaved
        testActive := false
        patTimerRun := false
        freqTimerRun := false
        pwmEn := false
        pwmDuty := 0
        tonePhase := false
        toneFreq := none
        radioHiz := false
        ledDrvEn := decide (s.alarmSaved ≠ .sounding ∧ s.modeSel ≠ .off) })

/-- R244, R245, R249: the four cases of ALARM_SET; `s` >= 5 is reserved. -/
def Obligations.AlarmSetEffect : Prop :=
  ∀ (a : AlarmState) (s : State),
    encode (.alarmSet a) = place 24 (0x0A : BitVec 8) ||| place 0 a.code ∧
    (∀ v : BitVec 3, 5 ≤ v.toNat →
      decode (place 24 (0x0A : BitVec 8) ||| place 0 v) = .error .reservedOperand) ∧
    (s.alarmState ≠ .sounding → a = .sounding →
      exec (.alarmSet a) s = .next { s with
        alarmState := .sounding
        radioHiz := true
        ledDrvEn := false
        patSel := s.cfg.alarmPattern
        patPos := 0
        toneFreq := none
        tonePhase := false
        freqTimerRun := false
        pwmDuty := 0
        pwmEn := true
        patTimerRun := true }) ∧
    (s.alarmState = .sounding → a ≠ .sounding →
      exec (.alarmSet a) s = .next { s with
        alarmState := a
        testActive := false
        patTimerRun := false
        freqTimerRun := false
        pwmEn := false
        pwmDuty := 0
        tonePhase := false
        toneFreq := none
        radioHiz := false
        ledDrvEn := decide (s.modeSel ≠ .off) }) ∧
    (s.alarmState ≠ .sounding → a ≠ .sounding → exec (.alarmSet a) s = .next { s with alarmState := a }) ∧
    (s.alarmState = .sounding → a = .sounding → exec (.alarmSet a) s = .next s)

/-- R250: PAT_TICK applies the entry at `pat_pos` and advances, wrapping; with the ticker stopped it is refused. -/
def Obligations.PatTickEffect : Prop :=
  ∀ s : State,
    encode .patTick = place 24 (0x20 : BitVec 8) ∧
    (s.patTimerRun = false → exec .patTick s = .refused .guardFailed) ∧
    ∀ (pattern : List PatEntry) (e : PatEntry), s.patTimerRun = true → s.cfg.patterns[s.patSel]? = some pattern →
      pattern[s.patPos]? = some e →
      (∀ hz, e = .freq hz → exec .patTick s = .next { s with
        toneFreq := some hz
        freqTimerRun := true
        patPos := (s.patPos + 1) % pattern.length }) ∧
      (e = .hold → exec .patTick s = .next { s with patPos := (s.patPos + 1) % pattern.length }) ∧
      (e = .silence → exec .patTick s = .next { s with
        toneFreq := none
        freqTimerRun := false
        tonePhase := false
        pwmDuty := 0
        patPos := (s.patPos + 1) % pattern.length })

/-- R252: FREQ_TICK toggles the half-period and the duty; with the generator stopped it is refused. -/
def Obligations.FreqTickEffect : Prop :=
  ∀ s : State,
    encode .freqTick = place 24 (0x21 : BitVec 8) ∧
    (s.freqTimerRun = false → exec .freqTick s = .refused .guardFailed) ∧
    (s.freqTimerRun = true → exec .freqTick s = .next { s with
      tonePhase := !s.tonePhase
      pwmDuty := if s.tonePhase then 0 else s.cfg.dutyHigh })

/-- R221, R245, R248: a test tone run and ended restores the alarm state, the driver, the radio output and the tone. -/
def Obligations.TestToneRestores : Prop :=
  ∀ (p : Byte) (s : State), Sane s → s.alarmState ≠ .sounding → p.toNat < s.cfg.patterns.length →
    runInstrs [.beginTestTone p, .endTestTone] s = .next { s with
      alarmSaved := s.alarmState
      patSel := p.toNat
      patPos := 0
      toneFreq := none }

/-! ### Edge decoder -/

/-- R132, R133, R136: ENC_EDGE in every state, the reserved position among them. -/
def Obligations.EncEdgeEffect : Prop :=
  ∀ (clk dir : Bool) (s : State),
    encode (.encEdge clk dir) = place 24 (0x10 : BitVec 8) ||| (placeBit 1 dir ||| placeBit 0 clk) ∧
    ∀ pp : Fin 4,
      pp.val = (if s.cfg.encPullDown then 3 - (clk.toNat + 2 * dir.toNat) else clk.toNat + 2 * dir.toNat) →
      (qLookup s.cfg.qtable s.encState pp = none →
        exec (.encEdge clk dir) s = .next { s with encState := .start }) ∧
      ∀ q, qLookup s.cfg.qtable s.encState pp = some q →
        exec (.encEdge clk dir) s = .next { s with
          encState := q
          outputs := s.outputs ++
            (if s.encState = .cw3 then (s.cbCw.map .fireCw).toList else []) ++
            (if s.encState = .ccw3 then (s.cbCcw.map .fireCcw).toList else []) }

/-- R139, R140: ON_ROTATE_CW and ON_ROTATE_CCW replace one handle each. -/
def Obligations.OnRotateEffect : Prop :=
  ∀ (h : Handle) (s : State),
    encode (.onRotateCw h) = place 24 (0x07 : BitVec 8) ||| place 0 h ∧
    encode (.onRotateCcw h) = place 24 (0x08 : BitVec 8) ||| place 0 h ∧
    exec (.onRotateCw h) s = .next { s with cbCw := some h } ∧
    exec (.onRotateCcw h) s = .next { s with cbCcw := some h }

/-- R148: ON_PRESS writes one button's handle. -/
def Obligations.OnPressEffect : Prop :=
  ∀ (u : BitVec 4) (h : Handle) (s : State),
    encode (.onPress u h) = place 24 (0x09 : BitVec 8) ||| (place 20 u ||| place 0 h) ∧
    (s.cfg.numButtons ≤ u.toNat → exec (.onPress u h) s = .refused .reservedOperand) ∧
    ∀ b, u.toNat < s.cfg.numButtons → s.buttons[u.toNat]? = some b →
      exec (.onPress u h) s = .next { s with buttons := s.buttons.set u.toNat { b with cbPress := some h } }

/-- R142, R145: BTN_EDGE, qualifying or not; refused while the button's interrupt is disabled. -/
def Obligations.BtnEdgeEffect : Prop :=
  ∀ (u : BitVec 4) (level : Bool) (s : State),
    encode (.btnEdge u level) = place 24 (0x11 : BitVec 8) ||| (place 20 u ||| placeBit 0 level) ∧
    (s.cfg.numButtons ≤ u.toNat → exec (.btnEdge u level) s = .refused .reservedOperand) ∧
    ∀ b, u.toNat < s.cfg.numButtons → s.buttons[u.toNat]? = some b →
      (b.irqEn = false → exec (.btnEdge u level) s = .refused .guardFailed) ∧
      (b.irqEn = true → b.state = .holdUp → level = false →
        exec (.btnEdge u level) s = .next { s with
          buttons := s.buttons.set u.toNat { b with irqEn := false, timerRun := true, count := 0, state := .falling } }) ∧
      (b.irqEn = true → b.state = .holdDown → level = true →
        exec (.btnEdge u level) s = .next { s with
          buttons := s.buttons.set u.toNat { b with irqEn := false, timerRun := true, count := 0, state := .rising } }) ∧
      (b.irqEn = true → ¬(b.state = .holdUp ∧ level = false) → ¬(b.state = .holdDown ∧ level = true) →
        exec (.btnEdge u level) s = .next s)

/-- R143, R146: BTN_TICK of a candidate: abort, count on, or accept with the press callback of the active edge. -/
def Obligations.BtnTickEffect : Prop :=
  ∀ (u : BitVec 4) (level : Bool) (s : State),
    encode (.btnTick u level) = place 24 (0x12 : BitVec 8) ||| (place 20 u ||| placeBit 0 level) ∧
    (s.cfg.numButtons ≤ u.toNat → exec (.btnTick u level) s = .refused .reservedOperand) ∧
    ∀ (b : Button) (pullUp : Bool), u.toNat < s.cfg.numButtons → s.buttons[u.toNat]? = some b →
      s.cfg.btnPullUp[u.toNat]? = some pullUp →
      (b.timerRun = false → exec (.btnTick u level) s = .refused .guardFailed) ∧
      (b.timerRun = true → b.state = .falling ∨ b.state = .rising →
        (level = decide (b.state = .falling) →
          exec (.btnTick u level) s = .next { s with
            buttons := s.buttons.set u.toNat { b with
              state := if b.state = .falling then .holdUp else .holdDown
              count := 0, timerRun := false, irqEn := true } }) ∧
        (level ≠ decide (b.state = .falling) → b.count + 1 ≠ s.cfg.btnThreshold →
          exec (.btnTick u level) s = .next { s with
            buttons := s.buttons.set u.toNat { b with count := b.count + 1 } }) ∧
        (level ≠ decide (b.state = .falling) → b.count + 1 = s.cfg.btnThreshold →
          exec (.btnTick u level) s = .next { s with
            outputs := s.outputs ++
              (if decide (b.state = .falling) = pullUp then (b.cbPress.map (.firePress u)).toList else [])
            buttons := s.buttons.set u.toNat { b with
              state := if b.state = .falling then .holdDown else .holdUp
              count := 0, timerRun := false, irqEn := true } }))

/-- R138: the default table on the source's three sequences from START, in both wirings of R132, with the position after
each edge: a detent either way fires its callback once, at the fourth edge, and ends in START; with the second edge
skipped nothing fires. -/
def Obligations.DetentsWithDefaultTable : Prop :=
  ∀ s : State, s.cfg.qtable = defaultQTable → s.encState = .start →
    (∀ (k : Nat) (e : EncState), (k, e) ∈ [(1, .cw1), (2, .cw2), (3, .cw3)] →
      runInstrs ((rotCw s.cfg.encPullDown).take k) s = .next { s with encState := e }) ∧
    runInstrs (rotCw s.cfg.encPullDown) s = .next { s with outputs := s.outputs ++ (s.cbCw.map .fireCw).toList } ∧
    (∀ (k : Nat) (e : EncState), (k, e) ∈ [(1, .ccw1), (2, .ccw2), (3, .ccw3)] →
      runInstrs ((rotCcw s.cfg.encPullDown).take k) s = .next { s with encState := e }) ∧
    runInstrs (rotCcw s.cfg.encPullDown) s = .next { s with outputs := s.outputs ++ (s.cbCcw.map .fireCcw).toList } ∧
    (∀ (k : Nat) (e : EncState), (k, e) ∈ [(1, .cw1), (2, .start), (3, .start)] →
      runInstrs (((rotCw s.cfg.encPullDown).eraseIdx 1).take k) s = .next { s with encState := e })

/-- R134: with every table a configuration may have there is a clockwise sequence of pairs; it and its reverse fire once
each and end in START; with one of the first three edges skipped nothing fires (the reading of (d) is
notes/assumptions/15.md). -/
def Obligations.DetentsWithEveryTable : Prop :=
  ∀ c : Config, configProblem c = none →
    ∃ q1 q2 q3 : Fin 4, ∀ s : State, s.cfg = c → s.encState = .start →
      ∀ edges : List (Bool × Bool),
        (edges.map (fun e => pinPair c.encPullDown e.1 e.2) = [q1, q2, q3, 3] →
          runInstrs (edges.map fun e => .encEdge e.1 e.2) s
            = .next { s with outputs := s.outputs ++ (s.cbCw.map .fireCw).toList }) ∧
        (edges.map (fun e => pinPair c.encPullDown e.1 e.2) = [q3, q2, q1, 3] →
          runInstrs (edges.map fun e => .encEdge e.1 e.2) s
            = .next { s with outputs := s.outputs ++ (s.cbCcw.map .fireCcw).toList }) ∧
        ((∃ j, j < 3 ∧
            (edges.map (fun e => pinPair c.encPullDown e.1 e.2) = [q1, q2, q3, 3].eraseIdx j ∨
              edges.map (fun e => pinPair c.encPullDown e.1 e.2) = [q3, q2, q1, 3].eraseIdx j)) →
          ∃ e : EncState, runInstrs (edges.map fun e => .encEdge e.1 e.2) s = .next { s with encState := e })

/-- R147 (b), (f): a clean press and a clean release, for every threshold: the press fires the callback once, the
release nothing. -/
def Obligations.CleanPressAndRelease : Prop :=
  ∀ (u : BitVec 4) (s : State) (b : Button) (pullUp : Bool), configProblem s.cfg = none →
    s.cfg.btnPullUp[u.toNat]? = some pullUp → s.buttons[u.toNat]? = some b → b.irqEn = true →
    (b.state = (if pullUp then .holdUp else .holdDown) →
      runInstrs (press s.cfg u) s = .next { s with
        outputs := s.outputs ++ (b.cbPress.map (.firePress u)).toList
        buttons := s.buttons.set u.toNat { b with
          state := if pullUp then .holdDown else .holdUp
          count := 0, timerRun := false, irqEn := true } }) ∧
    (b.state = (if pullUp then .holdDown else .holdUp) →
      runInstrs (release s.cfg u) s = .next { s with
        buttons := s.buttons.set u.toNat { b with
          state := if pullUp then .holdUp else .holdDown
          count := 0, timerRun := false, irqEn := true } })

/-- R147 (a), (d): fewer consistent ticks than the threshold and then one that reads the starting level: back in the
steady state, nothing fired. -/
def Obligations.BounceAborts : Prop :=
  ∀ (u : BitVec 4) (level : Bool) (ticks : Nat) (s : State) (b : Button), u.toNat < s.cfg.numButtons →
    s.buttons[u.toNat]? = some b → b.irqEn = true → b.state = (if level then .holdDown else .holdUp) →
    ticks < s.cfg.btnThreshold →
    runInstrs (.btnEdge u level :: List.replicate ticks (.btnTick u level) ++ [.btnTick u (!level)]) s
      = .next { s with buttons := s.buttons.set u.toNat { b with count := 0, timerRun := false } }

/-! ### Spectrum pipeline -/

/-- R171, R221: PIPE_BEGIN reads the effective mode. -/
def Obligations.PipeBeginEffect : Prop :=
  ∀ s : State,
    encode .pipeBegin = place 24 (0x30 : BitVec 8) ∧
    (s.pipePhase ≠ .idle → exec .pipeBegin s = .refused .guardFailed) ∧
    (s.pipePhase = .idle → s.alarmState ≠ .sounding → s.modeSel = .spectrum →
      exec .pipeBegin s = .next { s with pipeMode := some .spectrum, pipePhase := .sampling, pipeIdx := 0 }) ∧
    (s.pipePhase = .idle → s.alarmState ≠ .sounding → s.modeSel = .constant →
      exec .pipeBegin s = .next { s with pipeMode := some .constant, pipePhase := .render, pipeIdx := 0 }) ∧
    (s.pipePhase = .idle → s.alarmState = .sounding ∨ s.modeSel = .off → exec .pipeBegin s = .next s)

/-- R173: PIPE_SAMPLE stores one raw sample at `pipe_idx` and advances the sequencer. That `v` out of range is the reason
outside SAMPLING too is DEDUCED (notes/assumptions/11.md). -/
def Obligations.PipeSampleEffect : Prop :=
  ∀ (v : BitVec 16) (s : State),
    encode (.pipeSample v) = place 24 (0x31 : BitVec 8) ||| place 0 v ∧
    (s.cfg.adcMax < v.toNat → exec (.pipeSample v) s = .refused .reservedOperand) ∧
    (v.toNat ≤ s.cfg.adcMax → s.pipePhase ≠ .sampling → exec (.pipeSample v) s = .refused .guardFailed) ∧
    (v.toNat ≤ s.cfg.adcMax → s.pipePhase = .sampling → s.pipeIdx < s.x.length →
      exec (.pipeSample v) s = .next { s with
        x := s.x.set s.pipeIdx (some v.toNat)
        pipePhase := if s.pipeIdx + 1 = s.cfg.n then .analyze else .sampling
        pipeIdx := if s.pipeIdx + 1 = s.cfg.n then 0 else s.pipeIdx + 1 })

/-- R175 to R178: PIPE_ANALYZE on a filled block writes the transform over the reals, its magnitudes and its phases,
empties `x`, changes nothing else; outside ANALYZE it is refused. -/
def Obligations.PipeAnalyzeEffect : Prop :=
  ∀ s : State,
    encode .pipeAnalyze = place 24 (0x32 : BitVec 8) ∧
    (s.pipePhase ≠ .analyze → exec .pipeAnalyze s = .refused .guardFailed) ∧
    ∀ xs : List Nat, configProblem s.cfg = none → s.pipePhase = .analyze → xs.length = s.cfg.n → s.x = xs.map some →
      ∃ (re im : List Alg) (mag : List Mag) (ph : List Phase),
        exec .pipeAnalyze s = .next { s with
          re := re.map some
          im := im.map some
          mag := mag.map some
          ph := ph.map some
          x := List.replicate s.cfg.n none
          pipePhase := .render
          pipeIdx := 0 } ∧
        re.length = s.cfg.n ∧ im.length = s.cfg.n ∧ mag.length = s.cfg.n ∧ ph.length = s.cfg.n ∧
        ∀ k, k < s.cfg.n →
          (re[k]?.map (Alg.val (levelOf s.cfg.n))) = some (dftReal s.cfg.n xs k) ∧
          (im[k]?.map (Alg.val (levelOf s.cfg.n))) = some (dftImag s.cfg.n xs k) ∧
          (mag[k]?.map (Mag.val (levelOf s.cfg.n)))
            = some (√(dftReal s.cfg.n xs k ^ 2 + dftImag s.cfg.n xs k ^ 2)) ∧
          (ph[k]?.map (Phase.val (levelOf s.cfg.n)))
            = some (atan2 s.cfg (dftImag s.cfg.n xs k) (dftReal s.cfg.n xs k))

/-- R182: a block of N equal samples v puts N·v into bin 0 and nothing into any other bin. -/
def Obligations.ConstantBlockIsBinZero : Prop :=
  ∀ (s t : State) (v : Nat), configProblem s.cfg = none → s.x = List.replicate s.cfg.n (some v) →
    exec .pipeAnalyze s = .next t →
    ∀ k, k < s.cfg.n → ∃ (re im : Alg) (mag : Mag) (ph : Phase),
      t.re[k]? = some (some re) ∧ t.im[k]? = some (some im) ∧ t.mag[k]? = some (some mag) ∧
      t.ph[k]? = some (some ph) ∧
      re.val (levelOf s.cfg.n) = (if k = 0 then (s.cfg.n : ℝ) * v else 0) ∧
      im.val (levelOf s.cfg.n) = 0 ∧
      mag.val (levelOf s.cfg.n) = (if k = 0 then (s.cfg.n : ℝ) * v else 0) ∧
      (k = 0 → 0 < v → ph.val (levelOf s.cfg.n) = 0)

/-- R179: the transform of real samples is symmetric, and so are the magnitudes and the phases. -/
def Obligations.TransformIsSymmetric : Prop :=
  ∀ s t : State, configProblem s.cfg = none → exec .pipeAnalyze s = .next t →
    ∃ (re im mag ph : Nat → ℝ),
      (∀ k, k < s.cfg.n →
        (∃ y, t.re[k]? = some (some y) ∧ y.val (levelOf s.cfg.n) = re k) ∧
        (∃ y, t.im[k]? = some (some y) ∧ y.val (levelOf s.cfg.n) = im k) ∧
        (∃ y, t.mag[k]? = some (some y) ∧ y.val (levelOf s.cfg.n) = mag k) ∧
        (∃ y, t.ph[k]? = some (some y) ∧ y.val (levelOf s.cfg.n) = ph k)) ∧
      im 0 = 0 ∧ (2 ≤ s.cfg.n → im (s.cfg.n / 2) = 0) ∧
      ∀ k, 1 ≤ k → k < s.cfg.n →
        re (s.cfg.n - k) = re k ∧ im (s.cfg.n - k) = -im k ∧ mag (s.cfg.n - k) = mag k ∧
        (ph k = Real.pi → ¬(re k = 0 ∧ im k = 0) → ph (s.cfg.n - k) = Real.pi) ∧
        (ph k ≠ Real.pi → ¬(re k = 0 ∧ im k = 0) → ph (s.cfg.n - k) = -ph k)

/-- R45, R178: every magnitude is nonnegative and every phase lies in (-π, π] after PIPE_ANALYZE. -/
def Obligations.SpectrumRanges : Prop :=
  ∀ s t : State, configProblem s.cfg = none → exec .pipeAnalyze s = .next t →
    (∀ (k : Nat) (m : Mag), t.mag[k]? = some (some m) → 0 ≤ m.val (levelOf s.cfg.n)) ∧
    ∀ (k : Nat) (p : Phase), t.ph[k]? = some (some p) → -Real.pi < p.val (levelOf s.cfg.n) ∧ p.val (levelOf s.cfg.n) ≤ Real.pi

/-- R183, R184: the bands of the light units partition the bins: every bin is in exactly one, and all have the same
size. -/
def Obligations.BandsPartitionTheBins : Prop :=
  ∀ c : Config, configProblem c = none →
    c.binsPerLed * c.numLeds = c.n ∧ 1 ≤ c.binsPerLed ∧
    ∀ k, k < c.n → ∃! led, led < c.numLeds ∧ led * c.binsPerLed ≤ k ∧ k < (led + 1) * c.binsPerLed

/-- R185, R187, R189, R192, R206, R210, R212: PIPE_LED in a SPECTRUM iteration. It renders the unit `pipe_idx` from its
band's magnitudes `ms` and phases `ps`; the colour is `Colour` of the band's averages over the reals, in whichever form
the write holds it (notes/assumptions/8.md). -/
def Obligations.PipeLedSpectrumEffect : Prop :=
  ∀ (slow : Bool) (s : State) (ms : List Mag) (ps : List Phase), configProblem s.cfg = none →
    s.pipePhase = .render → s.pipeMode = some .spectrum →
    ms.length = s.cfg.binsPerLed → (s.mag.drop (s.pipeIdx * s.cfg.binsPerLed)).take s.cfg.binsPerLed = ms.map some →
    ps.length = s.cfg.binsPerLed → (s.ph.drop (s.pipeIdx * s.cfg.binsPerLed)).take s.cfg.binsPerLed = ps.map some →
    ∃ color : LedColor,
      exec (.pipeLed slow) s = .next { s with
        outputs := s.outputs ++ (if s.ledDrvEn then [.ledWrite s.pipeIdx color] else []) ++
          (if slow then [.yieldSleep] else [])
        pipePhase := if s.pipeIdx + 1 = s.cfg.numLeds then .idle else .render
        pipeIdx := if s.pipeIdx + 1 = s.cfg.numLeds then 0 else s.pipeIdx + 1 } ∧
      color.val s.cfg =
        colourReal s.cfg (avgPhase s.cfg (ps.map (Phase.val (levelOf s.cfg.n))))
          (avgMagnitude s.cfg (ms.map (Mag.val (levelOf s.cfg.n))))

/-- R192, R363: with rational tunables, a band whose magnitudes are rational and whose phases are rational multiples of π
is written as three bytes, with the driver enabled. -/
def Obligations.RationalBandsGiveBytes : Prop :=
  ∀ (slow : Bool) (s t : State), s.pipeMode = some .spectrum → s.ledDrvEn = true →
    (∀ p ∈ [s.cfg.phaseScale, s.cfg.baseColor.r, s.cfg.baseColor.g, s.cfg.baseColor.b, s.cfg.redSpan],
      ∃ q, p = .rat q) →
    (∀ j, j < s.cfg.binsPerLed → ∃ q, s.mag[s.pipeIdx * s.cfg.binsPerLed + j]? = some (some (.exact (.rat q)))) →
    (∀ j, j < s.cfg.binsPerLed → ∃ q, s.ph[s.pipeIdx * s.cfg.binsPerLed + j]? = some (some (.piMul q))) →
    exec (.pipeLed slow) s = .next t →
    ∃ color : Rgb,
      t.outputs = s.outputs ++ [.ledWrite s.pipeIdx (.rgb color)] ++ (if slow then [.yieldSleep] else [])

/-- R193 (b): a band of magnitude 0 is black whatever its phases, and is written as three bytes. -/
def Obligations.SilentBandIsBlack : Prop :=
  ∀ (slow : Bool) (s t : State), s.pipeMode = some .spectrum → s.ledDrvEn = true →
    (∀ j, j < s.cfg.binsPerLed → s.mag[s.pipeIdx * s.cfg.binsPerLed + j]? = some (some (.exact (.rat 0)))) →
    exec (.pipeLed slow) s = .next t →
    t.outputs = s.outputs ++ [.ledWrite s.pipeIdx (.rgb ⟨0, 0, 0⟩)] ++ (if slow then [.yieldSleep] else [])

/-- R193 (a) to (d): `Colour` at phase 0, -π/2 and π/2 and at magnitude 0, over the reals: at phase 0 the base colour
times the magnitude, at -π/2 the same with blue 0, at π/2 the same with red 0, at magnitude 0 black. `m` is
min(`am`, 255). -/
def Obligations.ColourAtTheBoundaries : Prop :=
  ∀ (slow : Bool) (s : State) (ms : List Mag) (ps : List Phase) (ap am m : ℝ), configProblem s.cfg = none →
    s.pipePhase = .render → s.pipeMode = some .spectrum → s.ledDrvEn = true →
    ms.length = s.cfg.binsPerLed → (s.mag.drop (s.pipeIdx * s.cfg.binsPerLed)).take s.cfg.binsPerLed = ms.map some →
    ps.length = s.cfg.binsPerLed → (s.ph.drop (s.pipeIdx * s.cfg.binsPerLed)).take s.cfg.binsPerLed = ps.map some →
    ap = avgPhase s.cfg (ps.map (Phase.val (levelOf s.cfg.n))) →
    am = avgMagnitude s.cfg (ms.map (Mag.val (levelOf s.cfg.n))) → m = min am 255 →
    ∃ (t : State) (color : LedColor), exec (.pipeLed slow) s = .next t ∧
      t.outputs = s.outputs ++ [.ledWrite s.pipeIdx color] ++ (if slow then [.yieldSleep] else []) ∧
      (ap = 0 → color.val s.cfg = (channelReal (s.cfg.baseColor.r.val * m), channelReal (s.cfg.baseColor.g.val * m),
        channelReal (s.cfg.baseColor.b.val * m))) ∧
      (ap = -Real.pi / 2 → color.val s.cfg =
        (channelReal (s.cfg.baseColor.r.val * m), channelReal (s.cfg.baseColor.g.val * m), 0)) ∧
      (ap = Real.pi / 2 → color.val s.cfg =
        (0, channelReal (s.cfg.baseColor.g.val * m), channelReal (s.cfg.baseColor.b.val * m))) ∧
      (am = 0 → color.val s.cfg = (0, 0, 0))

/-- R192, R194, R361: a channel is the ceiling of its product clamped to 0 to 255, for every real product: at least 1 for
any positive one, an exact integer unchanged. On a rational the machine computes it. -/
def Obligations.ChannelCeiling : Prop :=
  (∀ v : Rat, channelReal (v : ℝ) = channelOf v) ∧
  (∀ v : Rat, 0 ≤ v → v ≤ 255 → channelOf v = v.ceil.toNat) ∧
  (∀ v : Rat, v < 0 → channelOf v = 0) ∧ (∀ v : Rat, 255 < v → channelOf v = 255) ∧
  (∀ x : ℝ, 0 ≤ x → x ≤ 255 → (channelReal x : ℤ) = ⌈x⌉) ∧
  (∀ x : ℝ, x < 0 → channelReal x = 0) ∧ (∀ x : ℝ, 255 < x → channelReal x = 255) ∧
  (∀ x : ℝ, 0 < x → 1 ≤ channelReal x) ∧ ∀ z : Nat, z ≤ 255 → channelReal (z : ℝ) = z

/-- R189, R191: the linear value of each ramp at a phase of `t` half-turns, its value at the two ends of its quadrant, and
the ramp of the phase's own quadrant between 0 and 1. -/
def Obligations.RampsRunFromZeroToOne : Prop :=
  (∀ t : Rat, ramp .redNeg (.point t) = .point (-2 * t - 1) ∧ ramp .blue (.point t) = .point (1 + 2 * t) ∧
    ramp .green (.point t) = .point (1 - 2 * t) ∧ ramp .redPos (.point t) = .point (2 * t - 1)) ∧
  (ramp .redNeg (.point (-1)) = .point 1 ∧ ramp .redNeg (.point (-1 / 2)) = .point 0) ∧
  (ramp .blue (.point (-1 / 2)) = .point 0 ∧ ramp .blue (.point 0) = .point 1) ∧
  (ramp .green (.point 0) = .point 1 ∧ ramp .green (.point (1 / 2)) = .point 0) ∧
  (ramp .redPos (.point (1 / 2)) = .point 0 ∧ ramp .redPos (.point 1) = .point 1) ∧
  ∀ t : Rat, -1 ≤ t → t ≤ 1 →
    ∃ v : Rat, ramp (quadrantAt (quadrantIndex t)) (.point t) = .point v ∧ 0 ≤ v ∧ v ≤ 1

/-- R210, R211, R212: PIPE_LED in a CONSTANT iteration writes the current constant colour behind the gate; with no
colour set it is refused. -/
def Obligations.PipeLedConstantEffect : Prop :=
  ∀ (slow : Bool) (s : State),
    encode (.pipeLed slow) = place 24 (0x33 : BitVec 8) ||| placeBit 0 slow ∧
    (s.pipePhase ≠ .render → exec (.pipeLed slow) s = .refused .guardFailed) ∧
    (s.pipePhase = .render → s.pipeMode = some .constant → s.constValid = false →
      exec (.pipeLed slow) s = .refused .unwrittenRead) ∧
    ∀ color, s.pipePhase = .render → s.pipeMode = some .constant → s.constValid = true → s.constColor = some color →
      exec (.pipeLed slow) s = .next { s with
        outputs := s.outputs ++ (if s.ledDrvEn then [.ledWrite s.pipeIdx (.rgb color)] else []) ++
          (if slow then [.yieldSleep] else [])
        pipePhase := if s.pipeIdx + 1 = s.cfg.numLeds then .idle else .render
        pipeIdx := if s.pipeIdx + 1 = s.cfg.numLeds then 0 else s.pipeIdx + 1 }

/-- R206, R211, R212: a CONSTANT render pass writes every unit once, in index order, or none with the driver off, and
ends in IDLE. -/
def Obligations.ConstantPassWritesEveryUnit : Prop :=
  ∀ (s : State) (color : Rgb), Sane s → s.pipePhase = .render → s.pipeIdx = 0 → s.pipeMode = some .constant →
    s.constColor = some color →
    runInstrs (renderAll s.cfg) s = .next { s with
      pipePhase := .idle
      pipeIdx := 0
      outputs := s.outputs ++
        (if s.ledDrvEn then (List.range s.cfg.numLeds).map (fun unit => .ledWrite unit (.rgb color)) else []) }

/-- R77, R173: a block of N samples in range is stored in index order over whatever `x` held, and ends in ANALYZE. -/
def Obligations.SampleBlockFillsX : Prop :=
  ∀ (s : State) (vs : List (BitVec 16)), Sane s → s.pipePhase = .sampling → s.pipeIdx = 0 → vs.length = s.cfg.n →
    (∀ v ∈ vs, v.toNat ≤ s.cfg.adcMax) →
    runInstrs (sampleBlock vs) s = .next { s with
      x := vs.map fun v => some v.toNat
      pipePhase := .analyze
      pipeIdx := 0 }

/-- R112, R170, R206: a whole SPECTRUM iteration from IDLE completes for every block of samples in range: back in IDLE,
every unit written once in index order, `re` and `im` the transform of the block. -/
def Obligations.SpectrumIterationCompletes : Prop :=
  ∀ (s : State) (vs : List (BitVec 16)), Sane s → s.pipePhase = .idle → s.alarmState ≠ .sounding →
    s.modeSel = .spectrum → vs.length = s.cfg.n → (∀ v ∈ vs, v.toNat ≤ s.cfg.adcMax) →
    ∃ (t : State) (colors : List LedColor), runInstrs (pipeIter s.cfg vs) s = .next t ∧
      t.pipePhase = .idle ∧ t.pipeIdx = 0 ∧ t.pipeMode = some .spectrum ∧ t.x = List.replicate s.cfg.n none ∧
      colors.length = s.cfg.numLeds ∧
      t.outputs = s.outputs ++ List.zipWith Event.ledWrite (List.range s.cfg.numLeds) colors ∧
      controlPart t = controlPart s ∧ tonePart t = tonePart s ∧ edgePart t = edgePart s ∧
      ∀ k, k < s.cfg.n → ∃ re im : Alg, t.re[k]? = some (some re) ∧ t.im[k]? = some (some im) ∧
        re.val (levelOf s.cfg.n) = dftReal s.cfg.n (vs.map BitVec.toNat) k ∧
        im.val (levelOf s.cfg.n) = dftImag s.cfg.n (vs.map BitVec.toNat) k

/-- R364: the sequencer's whole transition relation; no other stimulus writes it. -/
def Obligations.SequencerRelation : Prop :=
  ∀ (i : Instr) (s t : State), Sane s → exec i s = .next t →
    (i = .pipeBegin → s.pipePhase = .idle ∧ s.pipeIdx = 0 ∧
      (t.pipePhase, t.pipeIdx) = (if s.alarmState = .sounding then (.idle, 0) else
        match s.modeSel with
        | .spectrum => (.sampling, 0)
        | .constant => (.render, 0)
        | .off => (.idle, 0))) ∧
    (∀ v, i = .pipeSample v → s.pipePhase = .sampling ∧ s.pipeIdx < s.cfg.n ∧
      (t.pipePhase, t.pipeIdx) = if s.pipeIdx + 1 < s.cfg.n then (.sampling, s.pipeIdx + 1) else (.analyze, 0)) ∧
    (i = .pipeAnalyze → s.pipePhase = .analyze ∧ s.pipeIdx = 0 ∧ (t.pipePhase, t.pipeIdx) = (.render, 0)) ∧
    (∀ slow, i = .pipeLed slow → s.pipePhase = .render ∧ s.pipeIdx < s.cfg.numLeds ∧
      (t.pipePhase, t.pipeIdx) = if s.pipeIdx + 1 < s.cfg.numLeds then (.render, s.pipeIdx + 1) else (.idle, 0)) ∧
    (StimulusClass.ofOpcode i.opcode ≠ some .pipeline → t.pipePhase = s.pipePhase ∧ t.pipeIdx = s.pipeIdx)

/-! ### Who writes what -/

/-- R21 to R45, R80, R366, the frame of every stimulus: an element changes only in a step of a stimulus that its rule
lists; the configuration and the rest of the trace change in none. -/
def Obligations.OnlyListedStimuliWrite : Prop :=
  ∀ (i : Instr) (s t : State), exec i s = .next t →
    t.cfg = s.cfg ∧ t.input = s.input ∧
    (t.modeSel ≠ s.modeSel → ∃ m, i = .setMode m) ∧
    (t.constColor ≠ s.constColor ∨ t.constValid ≠ s.constValid → ∃ r g b, i = .setConstantColor r g b) ∧
    (t.ledDrvEn ≠ s.ledDrvEn →
      (∃ m, i = .setMode m) ∨ (∃ p, i = .beginTestTone p) ∨ i = .endTestTone ∨ ∃ a, i = .alarmSet a) ∧
    (t.alarmState ≠ s.alarmState ∨ t.testActive ≠ s.testActive ∨ t.patTimerRun ≠ s.patTimerRun ∨ t.pwmEn ≠ s.pwmEn ∨
        t.radioHiz ≠ s.radioHiz →
      (∃ p, i = .beginTestTone p) ∨ i = .endTestTone ∨ ∃ a, i = .alarmSet a) ∧
    (t.alarmSaved ≠ s.alarmSaved → ∃ p, i = .beginTestTone p) ∧
    (t.patSel ≠ s.patSel → (∃ p, i = .beginTestTone p) ∨ i = .alarmSet .sounding) ∧
    (t.patPos ≠ s.patPos → (∃ p, i = .beginTestTone p) ∨ i = .alarmSet .sounding ∨ i = .patTick) ∧
    (t.freqTimerRun ≠ s.freqTimerRun ∨ t.toneFreq ≠ s.toneFreq →
      (∃ p, i = .beginTestTone p) ∨ i = .endTestTone ∨ (∃ a, i = .alarmSet a) ∨ i = .patTick) ∧
    (t.tonePhase ≠ s.tonePhase ∨ t.pwmDuty ≠ s.pwmDuty →
      (∃ p, i = .beginTestTone p) ∨ i = .endTestTone ∨ (∃ a, i = .alarmSet a) ∨ i = .patTick ∨ i = .freqTick) ∧
    (t.encState ≠ s.encState → ∃ clk dir, i = .encEdge clk dir) ∧
    (t.cbCw ≠ s.cbCw → ∃ h, i = .onRotateCw h) ∧
    (t.cbCcw ≠ s.cbCcw → ∃ h, i = .onRotateCcw h) ∧
    (∀ u, buttonAt t u ≠ buttonAt s u →
      (∃ h, i = .onPress u h) ∨ (∃ level, i = .btnEdge u level) ∨ ∃ level, i = .btnTick u level) ∧
    (∀ u, (buttonAt t u).map Button.cbPress ≠ (buttonAt s u).map Button.cbPress → ∃ h, i = .onPress u h) ∧
    (∀ u, (buttonAt t u).map (fun b => (b.state, b.count, b.irqEn, b.timerRun))
        ≠ (buttonAt s u).map (fun b => (b.state, b.count, b.irqEn, b.timerRun)) →
      (∃ level, i = .btnEdge u level) ∨ ∃ level, i = .btnTick u level) ∧
    (t.pipePhase ≠ s.pipePhase ∨ t.pipeIdx ≠ s.pipeIdx →
      i = .pipeBegin ∨ (∃ v, i = .pipeSample v) ∨ i = .pipeAnalyze ∨ ∃ slow, i = .pipeLed slow) ∧
    (t.pipeMode ≠ s.pipeMode → i = .pipeBegin) ∧
    (t.x ≠ s.x → (∃ v, i = .pipeSample v) ∨ i = .pipeAnalyze) ∧
    (∀ k, t.x[k]? ≠ s.x[k]? → k = s.pipeIdx ∨ i = .pipeAnalyze) ∧
    (t.re ≠ s.re ∨ t.im ≠ s.im ∨ t.mag ≠ s.mag ∨ t.ph ≠ s.ph → i = .pipeAnalyze)

/-- R17, R136, R146, R210, R224, R246: output events are only appended, at most two in a step, and each kind only by the
stimulus whose rule emits it. -/
def Obligations.EventsComeFromTheirStimuli : Prop :=
  ∀ (i : Instr) (s t : State), exec i s = .next t →
    ∃ new : List Event, t.outputs = s.outputs ++ new ∧ new.length ≤ 2 ∧
      ∀ e ∈ new,
        (∀ h, e = .fireCw h → s.cbCw = some h ∧ s.encState = .cw3 ∧ ∃ clk dir, i = .encEdge clk dir) ∧
        (∀ h, e = .fireCcw h → s.cbCcw = some h ∧ s.encState = .ccw3 ∧ ∃ clk dir, i = .encEdge clk dir) ∧
        (∀ u h, e = .firePress u h →
          (buttonAt s u).bind Button.cbPress = some h ∧ ∃ level, i = .btnTick u level) ∧
        (∀ n color, e = .ledWrite n color → n = s.pipeIdx ∧ s.ledDrvEn = true ∧ ∃ slow, i = .pipeLed slow) ∧
        (e = .yieldSleep → i = .pipeLed true) ∧
        (∀ v, e = .ret v → i = .getMode ∨ i = .alarmSounding)

/-- R84: the transform commutes with every stimulus that is no pipeline step. -/
def Obligations.AnalyzeCommutesWithEvents : Prop :=
  ∀ (i : Instr) (s t : State), StimulusClass.ofOpcode i.opcode ≠ some .pipeline →
    (runInstrs [.pipeAnalyze, i] s = .next t ↔ runInstrs [i, .pipeAnalyze] s = .next t)

/-- R89: after PIPE_BEGIN neither the stored selection nor the alarm state has any influence on a pipeline step. -/
def Obligations.ModeIsReadOnlyAtPipeBegin : Prop :=
  ∀ (i : Instr) (s t : State) (m : Mode) (a : AlarmState), StimulusClass.ofOpcode i.opcode = some .pipeline →
    i ≠ .pipeBegin → exec i s = .next t →
    exec i { s with modeSel := m, alarmState := a } = .next { t with modeSel := m, alarmState := a }
end

