-- ==== Sys2Proof/Laws/Exact.lean ====
section
/-! SUPPORT. The exact numbers denote what their operations say: sum, product, inverse, sign and square root of `Alg` are
those of the reals, and the integer square root is the floor of the root. -/

namespace Sys2Proof.Machine

theorem gammaReal_nonneg (l : Nat) : 0 ≤ gammaReal l := by
  cases l with
  | zero => exact le_refl _
  | succ l => exact Real.sqrt_nonneg _

theorem gammaReal_sq (l : Nat) : gammaReal (l + 1) * gammaReal (l + 1) = 2 + gammaReal l :=
  Real.mul_self_sqrt (by have := gammaReal_nonneg l; linarith)

theorem gammaReal_pos (l : Nat) : 0 < gammaReal (l + 1) :=
  Real.sqrt_pos.mpr (by have := gammaReal_nonneg l; linarith)

@[simp] theorem val_rat (l : Nat) (q : Rat) : Alg.val l (.rat q) = q := by cases l <;> rfl

theorem val_zero_eq (x : Alg) : Alg.val 0 x = x.ratPart := by
  induction x with
  | rat q => simp [Alg.ratPart]
  | ext a b iha _ => simpa [Alg.val, Alg.ratPart] using iha

/-- A number of level l+1 is its first part and its second part times γ. -/
theorem val_parts (l : Nat) (x : Alg) :
    Alg.val (l + 1) x = Alg.val l x.parts.1 + Alg.val l x.parts.2 * gammaReal (l + 1) := by
  cases x <;> simp [Alg.parts, Alg.val]

/-- The normal form denotes the same number. -/
theorem val_mk_succ (l : Nat) (a b : Alg) :
    Alg.val (l + 1) (.mk a b) = Alg.val l a + Alg.val l b * gammaReal (l + 1) := by
  unfold Alg.mk
  split
  · split
    · rename_i h
      have := Rat.zero_of_num_zero h
      simp [this]
    · rfl
  · rfl

theorem val_mk_zero (a b : Alg) : Alg.val 0 (.mk a b) = Alg.val 0 a := by
  unfold Alg.mk
  split
  · split <;> simp [Alg.val]
  · rfl

theorem val_addRat (l : Nat) (p : Rat) (x : Alg) : Alg.val l (x.addRat p) = p + Alg.val l x := by
  induction x generalizing l with
  | rat q => simp [Alg.addRat]
  | ext a b iha _ =>
    cases l with
    | zero => simpa [Alg.addRat, Alg.val] using iha 0
    | succ l => simp only [Alg.addRat, Alg.val, iha]; ring

@[simp] theorem val_add (l : Nat) (x y : Alg) : Alg.val l (x.add y) = Alg.val l x + Alg.val l y := by
  induction x generalizing l y with
  | rat p => simp [Alg.add, val_addRat]
  | ext a b iha ihb =>
    cases y with
    | rat q => rw [Alg.add, val_addRat]; simp [add_comm]
    | ext c d =>
      cases l with
      | zero => simp only [Alg.add, val_mk_zero, iha]; rfl
      | succ l => simp only [Alg.add, val_mk_succ, iha, ihb, Alg.val]; ring

@[simp] theorem val_scale (l : Nat) (q : Rat) (x : Alg) : Alg.val l (x.scale q) = q * Alg.val l x := by
  induction x generalizing l with
  | rat p => simp [Alg.scale]
  | ext a b iha ihb =>
    cases l with
    | zero => simp only [Alg.scale, val_mk_zero, iha]; rfl
    | succ l => simp only [Alg.scale, val_mk_succ, iha, ihb, Alg.val]; ring

@[simp] theorem val_neg (l : Nat) (x : Alg) : Alg.val l x.neg = -Alg.val l x := by simp [Alg.neg]

@[simp] theorem val_sub (l : Nat) (x y : Alg) : Alg.val l (x.sub y) = Alg.val l x - Alg.val l y := by
  simp [Alg.sub, sub_eq_add_neg]

@[simp] theorem val_mulGamma (l : Nat) (x : Alg) : Alg.val l (Alg.mulGamma l x) = Alg.val l x * gammaReal l := by
  induction l generalizing x with
  | zero => simp [Alg.mulGamma, gammaReal]
  | succ l ih =>
    rw [Alg.mulGamma, val_mk_succ, val_add, val_scale, ih, val_parts l x]
    have := gammaReal_sq l
    push_cast
    linear_combination (-Alg.val l x.parts.2) * this

@[simp] theorem val_mulDelta (l : Nat) (x : Alg) :
    Alg.val l (Alg.mulDelta l x) = Alg.val l x * (gammaReal (l + 1) * gammaReal (l + 1)) := by
  rw [Alg.mulDelta, val_add, val_scale, val_mulGamma, gammaReal_sq]; push_cast; ring

@[simp] theorem val_mul (l : Nat) (x y : Alg) : Alg.val l (Alg.mul l x y) = Alg.val l x * Alg.val l y := by
  induction l generalizing x y with
  | zero => rw [Alg.mul, val_rat, val_zero_eq, val_zero_eq]; push_cast; rfl
  | succ l ih =>
    cases x with
    | rat p => simp [Alg.mul]
    | ext a b =>
      cases y with
      | rat q => rw [Alg.mul, val_scale, val_rat]; ring
      | ext c d => simp only [Alg.mul, val_mk_succ, val_add, val_mulDelta, ih, Alg.val]; ring

theorem val_norm (l : Nat) (a b : Alg) :
    Alg.val l (Alg.norm l a b) =
      (Alg.val l a + Alg.val l b * gammaReal (l + 1)) * (Alg.val l a - Alg.val l b * gammaReal (l + 1)) := by
  simp only [Alg.norm, val_sub, val_mul, val_mulDelta]; ring

/-! ### Signs -/

theorem ratSign_eq (q : Rat) : ratSign q = (SignType.sign (q : ℝ) : ℤ) := by
  unfold ratSign
  rcases lt_trichotomy q 0 with h | h | h
  · have h2 : (q : ℝ) < 0 := by exact_mod_cast h
    simp [Int.sign_eq_neg_one_of_neg (Rat.num_neg.mpr h), sign_neg h2]
  · subst h; simp
  · have h2 : 0 < (q : ℝ) := by exact_mod_cast h
    simp [Int.sign_eq_one_of_pos (Rat.num_pos.mpr h), sign_pos h2]

/-- The sign a number is given is its sign as a real. -/
theorem sign_eq (l : Nat) (x : Alg) : Alg.sign l x = (SignType.sign (Alg.val l x) : ℤ) := by
  induction l generalizing x with
  | zero => rw [Alg.sign, ratSign_eq, val_zero_eq]
  | succ l ih =>
    cases x with
    | rat q => rw [Alg.sign, ratSign_eq, val_rat]
    | ext a b =>
      have hg := gammaReal_pos l
      rw [Alg.sign, ih a, ih b, ih (Alg.norm l a b), val_norm, Alg.val]
      generalize Alg.val l a = A
      generalize Alg.val l b = B
      generalize gammaReal (l + 1) = g at hg
      rcases lt_trichotomy B 0 with hB | hB | hB <;> rcases lt_trichotomy A 0 with hA | hA | hA
      · have : A + B * g < 0 := by nlinarith
        simp [sign_neg hA, sign_neg hB, sign_neg this]
      · have : A + B * g < 0 := by nlinarith
        subst hA
        rw [zero_add] at this ⊢
        simp [sign_neg hB, sign_neg this]
      · have : 0 < A - B * g := by nlinarith
        simp [sign_pos hA, sign_neg hB, sign_mul, sign_pos this]
      · subst hB; simp
      · subst hB; simp
      · subst hB; simp
      · have : A - B * g < 0 := by nlinarith
        simp [sign_neg hA, sign_pos hB, sign_mul, sign_neg this]
      · have : 0 < A + B * g := by nlinarith
        subst hA
        rw [zero_add] at this ⊢
        simp [sign_pos hB, sign_pos this]
      · have : 0 < A + B * g := by nlinarith
        simp [sign_pos hA, sign_pos hB, sign_pos this]

theorem sign_eq_zero (l : Nat) (x : Alg) : Alg.sign l x = 0 ↔ Alg.val l x = 0 := by
  rw [sign_eq]
  rcases lt_trichotomy (Alg.val l x) 0 with h | h | h
  · simp [sign_neg h, h.ne]
  · simp [h]
  · simp [sign_pos h, h.ne']

theorem sign_neg_iff (l : Nat) (x : Alg) : Alg.sign l x < 0 ↔ Alg.val l x < 0 := by
  rw [sign_eq]
  rcases lt_trichotomy (Alg.val l x) 0 with h | h | h
  · simp [sign_neg h, h]
  · simp [h]
  · simp [sign_pos h, h.le]

theorem sign_nonneg_iff (l : Nat) (x : Alg) : 0 ≤ Alg.sign l x ↔ 0 ≤ Alg.val l x := by
  rw [← not_lt, sign_neg_iff, not_lt]

@[simp] theorem val_abs (l : Nat) (x : Alg) : Alg.val l (Alg.abs l x) = |Alg.val l x| := by
  unfold Alg.abs
  split
  · rename_i h
    rw [val_neg, abs_of_neg ((sign_neg_iff l x).mp h)]
  · rename_i h
    rw [abs_of_nonneg (not_lt.mp fun hn => h ((sign_neg_iff l x).mpr hn))]

/-! ### Square roots and quotients -/

/-- A square root that is answered is the nonnegative root. -/
theorem sqrt?_val (l : Nat) (x y : Alg) (h : Alg.sqrt? l x = some y) : Alg.val l y = √(Alg.val l x) := by
  unfold Alg.sqrt? at h
  split at h
  · split at h
    · rename_i z _ hz
      cases h
      rw [← hz, val_mul, val_abs, Real.sqrt_mul_self_eq_abs]
    · cases h
  · cases h

/-- A quotient that is answered is the quotient. -/
theorem ratio?_val (l : Nat) (y x r : Alg) (h : Alg.ratio? l y x = some r) :
    Alg.val l r * Alg.val l x = Alg.val l y := by
  unfold Alg.ratio? at h
  split at h
  · rename_i hm
    cases h
    rw [← val_mul, hm]
  · cases h

theorem isqrtFrom_le (n i r : Nat) (h : r * r ≤ n) : isqrtFrom n i r * isqrtFrom n i r ≤ n := by
  induction i generalizing r with
  | zero => exact h
  | succ i ih =>
    unfold isqrtFrom
    split
    · rename_i h2; exact ih _ h2
    · exact ih _ h

theorem lt_isqrtFrom (n i r : Nat) (h : n < (r + 2 ^ i) * (r + 2 ^ i)) :
    n < (isqrtFrom n i r + 1) * (isqrtFrom n i r + 1) := by
  induction i generalizing r with
  | zero => simpa [isqrtFrom] using h
  | succ i ih =>
    unfold isqrtFrom
    split
    · apply ih
      rwa [show r + 2 ^ i + 2 ^ i = r + 2 ^ (i + 1) by rw [pow_succ]; ring]
    · rename_i h2; exact ih _ (by omega)

theorem isqrt_le (n : Nat) : isqrt n * isqrt n ≤ n := isqrtFrom_le n _ 0 (Nat.zero_le _)

theorem lt_isqrt (n : Nat) : n < (isqrt n + 1) * (isqrt n + 1) := by
  apply lt_isqrtFrom
  have h1 : n < 2 ^ (n.log2 + 1) := Nat.lt_log2_self
  have h2 : n.log2 + 1 ≤ (n.log2 / 2 + 1) + (n.log2 / 2 + 1) := by omega
  calc n < 2 ^ (n.log2 + 1) := h1
    _ ≤ 2 ^ ((n.log2 / 2 + 1) + (n.log2 / 2 + 1)) := Nat.pow_le_pow_right (by omega) h2
    _ = (0 + 2 ^ (n.log2 / 2 + 1)) * (0 + 2 ^ (n.log2 / 2 + 1)) := by rw [pow_add]; ring

end Sys2Proof.Machine
end

