-- ==== Sys2Proof/Laws/Encl.lean ====
section
/-! SUPPORT. Enclosures enclose: each operation on enclosures holds what the operation on the reals gives, and the
enclosures of square roots, of the numbers of a level, of π and of the arctangent hold those reals. -/

namespace Sys2Proof.Machine

theorem cast_mkRat (a : Int) (b : Nat) : ((mkRat a b : Rat) : ℝ) = (a : ℝ) / (b : ℝ) := by
  rw [Rat.mkRat_eq_div]; push_cast; rfl

theorem resolution_pos : (0 : ℝ) < (resolution : ℝ) := by norm_num [resolution]

theorem roundDown_le (q : Rat) : ((roundDown q : Rat) : ℝ) ≤ q := by
  rw [roundDown, cast_mkRat, div_le_iff₀ resolution_pos]
  have h : ((q * resolution).floor : Rat) ≤ q * resolution := Int.floor_le _
  exact_mod_cast h

theorem le_roundUp (q : Rat) : (q : ℝ) ≤ (roundUp q : Rat) := by
  rw [roundUp, cast_mkRat, le_div_iff₀ resolution_pos]
  have h : q * resolution ≤ ((q * resolution).ceil : Rat) := by
    rw [Rat.ceil_eq_neg_floor_neg]
    have := Int.floor_le (-(q * resolution))
    push_cast
    have h2 : ((-(q * resolution)).floor : Rat) ≤ -(q * resolution) := this
    linarith
  exact_mod_cast h

theorem holds_point (q : Rat) : (Encl.point q).holds (q : ℝ) := ⟨le_refl _, le_refl _⟩

theorem holds_point_eq (q : Rat) (x : ℝ) (h : (Encl.point q).holds x) : x = q := le_antisymm h.2 h.1

theorem param_lo_le (p : RealParam) : (p.lo : ℝ) ≤ p.val := by
  cases p with
  | rat q => exact le_refl _
  | real lo hi k => exact le_max_left _ _

theorem param_le_hi (p : RealParam) : p.val ≤ p.hi := by
  cases p with
  | rat q => exact le_refl _
  | real lo hi k =>
    simp only [RealParam.val, RealParam.hi]
    split
    · rename_i h
      have h : (hi : ℝ) < lo := by exact_mod_cast h
      exact max_le (le_refl _) ((min_le_right _ _).trans h.le)
    · rename_i h
      have h : (lo : ℝ) ≤ hi := by exact_mod_cast not_lt.mp h
      exact max_le h (min_le_right _ _)

theorem holds_param (p : RealParam) : (Encl.param p).holds p.val := ⟨param_lo_le p, param_le_hi p⟩

/-! ### Points: a number known exactly stays so -/

theorem param_point (q : Rat) : Encl.param (.rat q) = .point q := rfl

theorem add_point (p q : Rat) : (Encl.point p).add (.point q) = .point (p + q) := rfl

theorem scale_point (q p : Rat) : (Encl.point p).scale q = .point (q * p) := by
  unfold Encl.scale Encl.point; split <;> rfl

theorem mul_point (p q : Rat) : (Encl.point p).mul (.point q) = .point (p * q) := by simp [Encl.mul, Encl.point]

theorem clamp_point (lo hi p : Rat) : (Encl.point p).clamp lo hi = .point (max lo (min p hi)) := rfl

/-! ### Sums, products and square roots -/

theorem holds_add {a b : Encl} {x y : ℝ} (ha : a.holds x) (hb : b.holds y) : (a.add b).holds (x + y) := by
  refine ⟨?_, ?_⟩ <;> simp only [Encl.add] <;> push_cast <;> linarith [ha.1, ha.2, hb.1, hb.2]

theorem holds_scale (q : Rat) {a : Encl} {x : ℝ} (ha : a.holds x) : (a.scale q).holds (q * x) := by
  unfold Encl.scale
  split
  · rename_i h
    have h' : (0 : ℝ) ≤ q := by exact_mod_cast Rat.num_nonneg.mp h
    refine ⟨?_, ?_⟩ <;> push_cast
    · exact mul_le_mul_of_nonneg_left ha.1 h'
    · exact mul_le_mul_of_nonneg_left ha.2 h'
  · rename_i h
    have h' : (q : ℝ) ≤ 0 := by
      have : q < 0 := Rat.num_neg.mp (not_le.mp h)
      exact_mod_cast this.le
    refine ⟨?_, ?_⟩ <;> push_cast
    · exact mul_le_mul_of_nonpos_left ha.2 h'
    · exact mul_le_mul_of_nonpos_left ha.1 h'

/-- A product with one factor between two numbers is between the two products. -/
theorem mul_between {l h x y : ℝ} (hl : l ≤ x) (hh : x ≤ h) : min (l * y) (h * y) ≤ x * y ∧ x * y ≤ max (l * y) (h * y) := by
  rcases le_total 0 y with hy | hy
  · exact ⟨min_le_of_left_le (mul_le_mul_of_nonneg_right hl hy), le_max_of_le_right (mul_le_mul_of_nonneg_right hh hy)⟩
  · exact ⟨min_le_of_right_le (mul_le_mul_of_nonpos_right hh hy), le_max_of_le_left (mul_le_mul_of_nonpos_right hl hy)⟩

theorem holds_mul {a b : Encl} {x y : ℝ} (ha : a.holds x) (hb : b.holds y) : (a.mul b).holds (x * y) := by
  have h0 := mul_between (y := y) ha.1 ha.2
  have h1 := mul_between (y := (a.lo : ℝ)) hb.1 hb.2
  have h2 := mul_between (y := (a.hi : ℝ)) hb.1 hb.2
  rw [mul_comm y, mul_comm (b.lo : ℝ), mul_comm (b.hi : ℝ)] at h1 h2
  refine ⟨?_, ?_⟩ <;> simp only [Encl.mul] <;> push_cast
  · exact le_trans (min_le_min h1.1 h2.1) h0.1
  · exact le_trans h0.2 (max_le_max h1.2 h2.2)

theorem holds_clamp (lo hi : Rat) {a : Encl} {x : ℝ} (ha : a.holds x) :
    (a.clamp lo hi).holds (clampReal x lo hi) := by
  refine ⟨?_, ?_⟩ <;> simp only [Encl.clamp, clampReal] <;> push_cast
  · exact max_le_max_left _ (min_le_min_right _ ha.1)
  · exact max_le_max_left _ (min_le_min_right _ ha.2)

theorem holds_round {a : Encl} {x : ℝ} (ha : a.holds x) : a.round.holds x := by
  unfold Encl.round
  split
  · exact ha
  · exact ⟨(roundDown_le _).trans ha.1, ha.2.trans (le_roundUp _)⟩

theorem toNat_floor_le (q : Rat) (h : 0 ≤ q) : (q.floor.toNat : ℝ) ≤ q := by
  have h1 : ((q.floor.toNat : Nat) : Int) = ⌊q⌋ := Int.toNat_of_nonneg (Int.floor_nonneg.mpr h)
  have h2 : ((q.floor.toNat : Nat) : ℝ) = ((⌊q⌋ : Int) : ℝ) := by rw [← h1]; norm_cast
  rw [h2]
  exact_mod_cast Int.floor_le q

theorem lt_toNat_floor (q : Rat) (h : 0 ≤ q) : (q : ℝ) < q.floor.toNat + 1 := by
  have h1 : ((q.floor.toNat : Nat) : Int) = ⌊q⌋ := Int.toNat_of_nonneg (Int.floor_nonneg.mpr h)
  have h2 : ((q.floor.toNat : Nat) : ℝ) = ((⌊q⌋ : Int) : ℝ) := by rw [← h1]; norm_cast
  rw [h2]
  exact_mod_cast Int.lt_floor_add_one q

theorem sqrtDown_le (q : Rat) (h : 0 ≤ q) : ((sqrtDown q : Rat) : ℝ) ≤ √(q : ℝ) := by
  have hR := resolution_pos
  rw [sqrtDown, cast_mkRat, div_le_iff₀ hR]
  have hq : 0 ≤ q * resolution * resolution := by positivity
  have h1 : ((isqrt (q * resolution * resolution).floor.toNat : ℝ)) ^ 2 ≤ (q : ℝ) * resolution * resolution := by
    have ha := isqrt_le (q * resolution * resolution).floor.toNat
    have hc := toNat_floor_le _ hq
    push_cast at hc
    rw [pow_two]
    refine le_trans ?_ hc
    exact_mod_cast ha
  have h2 : (0 : ℝ) ≤ q := by exact_mod_cast h
  push_cast
  rw [← Real.sqrt_sq hR.le, ← Real.sqrt_mul h2, pow_two, ← mul_assoc]
  exact Real.le_sqrt_of_sq_le h1

theorem le_sqrtUp (q : Rat) (h : 0 ≤ q) : √(q : ℝ) ≤ (sqrtUp q : Rat) := by
  have hR := resolution_pos
  rw [sqrtUp, cast_mkRat, le_div_iff₀ hR]
  have hq : 0 ≤ q * resolution * resolution := by positivity
  have h1 : (q : ℝ) * resolution * resolution < ((isqrt (q * resolution * resolution).floor.toNat : ℝ) + 1) ^ 2 := by
    have ha := lt_isqrt (q * resolution * resolution).floor.toNat
    have hc := lt_toNat_floor _ hq
    push_cast at hc
    refine lt_of_lt_of_le hc ?_
    rw [pow_two]
    exact_mod_cast ha
  have h2 : (0 : ℝ) ≤ q := by exact_mod_cast h
  push_cast
  rw [← Real.sqrt_sq hR.le, ← Real.sqrt_mul h2, pow_two, ← mul_assoc]
  exact Real.sqrt_le_iff.mpr ⟨by positivity, h1.le⟩

theorem holds_sqrt {a : Encl} {x : ℝ} (ha : a.holds x) : a.sqrt.holds √x := by
  refine ⟨?_, ?_⟩ <;> simp only [Encl.sqrt]
  · refine le_trans (sqrtDown_le _ (le_max_left _ _)) ?_
    push_cast
    rcases le_total (a.lo : ℝ) 0 with h | h
    · rw [max_eq_left h, Real.sqrt_zero]; exact Real.sqrt_nonneg _
    · rw [max_eq_right h]; exact Real.sqrt_le_sqrt ha.1
  · refine le_trans (Real.sqrt_le_sqrt ?_) (le_sqrtUp _ (le_max_left _ _))
    push_cast
    exact le_max_of_le_right ha.2

theorem holds_gammaEncl (l : Nat) : (gammaEncl l).holds (gammaReal l) := by
  induction l with
  | zero => simpa [gammaEncl, gammaReal] using holds_point 0
  | succ l ih =>
    refine holds_sqrt ?_
    have := holds_add (holds_point 2) ih
    simpa using this

theorem holds_encl (l : Nat) (x : Alg) : (x.encl l).holds (x.val l) := by
  induction l generalizing x with
  | zero => rw [val_zero_eq]; exact holds_point _
  | succ l ih =>
    cases x with
    | rat q => simpa [Alg.encl] using holds_point q
    | ext a b => exact holds_add (ih a) (holds_mul (ih b) (holds_gammaEncl _))

theorem holds_magEncl (l : Nat) (m : Mag) : (m.encl l).holds (m.val l) := by
  cases m with
  | exact y => exact holds_round (holds_encl l y)
  | root r => exact holds_sqrt (holds_encl l r)

/-! ### π and the arctangent -/

theorem holds_piEncl : piEncl.holds Real.pi := by
  refine ⟨?_, ?_⟩ <;> simp only [piEncl, cast_mkRat]
  · have := Real.pi_gt_d20; push_cast; norm_num at this ⊢; linarith
  · have := Real.pi_lt_d20; push_cast; norm_num at this ⊢; linarith

/-- The partial sums of the arctangent's series over the reals. -/
noncomputable def atanSumReal (x : ℝ) (k : Nat) : ℝ := ∑ i ∈ Finset.range k, (-1) ^ i * x ^ (2 * i + 1) / (2 * i + 1)

theorem cast_atanSum (x : Rat) (k : Nat) : ((atanSum x k : Rat) : ℝ) = atanSumReal x k := by
  induction k with
  | zero => simp [atanSum, atanSumReal]
  | succ k ih =>
    rw [atanSum, atanSumReal, Finset.sum_range_succ, ← atanSumReal, ← ih]
    push_cast
    rw [cast_mkRat]
    have hs : (((if k % 2 = 0 then 1 else -1 : Rat)) : ℝ) = (-1) ^ k := by
      split
      · rename_i h; rw [Even.neg_one_pow (Nat.even_iff.mpr h)]; simp
      · rename_i h
        rw [Odd.neg_one_pow (Nat.odd_iff.mpr (by omega))]; simp
    rw [hs]; push_cast; ring

theorem hasDerivAt_atanSumReal (x : ℝ) (k : Nat) :
    HasDerivAt (fun y => atanSumReal y k) (∑ i ∈ Finset.range k, (-(x ^ 2)) ^ i) x := by
  refine HasDerivAt.fun_sum fun i _ => ?_
  refine (((hasDerivAt_pow (2 * i + 1) x).const_mul ((-1 : ℝ) ^ i)).div_const (2 * (i : ℝ) + 1)).congr_deriv ?_
  have h2 : (2 * (i : ℝ) + 1) ≠ 0 := by positivity
  rw [div_eq_iff h2, neg_pow (x ^ 2) i, ← pow_mul]
  push_cast
  ring

theorem hasDerivAt_gap (x : ℝ) (k : Nat) :
    HasDerivAt (fun y => Real.arctan y - atanSumReal y k) ((-(x ^ 2)) ^ k / (1 + x ^ 2)) x := by
  refine ((Real.hasDerivAt_arctan x).fun_sub (hasDerivAt_atanSumReal x k)).congr_deriv ?_
  have h1 : (-(x ^ 2)) ≠ 1 := by nlinarith [sq_nonneg x]
  have h2 : (1 + x ^ 2) ≠ 0 := by positivity
  have h3 : -(x ^ 2) - 1 ≠ 0 := sub_ne_zero.mpr h1
  rw [geom_sum_eq h1, show -(x ^ 2) - 1 = -(1 + x ^ 2) by ring, div_neg, sub_neg_eq_add, ← add_div]
  ring

theorem atanSumReal_zero (k : Nat) : atanSumReal 0 k = 0 := by simp [atanSumReal]

theorem atanSum_even_le (x : ℝ) (hx : 0 ≤ x) (k : Nat) (hk : Even k) : atanSumReal x k ≤ Real.arctan x := by
  have hm : Monotone fun y => Real.arctan y - atanSumReal y k :=
    monotone_of_deriv_nonneg (fun y => (hasDerivAt_gap y k).differentiableAt) fun y => by
      rw [(hasDerivAt_gap y k).deriv]
      have := hk.pow_nonneg (-(y ^ 2))
      positivity
  have := hm hx
  simp only [Real.arctan_zero, atanSumReal_zero, sub_self] at this
  linarith

theorem le_atanSum_odd (x : ℝ) (hx : 0 ≤ x) (k : Nat) (hk : Odd k) : Real.arctan x ≤ atanSumReal x k := by
  have hm : Antitone fun y => Real.arctan y - atanSumReal y k :=
    antitone_of_deriv_nonpos (fun y => (hasDerivAt_gap y k).differentiableAt) fun y => by
      rw [(hasDerivAt_gap y k).deriv]
      have := hk.pow_nonpos (neg_nonpos.mpr (sq_nonneg y))
      exact div_nonpos_of_nonpos_of_nonneg this (by positivity)
  have := hm hx
  simp only [Real.arctan_zero, atanSumReal_zero, sub_self] at this
  linarith

theorem holds_atanTurns {a : Encl} {r : ℝ} (ha : a.holds r) (h0 : 0 ≤ r) (h1 : r ≤ 1) :
    (atanTurns a).holds (Real.arctan r / Real.pi) := by
  have hpi := holds_piEncl
  have hpos : (0 : ℝ) < piEncl.lo := by norm_num [piEncl, cast_mkRat]
  have hat : 0 ≤ Real.arctan r := Real.arctan_nonneg.mpr h0
  refine holds_round ⟨?_, ?_⟩
  · push_cast
    rw [cast_atanSum]
    push_cast
    have hlo : max 0 ((roundDown a.lo : Rat) : ℝ) ≤ r := max_le h0 ((roundDown_le _).trans ha.1)
    have hs := atanSum_even_le (max 0 ((roundDown a.lo : Rat) : ℝ)) (le_max_left _ _) 28 (by decide)
    have hm := Real.arctan_mono hlo
    calc atanSumReal (max 0 ((roundDown a.lo : Rat) : ℝ)) 28 / (piEncl.hi : ℝ)
        ≤ Real.arctan r / piEncl.hi := by
          apply div_le_div_of_nonneg_right (hs.trans hm)
          linarith [hpi.1, hpi.2]
      _ ≤ Real.arctan r / Real.pi := div_le_div_of_nonneg_left hat Real.pi_pos hpi.2
  · push_cast
    rw [cast_atanSum]
    push_cast
    have hhi : r ≤ min 1 ((roundUp a.hi : Rat) : ℝ) := le_min h1 (ha.2.trans (le_roundUp _))
    have hs := le_atanSum_odd (min 1 ((roundUp a.hi : Rat) : ℝ)) (h0.trans hhi) 29 (by decide)
    have hm := Real.arctan_mono hhi
    calc Real.arctan r / Real.pi ≤ Real.arctan r / piEncl.lo := div_le_div_of_nonneg_left hat hpos hpi.1
      _ ≤ atanSumReal (min 1 ((roundUp a.hi : Rat) : ℝ)) 29 / piEncl.lo :=
          div_le_div_of_nonneg_right (hm.trans hs) hpos.le

end Sys2Proof.Machine
end

