-- ==== Sys2Proof/Laws/Angle.lean ====
section
/-! SUPPORT. The enclosure of an angle holds it: octants, quadrants and the whole turn. -/

namespace Sys2Proof.Machine

/-- The angle of a point given in polar form. -/
theorem arg_of_polar {r t x y : ℝ} (hr : 0 < r) (ht : -Real.pi < t ∧ t ≤ Real.pi) (hx : x = r * Real.cos t)
    (hy : y = r * Real.sin t) : Complex.arg ⟨x, y⟩ = t := by
  have := Complex.arg_mul_cos_add_sin_mul_I hr (θ := t) ht
  rw [← this]
  congr 1
  apply Complex.ext
  · simp [hx, Complex.cos_ofReal_re]
  · simp [hy, Complex.sin_ofReal_re]

theorem arg_of_pos {x y : ℝ} (hx : 0 < x) : Complex.arg ⟨x, y⟩ = Real.arctan (y / x) := by
  have h := Complex.abs_arg_lt_pi_div_two_iff.mpr (.inl hx : 0 < (⟨x, y⟩ : ℂ).re ∨ (⟨x, y⟩ : ℂ) = 0)
  rw [← Real.arctan_tan (abs_lt.mp h).1 (abs_lt.mp h).2, Complex.tan_arg]

theorem arg_of_gt {x y : ℝ} (hx : 0 < x) (hy : 0 < y) :
    Complex.arg ⟨x, y⟩ = Real.pi / 2 - Real.arctan (x / y) := by
  rw [arg_of_pos hx, ← Real.arctan_inv_of_pos (div_pos hx hy), inv_div]

/-- The polar form of the point with absolute coordinates. -/
theorem arg_abs {x y : ℝ} (h : x ≠ 0 ∨ y ≠ 0) : ∃ r t, 0 < r ∧ |x| = r * Real.cos t ∧ |y| = r * Real.sin t ∧
    Complex.arg ⟨|x|, |y|⟩ = t ∧ 0 ≤ t ∧ t ≤ Real.pi / 2 ∧ (y ≠ 0 → 0 < t) := by
  have hz : (⟨|x|, |y|⟩ : ℂ) ≠ 0 := by
    intro h0
    have h1 := congrArg Complex.re h0
    have h2 := congrArg Complex.im h0
    simp only [Complex.zero_re, Complex.zero_im, abs_eq_zero] at h1 h2
    tauto
  refine ⟨‖(⟨|x|, |y|⟩ : ℂ)‖, Complex.arg ⟨|x|, |y|⟩, norm_pos_iff.mpr hz, (Complex.norm_mul_cos_arg ⟨|x|, |y|⟩).symm,
    (Complex.norm_mul_sin_arg ⟨|x|, |y|⟩).symm, rfl, Complex.arg_nonneg_iff.mpr (abs_nonneg y), ?_, fun hy => ?_⟩
  · exact (abs_le.mp (Complex.abs_arg_le_pi_div_two_iff.mpr (abs_nonneg x))).2
  · refine lt_of_le_of_ne (Complex.arg_nonneg_iff.mpr (abs_nonneg y)) fun h0 => hy ?_
    have := (Complex.arg_eq_zero_iff.mp h0.symm).2
    exact abs_eq_zero.mp this

theorem arctan_fold {r w : ℝ} (h0 : 0 < r) (hw : w * (1 + r) = 1 - r) (h1 : r ≤ 1) :
    Real.arctan r = Real.pi / 4 - Real.arctan w := by
  have hw0 : 0 ≤ w := by
    by_contra hn
    have : w * (1 + r) < 0 := mul_neg_of_neg_of_pos (not_le.mp hn) (by linarith)
    linarith
  have hlt : r * w < 1 := by nlinarith
  have := Real.arctan_add hlt
  have h2 : (r + w) / (1 - r * w) = 1 := by
    rw [div_eq_one_iff_eq (by linarith)]
    linarith
  rw [h2, Real.arctan_one] at this
  linarith

theorem arctan_turns_bound {r : ℝ} (h0 : 0 ≤ r) (h1 : r ≤ 1) :
    0 ≤ Real.arctan r / Real.pi ∧ Real.arctan r / Real.pi ≤ 1 / 4 := by
  refine ⟨div_nonneg (Real.arctan_nonneg.mpr h0) Real.pi_pos.le, ?_⟩
  rw [div_le_iff₀ Real.pi_pos]
  have := Real.arctan_mono h1
  rw [Real.arctan_one] at this
  linarith

theorem holds_quarter {r : ℝ} (h0 : 0 ≤ r) (h1 : r ≤ 1) : (⟨0, 1 / 4⟩ : Encl).holds (Real.arctan r / Real.pi) := by
  have := arctan_turns_bound h0 h1
  refine ⟨?_, ?_⟩ <;> push_cast
  · exact this.1
  · linarith [this.2]

theorem holds_octantTurns (l : Nat) (x y : Alg) (hy : 0 < y.val l) (hxy : y.val l ≤ x.val l) :
    (octantTurns l x y).holds (Real.arctan (y.val l / x.val l) / Real.pi) := by
  have hx : 0 < x.val l := hy.trans_le hxy
  have h0 : 0 < y.val l / x.val l := div_pos hy hx
  have h1 : y.val l / x.val l ≤ 1 := (div_le_one hx).mpr hxy
  unfold octantTurns
  split
  · exact holds_quarter h0.le h1
  · rename_i r hr
    have hrv : r.val l = y.val l / x.val l := by
      rw [eq_div_iff hx.ne']
      exact ratio?_val l y x r hr
    split
    · exact holds_atanTurns (hrv ▸ holds_encl l r) h0.le h1
    · split
      · exact holds_quarter h0.le h1
      · rename_i w hw
        have hwv := ratio?_val l _ _ w hw
        rw [val_sub, val_add] at hwv
        have hw2 : w.val l * (1 + y.val l / x.val l) = 1 - y.val l / x.val l := by
          field_simp
          linarith
        have hw0 : 0 ≤ w.val l := by
          by_contra hn
          have : w.val l * (1 + y.val l / x.val l) < 0 := mul_neg_of_neg_of_pos (not_le.mp hn) (by linarith)
          linarith
        have hw1 : w.val l ≤ 1 := by nlinarith
        have h2 := holds_add (holds_point (1 / 4)) (holds_scale (-1) (holds_atanTurns (holds_encl l w) hw0 hw1))
        rw [arctan_fold h0 hw2 h1]
        have : (Real.pi / 4 - Real.arctan (w.val l)) / Real.pi
            = ((1 / 4 : Rat) : ℝ) + ((-1 : Rat) : ℝ) * (Real.arctan (w.val l) / Real.pi) := by
          have := Real.pi_ne_zero
          push_cast; field_simp; ring
        rw [this]
        exact h2

theorem holds_quadrantTurns (l : Nat) (x y : Alg) (hx : 0 ≤ x.val l) (hy : 0 ≤ y.val l) :
    (quadrantTurns l x y).holds (Complex.arg ⟨x.val l, y.val l⟩ / Real.pi) := by
  have hpi := Real.pi_ne_zero
  unfold quadrantTurns
  split
  · rename_i h0
    rw [sign_eq_zero] at h0
    rw [Complex.arg_eq_zero_iff.mpr ⟨hx, h0⟩, zero_div]
    simpa using holds_point 0
  · rename_i hy0
    rw [sign_eq_zero] at hy0
    have hy' : 0 < y.val l := lt_of_le_of_ne hy (Ne.symm hy0)
    split
    · rename_i h0
      rw [sign_eq_zero] at h0
      rw [Complex.arg_eq_pi_div_two_iff.mpr ⟨h0, hy'⟩]
      have := holds_point (1 / 2)
      have h2 : Real.pi / 2 / Real.pi = ((1 / 2 : Rat) : ℝ) := by push_cast; field_simp
      rw [h2]; exact this
    · rename_i hx0
      rw [sign_eq_zero] at hx0
      have hx' : 0 < x.val l := lt_of_le_of_ne hx (Ne.symm hx0)
      split
      · rename_i hs
        rw [sign_nonneg_iff, val_sub] at hs
        rw [arg_of_pos hx']
        exact holds_octantTurns l x y hy' (by linarith)
      · rename_i hs
        rw [sign_nonneg_iff, val_sub] at hs
        rw [arg_of_gt hx' hy']
        have := holds_add (holds_point (1 / 2)) (holds_scale (-1) (holds_octantTurns l y x hx' (by linarith)))
        have h2 : (Real.pi / 2 - Real.arctan (x.val l / y.val l)) / Real.pi
            = ((1 / 2 : Rat) : ℝ) + ((-1 : Rat) : ℝ) * (Real.arctan (x.val l / y.val l) / Real.pi) := by
          push_cast; field_simp; ring
        rw [h2]; exact this

theorem holds_turns_ne (l : Nat) (re im : Alg) (h : re.val l ≠ 0 ∨ im.val l ≠ 0) :
    (turns l re im).holds (Complex.arg ⟨re.val l, im.val l⟩ / Real.pi) := by
  have hpi := Real.pi_ne_zero
  have hpos := Real.pi_pos
  obtain ⟨r, t, hr, hc, hs, ht, h0, h1, hyt⟩ := arg_abs h
  have hq := holds_quadrantTurns l (re.abs l) (im.abs l) (by simp) (by simp)
  rw [val_abs, val_abs, ht] at hq
  unfold turns
  split
  · rename_i hre
    rw [sign_neg_iff] at hre
    rw [abs_of_neg hre] at hc
    split
    · rename_i him
      rw [sign_neg_iff] at him
      rw [abs_of_neg him] at hs
      have := hyt him.ne
      rw [arg_of_polar (t := t - Real.pi) hr ⟨by linarith, by linarith⟩
        (by rw [Real.cos_sub_pi]; linarith) (by rw [Real.sin_sub_pi]; linarith)]
      have h2 : (t - Real.pi) / Real.pi = ((-1 : Rat) : ℝ) + t / Real.pi := by push_cast; field_simp; ring
      rw [h2]
      exact holds_add (holds_point (-1)) hq
    · rename_i him
      rw [sign_neg_iff, not_lt] at him
      rw [abs_of_nonneg him] at hs
      rw [arg_of_polar (t := Real.pi - t) hr ⟨by linarith, by linarith⟩
        (by rw [Real.cos_pi_sub]; linarith) (by rw [Real.sin_pi_sub]; linarith)]
      have h2 : (Real.pi - t) / Real.pi = ((1 : Rat) : ℝ) + ((-1 : Rat) : ℝ) * (t / Real.pi) := by
        push_cast; field_simp; ring
      rw [h2]
      exact holds_add (holds_point 1) (holds_scale (-1) hq)
  · rename_i hre
    rw [sign_neg_iff, not_lt] at hre
    rw [abs_of_nonneg hre] at hc
    split
    · rename_i him
      rw [sign_neg_iff] at him
      rw [abs_of_neg him] at hs
      rw [arg_of_polar (t := -t) hr ⟨by linarith, by linarith⟩
        (by rw [Real.cos_neg]; linarith) (by rw [Real.sin_neg]; linarith)]
      have h2 : -t / Real.pi = ((-1 : Rat) : ℝ) * (t / Real.pi) := by push_cast; ring
      rw [h2]
      exact holds_scale (-1) hq
    · rename_i him
      rw [sign_neg_iff, not_lt] at him
      rw [abs_of_nonneg him] at hs
      rw [arg_of_polar (t := t) hr ⟨by linarith, by linarith⟩ hc hs]
      exact hq

/-- The enclosure of an angle holds it, at the origin too, where the angle is 0. -/
theorem holds_turns (l : Nat) (re im : Alg) :
    (turns l re im).holds (Complex.arg ⟨re.val l, im.val l⟩ / Real.pi) := by
  by_cases h : re.val l ≠ 0 ∨ im.val l ≠ 0
  · exact holds_turns_ne l re im h
  · rw [not_or, not_not, not_not] at h
    have h1 : Alg.sign l (im.abs l) = 0 := by rw [sign_eq_zero]; simp [h.2]
    have h2 : ¬Alg.sign l re < 0 := by rw [sign_neg_iff, h.1]; simp
    have h3 : ¬Alg.sign l im < 0 := by rw [sign_neg_iff, h.2]; simp
    rw [turns, if_neg h2, if_neg h3, quadrantTurns, if_pos h1, Complex.arg_eq_zero_iff.mpr ⟨h.1.ge, h.2⟩, zero_div]
    simpa using holds_point 0

end Sys2Proof.Machine
end

