-- ==== Sys2Proof/Laws/State.lean ====
section
/-! SUPPORT. One lemma per field per update of the state: what each named operation leaves in each field. -/

namespace Sys2Proof.Machine

/-! ### emit -/

@[simp] theorem emit_cfg (e : Event) (s : State) : (emit e s).cfg = s.cfg := rfl
@[simp] theorem emit_input (e : Event) (s : State) : (emit e s).input = s.input := rfl
@[simp] theorem emit_outputs (e : Event) (s : State) : (emit e s).outputs = s.outputs ++ [e] := rfl
@[simp] theorem emit_modeSel (e : Event) (s : State) : (emit e s).modeSel = s.modeSel := rfl
@[simp] theorem emit_constValid (e : Event) (s : State) : (emit e s).constValid = s.constValid := rfl
@[simp] theorem emit_constColor (e : Event) (s : State) : (emit e s).constColor = s.constColor := rfl
@[simp] theorem emit_ledDrvEn (e : Event) (s : State) : (emit e s).ledDrvEn = s.ledDrvEn := rfl
@[simp] theorem emit_alarmState (e : Event) (s : State) : (emit e s).alarmState = s.alarmState := rfl
@[simp] theorem emit_alarmSaved (e : Event) (s : State) : (emit e s).alarmSaved = s.alarmSaved := rfl
@[simp] theorem emit_testActive (e : Event) (s : State) : (emit e s).testActive = s.testActive := rfl
@[simp] theorem emit_patSel (e : Event) (s : State) : (emit e s).patSel = s.patSel := rfl
@[simp] theorem emit_patPos (e : Event) (s : State) : (emit e s).patPos = s.patPos := rfl
@[simp] theorem emit_patTimerRun (e : Event) (s : State) : (emit e s).patTimerRun = s.patTimerRun := rfl
@[simp] theorem emit_freqTimerRun (e : Event) (s : State) : (emit e s).freqTimerRun = s.freqTimerRun := rfl
@[simp] theorem emit_toneFreq (e : Event) (s : State) : (emit e s).toneFreq = s.toneFreq := rfl
@[simp] theorem emit_tonePhase (e : Event) (s : State) : (emit e s).tonePhase = s.tonePhase := rfl
@[simp] theorem emit_pwmEn (e : Event) (s : State) : (emit e s).pwmEn = s.pwmEn := rfl
@[simp] theorem emit_pwmDuty (e : Event) (s : State) : (emit e s).pwmDuty = s.pwmDuty := rfl
@[simp] theorem emit_radioHiz (e : Event) (s : State) : (emit e s).radioHiz = s.radioHiz := rfl
@[simp] theorem emit_encState (e : Event) (s : State) : (emit e s).encState = s.encState := rfl
@[simp] theorem emit_cbCw (e : Event) (s : State) : (emit e s).cbCw = s.cbCw := rfl
@[simp] theorem emit_cbCcw (e : Event) (s : State) : (emit e s).cbCcw = s.cbCcw := rfl
@[simp] theorem emit_buttons (e : Event) (s : State) : (emit e s).buttons = s.buttons := rfl
@[simp] theorem emit_pipePhase (e : Event) (s : State) : (emit e s).pipePhase = s.pipePhase := rfl
@[simp] theorem emit_pipeIdx (e : Event) (s : State) : (emit e s).pipeIdx = s.pipeIdx := rfl
@[simp] theorem emit_pipeMode (e : Event) (s : State) : (emit e s).pipeMode = s.pipeMode := rfl
@[simp] theorem emit_x (e : Event) (s : State) : (emit e s).x = s.x := rfl
@[simp] theorem emit_re (e : Event) (s : State) : (emit e s).re = s.re := rfl
@[simp] theorem emit_im (e : Event) (s : State) : (emit e s).im = s.im := rfl
@[simp] theorem emit_mag (e : Event) (s : State) : (emit e s).mag = s.mag := rfl
@[simp] theorem emit_ph (e : Event) (s : State) : (emit e s).ph = s.ph := rfl

/-! ### emitIf -/

@[simp] theorem emitIf_cfg (b : Bool) (e : Event) (s : State) : (emitIf b e s).cfg = s.cfg := by cases b <;> rfl
@[simp] theorem emitIf_input (b : Bool) (e : Event) (s : State) : (emitIf b e s).input = s.input := by cases b <;> rfl
@[simp] theorem emitIf_modeSel (b : Bool) (e : Event) (s : State) : (emitIf b e s).modeSel = s.modeSel := by cases b <;> rfl
@[simp] theorem emitIf_constValid (b : Bool) (e : Event) (s : State) : (emitIf b e s).constValid = s.constValid := by cases b <;> rfl
@[simp] theorem emitIf_constColor (b : Bool) (e : Event) (s : State) : (emitIf b e s).constColor = s.constColor := by cases b <;> rfl
@[simp] theorem emitIf_ledDrvEn (b : Bool) (e : Event) (s : State) : (emitIf b e s).ledDrvEn = s.ledDrvEn := by cases b <;> rfl
@[simp] theorem emitIf_alarmState (b : Bool) (e : Event) (s : State) : (emitIf b e s).alarmState = s.alarmState := by cases b <;> rfl
@[simp] theorem emitIf_alarmSaved (b : Bool) (e : Event) (s : State) : (emitIf b e s).alarmSaved = s.alarmSaved := by cases b <;> rfl
@[simp] theorem emitIf_testActive (b : Bool) (e : Event) (s : State) : (emitIf b e s).testActive = s.testActive := by cases b <;> rfl
@[simp] theorem emitIf_patSel (b : Bool) (e : Event) (s : State) : (emitIf b e s).patSel = s.patSel := by cases b <;> rfl
@[simp] theorem emitIf_patPos (b : Bool) (e : Event) (s : State) : (emitIf b e s).patPos = s.patPos := by cases b <;> rfl
@[simp] theorem emitIf_patTimerRun (b : Bool) (e : Event) (s : State) : (emitIf b e s).patTimerRun = s.patTimerRun := by cases b <;> rfl
@[simp] theorem emitIf_freqTimerRun (b : Bool) (e : Event) (s : State) : (emitIf b e s).freqTimerRun = s.freqTimerRun := by cases b <;> rfl
@[simp] theorem emitIf_toneFreq (b : Bool) (e : Event) (s : State) : (emitIf b e s).toneFreq = s.toneFreq := by cases b <;> rfl
@[simp] theorem emitIf_tonePhase (b : Bool) (e : Event) (s : State) : (emitIf b e s).tonePhase = s.tonePhase := by cases b <;> rfl
@[simp] theorem emitIf_pwmEn (b : Bool) (e : Event) (s : State) : (emitIf b e s).pwmEn = s.pwmEn := by cases b <;> rfl
@[simp] theorem emitIf_pwmDuty (b : Bool) (e : Event) (s : State) : (emitIf b e s).pwmDuty = s.pwmDuty := by cases b <;> rfl
@[simp] theorem emitIf_radioHiz (b : Bool) (e : Event) (s : State) : (emitIf b e s).radioHiz = s.radioHiz := by cases b <;> rfl
@[simp] theorem emitIf_encState (b : Bool) (e : Event) (s : State) : (emitIf b e s).encState = s.encState := by cases b <;> rfl
@[simp] theorem emitIf_cbCw (b : Bool) (e : Event) (s : State) : (emitIf b e s).cbCw = s.cbCw := by cases b <;> rfl
@[simp] theorem emitIf_cbCcw (b : Bool) (e : Event) (s : State) : (emitIf b e s).cbCcw = s.cbCcw := by cases b <;> rfl
@[simp] theorem emitIf_buttons (b : Bool) (e : Event) (s : State) : (emitIf b e s).buttons = s.buttons := by cases b <;> rfl
@[simp] theorem emitIf_pipePhase (b : Bool) (e : Event) (s : State) : (emitIf b e s).pipePhase = s.pipePhase := by cases b <;> rfl
@[simp] theorem emitIf_pipeIdx (b : Bool) (e : Event) (s : State) : (emitIf b e s).pipeIdx = s.pipeIdx := by cases b <;> rfl
@[simp] theorem emitIf_pipeMode (b : Bool) (e : Event) (s : State) : (emitIf b e s).pipeMode = s.pipeMode := by cases b <;> rfl
@[simp] theorem emitIf_x (b : Bool) (e : Event) (s : State) : (emitIf b e s).x = s.x := by cases b <;> rfl
@[simp] theorem emitIf_re (b : Bool) (e : Event) (s : State) : (emitIf b e s).re = s.re := by cases b <;> rfl
@[simp] theorem emitIf_im (b : Bool) (e : Event) (s : State) : (emitIf b e s).im = s.im := by cases b <;> rfl
@[simp] theorem emitIf_mag (b : Bool) (e : Event) (s : State) : (emitIf b e s).mag = s.mag := by cases b <;> rfl
@[simp] theorem emitIf_ph (b : Bool) (e : Event) (s : State) : (emitIf b e s).ph = s.ph := by cases b <;> rfl

/-! ### fireIf -/

@[simp] theorem fireIf_cfg (b : Bool) (cb : Option Handle) (k : Handle → Event) (s : State) : (fireIf b cb k s).cfg = s.cfg := by cases cb <;> cases b <;> rfl
@[simp] theorem fireIf_input (b : Bool) (cb : Option Handle) (k : Handle → Event) (s : State) : (fireIf b cb k s).input = s.input := by cases cb <;> cases b <;> rfl
@[simp] theorem fireIf_modeSel (b : Bool) (cb : Option Handle) (k : Handle → Event) (s : State) : (fireIf b cb k s).modeSel = s.modeSel := by cases cb <;> cases b <;> rfl
@[simp] theorem fireIf_constValid (b : Bool) (cb : Option Handle) (k : Handle → Event) (s : State) : (fireIf b cb k s).constValid = s.constValid := by cases cb <;> cases b <;> rfl
@[simp] theorem fireIf_constColor (b : Bool) (cb : Option Handle) (k : Handle → Event) (s : State) : (fireIf b cb k s).constColor = s.constColor := by cases cb <;> cases b <;> rfl
@[simp] theorem fireIf_ledDrvEn (b : Bool) (cb : Option Handle) (k : Handle → Event) (s : State) : (fireIf b cb k s).ledDrvEn = s.ledDrvEn := by cases cb <;> cases b <;> rfl
@[simp] theorem fireIf_alarmState (b : Bool) (cb : Option Handle) (k : Handle → Event) (s : State) : (fireIf b cb k s).alarmState = s.alarmState := by cases cb <;> cases b <;> rfl
@[simp] theorem fireIf_alarmSaved (b : Bool) (cb : Option Handle) (k : Handle → Event) (s : State) : (fireIf b cb k s).alarmSaved = s.alarmSaved := by cases cb <;> cases b <;> rfl
@[simp] theorem fireIf_testActive (b : Bool) (cb : Option Handle) (k : Handle → Event) (s : State) : (fireIf b cb k s).testActive = s.testActive := by cases cb <;> cases b <;> rfl
@[simp] theorem fireIf_patSel (b : Bool) (cb : Option Handle) (k : Handle → Event) (s : State) : (fireIf b cb k s).patSel = s.patSel := by cases cb <;> cases b <;> rfl
@[simp] theorem fireIf_patPos (b : Bool) (cb : Option Handle) (k : Handle → Event) (s : State) : (fireIf b cb k s).patPos = s.patPos := by cases cb <;> cases b <;> rfl
@[simp] theorem fireIf_patTimerRun (b : Bool) (cb : Option Handle) (k : Handle → Event) (s : State) : (fireIf b cb k s).patTimerRun = s.patTimerRun := by cases cb <;> cases b <;> rfl
@[simp] theorem fireIf_freqTimerRun (b : Bool) (cb : Option Handle) (k : Handle → Event) (s : State) : (fireIf b cb k s).freqTimerRun = s.freqTimerRun := by cases cb <;> cases b <;> rfl
@[simp] theorem fireIf_toneFreq (b : Bool) (cb : Option Handle) (k : Handle → Event) (s : State) : (fireIf b cb k s).toneFreq = s.toneFreq := by cases cb <;> cases b <;> rfl
@[simp] theorem fireIf_tonePhase (b : Bool) (cb : Option Handle) (k : Handle → Event) (s : State) : (fireIf b cb k s).tonePhase = s.tonePhase := by cases cb <;> cases b <;> rfl
@[simp] theorem fireIf_pwmEn (b : Bool) (cb : Option Handle) (k : Handle → Event) (s : State) : (fireIf b cb k s).pwmEn = s.pwmEn := by cases cb <;> cases b <;> rfl
@[simp] theorem fireIf_pwmDuty (b : Bool) (cb : Option Handle) (k : Handle → Event) (s : State) : (fireIf b cb k s).pwmDuty = s.pwmDuty := by cases cb <;> cases b <;> rfl
@[simp] theorem fireIf_radioHiz (b : Bool) (cb : Option Handle) (k : Handle → Event) (s : State) : (fireIf b cb k s).radioHiz = s.radioHiz := by cases cb <;> cases b <;> rfl
@[simp] theorem fireIf_encState (b : Bool) (cb : Option Handle) (k : Handle → Event) (s : State) : (fireIf b cb k s).encState = s.encState := by cases cb <;> cases b <;> rfl
@[simp] theorem fireIf_cbCw (b : Bool) (cb : Option Handle) (k : Handle → Event) (s : State) : (fireIf b cb k s).cbCw = s.cbCw := by cases cb <;> cases b <;> rfl
@[simp] theorem fireIf_cbCcw (b : Bool) (cb : Option Handle) (k : Handle → Event) (s : State) : (fireIf b cb k s).cbCcw = s.cbCcw := by cases cb <;> cases b <;> rfl
@[simp] theorem fireIf_buttons (b : Bool) (cb : Option Handle) (k : Handle → Event) (s : State) : (fireIf b cb k s).buttons = s.buttons := by cases cb <;> cases b <;> rfl
@[simp] theorem fireIf_pipePhase (b : Bool) (cb : Option Handle) (k : Handle → Event) (s : State) : (fireIf b cb k s).pipePhase = s.pipePhase := by cases cb <;> cases b <;> rfl
@[simp] theorem fireIf_pipeIdx (b : Bool) (cb : Option Handle) (k : Handle → Event) (s : State) : (fireIf b cb k s).pipeIdx = s.pipeIdx := by cases cb <;> cases b <;> rfl
@[simp] theorem fireIf_pipeMode (b : Bool) (cb : Option Handle) (k : Handle → Event) (s : State) : (fireIf b cb k s).pipeMode = s.pipeMode := by cases cb <;> cases b <;> rfl
@[simp] theorem fireIf_x (b : Bool) (cb : Option Handle) (k : Handle → Event) (s : State) : (fireIf b cb k s).x = s.x := by cases cb <;> cases b <;> rfl
@[simp] theorem fireIf_re (b : Bool) (cb : Option Handle) (k : Handle → Event) (s : State) : (fireIf b cb k s).re = s.re := by cases cb <;> cases b <;> rfl
@[simp] theorem fireIf_im (b : Bool) (cb : Option Handle) (k : Handle → Event) (s : State) : (fireIf b cb k s).im = s.im := by cases cb <;> cases b <;> rfl
@[simp] theorem fireIf_mag (b : Bool) (cb : Option Handle) (k : Handle → Event) (s : State) : (fireIf b cb k s).mag = s.mag := by cases cb <;> cases b <;> rfl
@[simp] theorem fireIf_ph (b : Bool) (cb : Option Handle) (k : Handle → Event) (s : State) : (fireIf b cb k s).ph = s.ph := by cases cb <;> cases b <;> rfl

/-! ### setSeq -/

@[simp] theorem setSeq_cfg (p : PipePhase) (i : Nat) (s : State) : (setSeq p i s).cfg = s.cfg := rfl
@[simp] theorem setSeq_input (p : PipePhase) (i : Nat) (s : State) : (setSeq p i s).input = s.input := rfl
@[simp] theorem setSeq_outputs (p : PipePhase) (i : Nat) (s : State) : (setSeq p i s).outputs = s.outputs := rfl
@[simp] theorem setSeq_modeSel (p : PipePhase) (i : Nat) (s : State) : (setSeq p i s).modeSel = s.modeSel := rfl
@[simp] theorem setSeq_constValid (p : PipePhase) (i : Nat) (s : State) : (setSeq p i s).constValid = s.constValid := rfl
@[simp] theorem setSeq_constColor (p : PipePhase) (i : Nat) (s : State) : (setSeq p i s).constColor = s.constColor := rfl
@[simp] theorem setSeq_ledDrvEn (p : PipePhase) (i : Nat) (s : State) : (setSeq p i s).ledDrvEn = s.ledDrvEn := rfl
@[simp] theorem setSeq_alarmState (p : PipePhase) (i : Nat) (s : State) : (setSeq p i s).alarmState = s.alarmState := rfl
@[simp] theorem setSeq_alarmSaved (p : PipePhase) (i : Nat) (s : State) : (setSeq p i s).alarmSaved = s.alarmSaved := rfl
@[simp] theorem setSeq_testActive (p : PipePhase) (i : Nat) (s : State) : (setSeq p i s).testActive = s.testActive := rfl
@[simp] theorem setSeq_patSel (p : PipePhase) (i : Nat) (s : State) : (setSeq p i s).patSel = s.patSel := rfl
@[simp] theorem setSeq_patPos (p : PipePhase) (i : Nat) (s : State) : (setSeq p i s).patPos = s.patPos := rfl
@[simp] theorem setSeq_patTimerRun (p : PipePhase) (i : Nat) (s : State) : (setSeq p i s).patTimerRun = s.patTimerRun := rfl
@[simp] theorem setSeq_freqTimerRun (p : PipePhase) (i : Nat) (s : State) : (setSeq p i s).freqTimerRun = s.freqTimerRun := rfl
@[simp] theorem setSeq_toneFreq (p : PipePhase) (i : Nat) (s : State) : (setSeq p i s).toneFreq = s.toneFreq := rfl
@[simp] theorem setSeq_tonePhase (p : PipePhase) (i : Nat) (s : State) : (setSeq p i s).tonePhase = s.tonePhase := rfl
@[simp] theorem setSeq_pwmEn (p : PipePhase) (i : Nat) (s : State) : (setSeq p i s).pwmEn = s.pwmEn := rfl
@[simp] theorem setSeq_pwmDuty (p : PipePhase) (i : Nat) (s : State) : (setSeq p i s).pwmDuty = s.pwmDuty := rfl
@[simp] theorem setSeq_radioHiz (p : PipePhase) (i : Nat) (s : State) : (setSeq p i s).radioHiz = s.radioHiz := rfl
@[simp] theorem setSeq_encState (p : PipePhase) (i : Nat) (s : State) : (setSeq p i s).encState = s.encState := rfl
@[simp] theorem setSeq_cbCw (p : PipePhase) (i : Nat) (s : State) : (setSeq p i s).cbCw = s.cbCw := rfl
@[simp] theorem setSeq_cbCcw (p : PipePhase) (i : Nat) (s : State) : (setSeq p i s).cbCcw = s.cbCcw := rfl
@[simp] theorem setSeq_buttons (p : PipePhase) (i : Nat) (s : State) : (setSeq p i s).buttons = s.buttons := rfl
@[simp] theorem setSeq_pipePhase (p : PipePhase) (i : Nat) (s : State) : (setSeq p i s).pipePhase = p := rfl
@[simp] theorem setSeq_pipeIdx (p : PipePhase) (i : Nat) (s : State) : (setSeq p i s).pipeIdx = i := rfl
@[simp] theorem setSeq_pipeMode (p : PipePhase) (i : Nat) (s : State) : (setSeq p i s).pipeMode = s.pipeMode := rfl
@[simp] theorem setSeq_x (p : PipePhase) (i : Nat) (s : State) : (setSeq p i s).x = s.x := rfl
@[simp] theorem setSeq_re (p : PipePhase) (i : Nat) (s : State) : (setSeq p i s).re = s.re := rfl
@[simp] theorem setSeq_im (p : PipePhase) (i : Nat) (s : State) : (setSeq p i s).im = s.im := rfl
@[simp] theorem setSeq_mag (p : PipePhase) (i : Nat) (s : State) : (setSeq p i s).mag = s.mag := rfl
@[simp] theorem setSeq_ph (p : PipePhase) (i : Nat) (s : State) : (setSeq p i s).ph = s.ph := rfl

/-! ### applyEffMode -/

@[simp] theorem applyEffMode_cfg (s : State) : (applyEffMode s).cfg = s.cfg := rfl
@[simp] theorem applyEffMode_input (s : State) : (applyEffMode s).input = s.input := rfl
@[simp] theorem applyEffMode_outputs (s : State) : (applyEffMode s).outputs = s.outputs := rfl
@[simp] theorem applyEffMode_modeSel (s : State) : (applyEffMode s).modeSel = s.modeSel := rfl
@[simp] theorem applyEffMode_constValid (s : State) : (applyEffMode s).constValid = s.constValid := rfl
@[simp] theorem applyEffMode_constColor (s : State) : (applyEffMode s).constColor = s.constColor := rfl
@[simp] theorem applyEffMode_ledDrvEn (s : State) : (applyEffMode s).ledDrvEn = driverLevel (effMode s) := rfl
@[simp] theorem applyEffMode_alarmState (s : State) : (applyEffMode s).alarmState = s.alarmState := rfl
@[simp] theorem applyEffMode_alarmSaved (s : State) : (applyEffMode s).alarmSaved = s.alarmSaved := rfl
@[simp] theorem applyEffMode_testActive (s : State) : (applyEffMode s).testActive = s.testActive := rfl
@[simp] theorem applyEffMode_patSel (s : State) : (applyEffMode s).patSel = s.patSel := rfl
@[simp] theorem applyEffMode_patPos (s : State) : (applyEffMode s).patPos = s.patPos := rfl
@[simp] theorem applyEffMode_patTimerRun (s : State) : (applyEffMode s).patTimerRun = s.patTimerRun := rfl
@[simp] theorem applyEffMode_freqTimerRun (s : State) : (applyEffMode s).freqTimerRun = s.freqTimerRun := rfl
@[simp] theorem applyEffMode_toneFreq (s : State) : (applyEffMode s).toneFreq = s.toneFreq := rfl
@[simp] theorem applyEffMode_tonePhase (s : State) : (applyEffMode s).tonePhase = s.tonePhase := rfl
@[simp] theorem applyEffMode_pwmEn (s : State) : (applyEffMode s).pwmEn = s.pwmEn := rfl
@[simp] theorem applyEffMode_pwmDuty (s : State) : (applyEffMode s).pwmDuty = s.pwmDuty := rfl
@[simp] theorem applyEffMode_radioHiz (s : State) : (applyEffMode s).radioHiz = s.radioHiz := rfl
@[simp] theorem applyEffMode_encState (s : State) : (applyEffMode s).encState = s.encState := rfl
@[simp] theorem applyEffMode_cbCw (s : State) : (applyEffMode s).cbCw = s.cbCw := rfl
@[simp] theorem applyEffMode_cbCcw (s : State) : (applyEffMode s).cbCcw = s.cbCcw := rfl
@[simp] theorem applyEffMode_buttons (s : State) : (applyEffMode s).buttons = s.buttons := rfl
@[simp] theorem applyEffMode_pipePhase (s : State) : (applyEffMode s).pipePhase = s.pipePhase := rfl
@[simp] theorem applyEffMode_pipeIdx (s : State) : (applyEffMode s).pipeIdx = s.pipeIdx := rfl
@[simp] theorem applyEffMode_pipeMode (s : State) : (applyEffMode s).pipeMode = s.pipeMode := rfl
@[simp] theorem applyEffMode_x (s : State) : (applyEffMode s).x = s.x := rfl
@[simp] theorem applyEffMode_re (s : State) : (applyEffMode s).re = s.re := rfl
@[simp] theorem applyEffMode_im (s : State) : (applyEffMode s).im = s.im := rfl
@[simp] theorem applyEffMode_mag (s : State) : (applyEffMode s).mag = s.mag := rfl
@[simp] theorem applyEffMode_ph (s : State) : (applyEffMode s).ph = s.ph := rfl

/-! ### enterSounding -/

@[simp] theorem enterSounding_cfg (p : Nat) (s : State) : (enterSounding p s).cfg = s.cfg := rfl
@[simp] theorem enterSounding_input (p : Nat) (s : State) : (enterSounding p s).input = s.input := rfl
@[simp] theorem enterSounding_outputs (p : Nat) (s : State) : (enterSounding p s).outputs = s.outputs := rfl
@[simp] theorem enterSounding_modeSel (p : Nat) (s : State) : (enterSounding p s).modeSel = s.modeSel := rfl
@[simp] theorem enterSounding_constValid (p : Nat) (s : State) : (enterSounding p s).constValid = s.constValid := rfl
@[simp] theorem enterSounding_constColor (p : Nat) (s : State) : (enterSounding p s).constColor = s.constColor := rfl
@[simp] theorem enterSounding_ledDrvEn (p : Nat) (s : State) : (enterSounding p s).ledDrvEn = driverLevel (effMode s) := rfl
@[simp] theorem enterSounding_alarmState (p : Nat) (s : State) : (enterSounding p s).alarmState = s.alarmState := rfl
@[simp] theorem enterSounding_alarmSaved (p : Nat) (s : State) : (enterSounding p s).alarmSaved = s.alarmSaved := rfl
@[simp] theorem enterSounding_testActive (p : Nat) (s : State) : (enterSounding p s).testActive = s.testActive := rfl
@[simp] theorem enterSounding_patSel (p : Nat) (s : State) : (enterSounding p s).patSel = p := rfl
@[simp] theorem enterSounding_patPos (p : Nat) (s : State) : (enterSounding p s).patPos = 0 := rfl
@[simp] theorem enterSounding_patTimerRun (p : Nat) (s : State) : (enterSounding p s).patTimerRun = true := rfl
@[simp] theorem enterSounding_freqTimerRun (p : Nat) (s : State) : (enterSounding p s).freqTimerRun = false := rfl
@[simp] theorem enterSounding_toneFreq (p : Nat) (s : State) : (enterSounding p s).toneFreq = none := rfl
@[simp] theorem enterSounding_tonePhase (p : Nat) (s : State) : (enterSounding p s).tonePhase = false := rfl
@[simp] theorem enterSounding_pwmEn (p : Nat) (s : State) : (enterSounding p s).pwmEn = true := rfl
@[simp] theorem enterSounding_pwmDuty (p : Nat) (s : State) : (enterSounding p s).pwmDuty = Config.dutyLow := rfl
@[simp] theorem enterSounding_radioHiz (p : Nat) (s : State) : (enterSounding p s).radioHiz = true := rfl
@[simp] theorem enterSounding_encState (p : Nat) (s : State) : (enterSounding p s).encState = s.encState := rfl
@[simp] theorem enterSounding_cbCw (p : Nat) (s : State) : (enterSounding p s).cbCw = s.cbCw := rfl
@[simp] theorem enterSounding_cbCcw (p : Nat) (s : State) : (enterSounding p s).cbCcw = s.cbCcw := rfl
@[simp] theorem enterSounding_buttons (p : Nat) (s : State) : (enterSounding p s).buttons = s.buttons := rfl
@[simp] theorem enterSounding_pipePhase (p : Nat) (s : State) : (enterSounding p s).pipePhase = s.pipePhase := rfl
@[simp] theorem enterSounding_pipeIdx (p : Nat) (s : State) : (enterSounding p s).pipeIdx = s.pipeIdx := rfl
@[simp] theorem enterSounding_pipeMode (p : Nat) (s : State) : (enterSounding p s).pipeMode = s.pipeMode := rfl
@[simp] theorem enterSounding_x (p : Nat) (s : State) : (enterSounding p s).x = s.x := rfl
@[simp] theorem enterSounding_re (p : Nat) (s : State) : (enterSounding p s).re = s.re := rfl
@[simp] theorem enterSounding_im (p : Nat) (s : State) : (enterSounding p s).im = s.im := rfl
@[simp] theorem enterSounding_mag (p : Nat) (s : State) : (enterSounding p s).mag = s.mag := rfl
@[simp] theorem enterSounding_ph (p : Nat) (s : State) : (enterSounding p s).ph = s.ph := rfl

/-! ### leaveSounding -/

@[simp] theorem leaveSounding_cfg (s : State) : (leaveSounding s).cfg = s.cfg := rfl
@[simp] theorem leaveSounding_input (s : State) : (leaveSounding s).input = s.input := rfl
@[simp] theorem leaveSounding_outputs (s : State) : (leaveSounding s).outputs = s.outputs := rfl
@[simp] theorem leaveSounding_modeSel (s : State) : (leaveSounding s).modeSel = s.modeSel := rfl
@[simp] theorem leaveSounding_constValid (s : State) : (leaveSounding s).constValid = s.constValid := rfl
@[simp] theorem leaveSounding_constColor (s : State) : (leaveSounding s).constColor = s.constColor := rfl
@[simp] theorem leaveSounding_ledDrvEn (s : State) : (leaveSounding s).ledDrvEn = driverLevel (effMode s) := rfl
@[simp] theorem leaveSounding_alarmState (s : State) : (leaveSounding s).alarmState = s.alarmState := rfl
@[simp] theorem leaveSounding_alarmSaved (s : State) : (leaveSounding s).alarmSaved = s.alarmSaved := rfl
@[simp] theorem leaveSounding_testActive (s : State) : (leaveSounding s).testActive = s.testActive := rfl
@[simp] theorem leaveSounding_patSel (s : State) : (leaveSounding s).patSel = s.patSel := rfl
@[simp] theorem leaveSounding_patPos (s : State) : (leaveSounding s).patPos = s.patPos := rfl
@[simp] theorem leaveSounding_patTimerRun (s : State) : (leaveSounding s).patTimerRun = false := rfl
@[simp] theorem leaveSounding_freqTimerRun (s : State) : (leaveSounding s).freqTimerRun = false := rfl
@[simp] theorem leaveSounding_toneFreq (s : State) : (leaveSounding s).toneFreq = none := rfl
@[simp] theorem leaveSounding_tonePhase (s : State) : (leaveSounding s).tonePhase = false := rfl
@[simp] theorem leaveSounding_pwmEn (s : State) : (leaveSounding s).pwmEn = false := rfl
@[simp] theorem leaveSounding_pwmDuty (s : State) : (leaveSounding s).pwmDuty = Config.dutyLow := rfl
@[simp] theorem leaveSounding_radioHiz (s : State) : (leaveSounding s).radioHiz = false := rfl
@[simp] theorem leaveSounding_encState (s : State) : (leaveSounding s).encState = s.encState := rfl
@[simp] theorem leaveSounding_cbCw (s : State) : (leaveSounding s).cbCw = s.cbCw := rfl
@[simp] theorem leaveSounding_cbCcw (s : State) : (leaveSounding s).cbCcw = s.cbCcw := rfl
@[simp] theorem leaveSounding_buttons (s : State) : (leaveSounding s).buttons = s.buttons := rfl
@[simp] theorem leaveSounding_pipePhase (s : State) : (leaveSounding s).pipePhase = s.pipePhase := rfl
@[simp] theorem leaveSounding_pipeIdx (s : State) : (leaveSounding s).pipeIdx = s.pipeIdx := rfl
@[simp] theorem leaveSounding_pipeMode (s : State) : (leaveSounding s).pipeMode = s.pipeMode := rfl
@[simp] theorem leaveSounding_x (s : State) : (leaveSounding s).x = s.x := rfl
@[simp] theorem leaveSounding_re (s : State) : (leaveSounding s).re = s.re := rfl
@[simp] theorem leaveSounding_im (s : State) : (leaveSounding s).im = s.im := rfl
@[simp] theorem leaveSounding_mag (s : State) : (leaveSounding s).mag = s.mag := rfl
@[simp] theorem leaveSounding_ph (s : State) : (leaveSounding s).ph = s.ph := rfl

/-! ### setButton -/

@[simp] theorem setButton_cfg (u : BitVec 4) (b : Button) (s : State) : (setButton u b s).cfg = s.cfg := rfl
@[simp] theorem setButton_input (u : BitVec 4) (b : Button) (s : State) : (setButton u b s).input = s.input := rfl
@[simp] theorem setButton_outputs (u : BitVec 4) (b : Button) (s : State) : (setButton u b s).outputs = s.outputs := rfl
@[simp] theorem setButton_modeSel (u : BitVec 4) (b : Button) (s : State) : (setButton u b s).modeSel = s.modeSel := rfl
@[simp] theorem setButton_constValid (u : BitVec 4) (b : Button) (s : State) : (setButton u b s).constValid = s.constValid := rfl
@[simp] theorem setButton_constColor (u : BitVec 4) (b : Button) (s : State) : (setButton u b s).constColor = s.constColor := rfl
@[simp] theorem setButton_ledDrvEn (u : BitVec 4) (b : Button) (s : State) : (setButton u b s).ledDrvEn = s.ledDrvEn := rfl
@[simp] theorem setButton_alarmState (u : BitVec 4) (b : Button) (s : State) : (setButton u b s).alarmState = s.alarmState := rfl
@[simp] theorem setButton_alarmSaved (u : BitVec 4) (b : Button) (s : State) : (setButton u b s).alarmSaved = s.alarmSaved := rfl
@[simp] theorem setButton_testActive (u : BitVec 4) (b : Button) (s : State) : (setButton u b s).testActive = s.testActive := rfl
@[simp] theorem setButton_patSel (u : BitVec 4) (b : Button) (s : State) : (setButton u b s).patSel = s.patSel := rfl
@[simp] theorem setButton_patPos (u : BitVec 4) (b : Button) (s : State) : (setButton u b s).patPos = s.patPos := rfl
@[simp] theorem setButton_patTimerRun (u : BitVec 4) (b : Button) (s : State) : (setButton u b s).patTimerRun = s.patTimerRun := rfl
@[simp] theorem setButton_freqTimerRun (u : BitVec 4) (b : Button) (s : State) : (setButton u b s).freqTimerRun = s.freqTimerRun := rfl
@[simp] theorem setButton_toneFreq (u : BitVec 4) (b : Button) (s : State) : (setButton u b s).toneFreq = s.toneFreq := rfl
@[simp] theorem setButton_tonePhase (u : BitVec 4) (b : Button) (s : State) : (setButton u b s).tonePhase = s.tonePhase := rfl
@[simp] theorem setButton_pwmEn (u : BitVec 4) (b : Button) (s : State) : (setButton u b s).pwmEn = s.pwmEn := rfl
@[simp] theorem setButton_pwmDuty (u : BitVec 4) (b : Button) (s : State) : (setButton u b s).pwmDuty = s.pwmDuty := rfl
@[simp] theorem setButton_radioHiz (u : BitVec 4) (b : Button) (s : State) : (setButton u b s).radioHiz = s.radioHiz := rfl
@[simp] theorem setButton_encState (u : BitVec 4) (b : Button) (s : State) : (setButton u b s).encState = s.encState := rfl
@[simp] theorem setButton_cbCw (u : BitVec 4) (b : Button) (s : State) : (setButton u b s).cbCw = s.cbCw := rfl
@[simp] theorem setButton_cbCcw (u : BitVec 4) (b : Button) (s : State) : (setButton u b s).cbCcw = s.cbCcw := rfl
@[simp] theorem setButton_buttons (u : BitVec 4) (b : Button) (s : State) : (setButton u b s).buttons = s.buttons.set u.toNat b := rfl
@[simp] theorem setButton_pipePhase (u : BitVec 4) (b : Button) (s : State) : (setButton u b s).pipePhase = s.pipePhase := rfl
@[simp] theorem setButton_pipeIdx (u : BitVec 4) (b : Button) (s : State) : (setButton u b s).pipeIdx = s.pipeIdx := rfl
@[simp] theorem setButton_pipeMode (u : BitVec 4) (b : Button) (s : State) : (setButton u b s).pipeMode = s.pipeMode := rfl
@[simp] theorem setButton_x (u : BitVec 4) (b : Button) (s : State) : (setButton u b s).x = s.x := rfl
@[simp] theorem setButton_re (u : BitVec 4) (b : Button) (s : State) : (setButton u b s).re = s.re := rfl
@[simp] theorem setButton_im (u : BitVec 4) (b : Button) (s : State) : (setButton u b s).im = s.im := rfl
@[simp] theorem setButton_mag (u : BitVec 4) (b : Button) (s : State) : (setButton u b s).mag = s.mag := rfl
@[simp] theorem setButton_ph (u : BitVec 4) (b : Button) (s : State) : (setButton u b s).ph = s.ph := rfl

/-! ### pushWord -/

@[simp] theorem pushWord_cfg (w : Word) (s : State) : (pushWord w s).cfg = s.cfg := rfl
@[simp] theorem pushWord_input (w : Word) (s : State) : (pushWord w s).input = w :: s.input := rfl
@[simp] theorem pushWord_outputs (w : Word) (s : State) : (pushWord w s).outputs = s.outputs := rfl
@[simp] theorem pushWord_modeSel (w : Word) (s : State) : (pushWord w s).modeSel = s.modeSel := rfl
@[simp] theorem pushWord_constValid (w : Word) (s : State) : (pushWord w s).constValid = s.constValid := rfl
@[simp] theorem pushWord_constColor (w : Word) (s : State) : (pushWord w s).constColor = s.constColor := rfl
@[simp] theorem pushWord_ledDrvEn (w : Word) (s : State) : (pushWord w s).ledDrvEn = s.ledDrvEn := rfl
@[simp] theorem pushWord_alarmState (w : Word) (s : State) : (pushWord w s).alarmState = s.alarmState := rfl
@[simp] theorem pushWord_alarmSaved (w : Word) (s : State) : (pushWord w s).alarmSaved = s.alarmSaved := rfl
@[simp] theorem pushWord_testActive (w : Word) (s : State) : (pushWord w s).testActive = s.testActive := rfl
@[simp] theorem pushWord_patSel (w : Word) (s : State) : (pushWord w s).patSel = s.patSel := rfl
@[simp] theorem pushWord_patPos (w : Word) (s : State) : (pushWord w s).patPos = s.patPos := rfl
@[simp] theorem pushWord_patTimerRun (w : Word) (s : State) : (pushWord w s).patTimerRun = s.patTimerRun := rfl
@[simp] theorem pushWord_freqTimerRun (w : Word) (s : State) : (pushWord w s).freqTimerRun = s.freqTimerRun := rfl
@[simp] theorem pushWord_toneFreq (w : Word) (s : State) : (pushWord w s).toneFreq = s.toneFreq := rfl
@[simp] theorem pushWord_tonePhase (w : Word) (s : State) : (pushWord w s).tonePhase = s.tonePhase := rfl
@[simp] theorem pushWord_pwmEn (w : Word) (s : State) : (pushWord w s).pwmEn = s.pwmEn := rfl
@[simp] theorem pushWord_pwmDuty (w : Word) (s : State) : (pushWord w s).pwmDuty = s.pwmDuty := rfl
@[simp] theorem pushWord_radioHiz (w : Word) (s : State) : (pushWord w s).radioHiz = s.radioHiz := rfl
@[simp] theorem pushWord_encState (w : Word) (s : State) : (pushWord w s).encState = s.encState := rfl
@[simp] theorem pushWord_cbCw (w : Word) (s : State) : (pushWord w s).cbCw = s.cbCw := rfl
@[simp] theorem pushWord_cbCcw (w : Word) (s : State) : (pushWord w s).cbCcw = s.cbCcw := rfl
@[simp] theorem pushWord_buttons (w : Word) (s : State) : (pushWord w s).buttons = s.buttons := rfl
@[simp] theorem pushWord_pipePhase (w : Word) (s : State) : (pushWord w s).pipePhase = s.pipePhase := rfl
@[simp] theorem pushWord_pipeIdx (w : Word) (s : State) : (pushWord w s).pipeIdx = s.pipeIdx := rfl
@[simp] theorem pushWord_pipeMode (w : Word) (s : State) : (pushWord w s).pipeMode = s.pipeMode := rfl
@[simp] theorem pushWord_x (w : Word) (s : State) : (pushWord w s).x = s.x := rfl
@[simp] theorem pushWord_re (w : Word) (s : State) : (pushWord w s).re = s.re := rfl
@[simp] theorem pushWord_im (w : Word) (s : State) : (pushWord w s).im = s.im := rfl
@[simp] theorem pushWord_mag (w : Word) (s : State) : (pushWord w s).mag = s.mag := rfl
@[simp] theorem pushWord_ph (w : Word) (s : State) : (pushWord w s).ph = s.ph := rfl

/-! ### storeSpectrum -/

@[simp] theorem storeSpectrum_cfg (p : Spectrum) (s : State) : (storeSpectrum p s).cfg = s.cfg := rfl
@[simp] theorem storeSpectrum_input (p : Spectrum) (s : State) : (storeSpectrum p s).input = s.input := rfl
@[simp] theorem storeSpectrum_outputs (p : Spectrum) (s : State) : (storeSpectrum p s).outputs = s.outputs := rfl
@[simp] theorem storeSpectrum_modeSel (p : Spectrum) (s : State) : (storeSpectrum p s).modeSel = s.modeSel := rfl
@[simp] theorem storeSpectrum_constValid (p : Spectrum) (s : State) : (storeSpectrum p s).constValid = s.constValid := rfl
@[simp] theorem storeSpectrum_constColor (p : Spectrum) (s : State) : (storeSpectrum p s).constColor = s.constColor := rfl
@[simp] theorem storeSpectrum_ledDrvEn (p : Spectrum) (s : State) : (storeSpectrum p s).ledDrvEn = s.ledDrvEn := rfl
@[simp] theorem storeSpectrum_alarmState (p : Spectrum) (s : State) : (storeSpectrum p s).alarmState = s.alarmState := rfl
@[simp] theorem storeSpectrum_alarmSaved (p : Spectrum) (s : State) : (storeSpectrum p s).alarmSaved = s.alarmSaved := rfl
@[simp] theorem storeSpectrum_testActive (p : Spectrum) (s : State) : (storeSpectrum p s).testActive = s.testActive := rfl
@[simp] theorem storeSpectrum_patSel (p : Spectrum) (s : State) : (storeSpectrum p s).patSel = s.patSel := rfl
@[simp] theorem storeSpectrum_patPos (p : Spectrum) (s : State) : (storeSpectrum p s).patPos = s.patPos := rfl
@[simp] theorem storeSpectrum_patTimerRun (p : Spectrum) (s : State) : (storeSpectrum p s).patTimerRun = s.patTimerRun := rfl
@[simp] theorem storeSpectrum_freqTimerRun (p : Spectrum) (s : State) : (storeSpectrum p s).freqTimerRun = s.freqTimerRun := rfl
@[simp] theorem storeSpectrum_toneFreq (p : Spectrum) (s : State) : (storeSpectrum p s).toneFreq = s.toneFreq := rfl
@[simp] theorem storeSpectrum_tonePhase (p : Spectrum) (s : State) : (storeSpectrum p s).tonePhase = s.tonePhase := rfl
@[simp] theorem storeSpectrum_pwmEn (p : Spectrum) (s : State) : (storeSpectrum p s).pwmEn = s.pwmEn := rfl
@[simp] theorem storeSpectrum_pwmDuty (p : Spectrum) (s : State) : (storeSpectrum p s).pwmDuty = s.pwmDuty := rfl
@[simp] theorem storeSpectrum_radioHiz (p : Spectrum) (s : State) : (storeSpectrum p s).radioHiz = s.radioHiz := rfl
@[simp] theorem storeSpectrum_encState (p : Spectrum) (s : State) : (storeSpectrum p s).encState = s.encState := rfl
@[simp] theorem storeSpectrum_cbCw (p : Spectrum) (s : State) : (storeSpectrum p s).cbCw = s.cbCw := rfl
@[simp] theorem storeSpectrum_cbCcw (p : Spectrum) (s : State) : (storeSpectrum p s).cbCcw = s.cbCcw := rfl
@[simp] theorem storeSpectrum_buttons (p : Spectrum) (s : State) : (storeSpectrum p s).buttons = s.buttons := rfl
@[simp] theorem storeSpectrum_pipePhase (p : Spectrum) (s : State) : (storeSpectrum p s).pipePhase = s.pipePhase := rfl
@[simp] theorem storeSpectrum_pipeIdx (p : Spectrum) (s : State) : (storeSpectrum p s).pipeIdx = s.pipeIdx := rfl
@[simp] theorem storeSpectrum_pipeMode (p : Spectrum) (s : State) : (storeSpectrum p s).pipeMode = s.pipeMode := rfl
@[simp] theorem storeSpectrum_x (p : Spectrum) (s : State) : (storeSpectrum p s).x = emptied s.cfg.n := rfl
@[simp] theorem storeSpectrum_re (p : Spectrum) (s : State) : (storeSpectrum p s).re = filled p.re := rfl
@[simp] theorem storeSpectrum_im (p : Spectrum) (s : State) : (storeSpectrum p s).im = filled p.im := rfl
@[simp] theorem storeSpectrum_mag (p : Spectrum) (s : State) : (storeSpectrum p s).mag = filled p.mag := rfl
@[simp] theorem storeSpectrum_ph (p : Spectrum) (s : State) : (storeSpectrum p s).ph = filled p.ph := rfl

/-! ### afterSample -/

@[simp] theorem afterSample_cfg (n i : Nat) (s : State) : (afterSample n i s).cfg = s.cfg := by unfold afterSample; split <;> rfl
@[simp] theorem afterSample_input (n i : Nat) (s : State) : (afterSample n i s).input = s.input := by unfold afterSample; split <;> rfl
@[simp] theorem afterSample_outputs (n i : Nat) (s : State) : (afterSample n i s).outputs = s.outputs := by unfold afterSample; split <;> rfl
@[simp] theorem afterSample_modeSel (n i : Nat) (s : State) : (afterSample n i s).modeSel = s.modeSel := by unfold afterSample; split <;> rfl
@[simp] theorem afterSample_constValid (n i : Nat) (s : State) : (afterSample n i s).constValid = s.constValid := by unfold afterSample; split <;> rfl
@[simp] theorem afterSample_constColor (n i : Nat) (s : State) : (afterSample n i s).constColor = s.constColor := by unfold afterSample; split <;> rfl
@[simp] theorem afterSample_ledDrvEn (n i : Nat) (s : State) : (afterSample n i s).ledDrvEn = s.ledDrvEn := by unfold afterSample; split <;> rfl
@[simp] theorem afterSample_alarmState (n i : Nat) (s : State) : (afterSample n i s).alarmState = s.alarmState := by unfold afterSample; split <;> rfl
@[simp] theorem afterSample_alarmSaved (n i : Nat) (s : State) : (afterSample n i s).alarmSaved = s.alarmSaved := by unfold afterSample; split <;> rfl
@[simp] theorem afterSample_testActive (n i : Nat) (s : State) : (afterSample n i s).testActive = s.testActive := by unfold afterSample; split <;> rfl
@[simp] theorem afterSample_patSel (n i : Nat) (s : State) : (afterSample n i s).patSel = s.patSel := by unfold afterSample; split <;> rfl
@[simp] theorem afterSample_patPos (n i : Nat) (s : State) : (afterSample n i s).patPos = s.patPos := by unfold afterSample; split <;> rfl
@[simp] theorem afterSample_patTimerRun (n i : Nat) (s : State) : (afterSample n i s).patTimerRun = s.patTimerRun := by unfold afterSample; split <;> rfl
@[simp] theorem afterSample_freqTimerRun (n i : Nat) (s : State) : (afterSample n i s).freqTimerRun = s.freqTimerRun := by unfold afterSample; split <;> rfl
@[simp] theorem afterSample_toneFreq (n i : Nat) (s : State) : (afterSample n i s).toneFreq = s.toneFreq := by unfold afterSample; split <;> rfl
@[simp] theorem afterSample_tonePhase (n i : Nat) (s : State) : (afterSample n i s).tonePhase = s.tonePhase := by unfold afterSample; split <;> rfl
@[simp] theorem afterSample_pwmEn (n i : Nat) (s : State) : (afterSample n i s).pwmEn = s.pwmEn := by unfold afterSample; split <;> rfl
@[simp] theorem afterSample_pwmDuty (n i : Nat) (s : State) : (afterSample n i s).pwmDuty = s.pwmDuty := by unfold afterSample; split <;> rfl
@[simp] theorem afterSample_radioHiz (n i : Nat) (s : State) : (afterSample n i s).radioHiz = s.radioHiz := by unfold afterSample; split <;> rfl
@[simp] theorem afterSample_encState (n i : Nat) (s : State) : (afterSample n i s).encState = s.encState := by unfold afterSample; split <;> rfl
@[simp] theorem afterSample_cbCw (n i : Nat) (s : State) : (afterSample n i s).cbCw = s.cbCw := by unfold afterSample; split <;> rfl
@[simp] theorem afterSample_cbCcw (n i : Nat) (s : State) : (afterSample n i s).cbCcw = s.cbCcw := by unfold afterSample; split <;> rfl
@[simp] theorem afterSample_buttons (n i : Nat) (s : State) : (afterSample n i s).buttons = s.buttons := by unfold afterSample; split <;> rfl
@[simp] theorem afterSample_pipeMode (n i : Nat) (s : State) : (afterSample n i s).pipeMode = s.pipeMode := by unfold afterSample; split <;> rfl
@[simp] theorem afterSample_x (n i : Nat) (s : State) : (afterSample n i s).x = s.x := by unfold afterSample; split <;> rfl
@[simp] theorem afterSample_re (n i : Nat) (s : State) : (afterSample n i s).re = s.re := by unfold afterSample; split <;> rfl
@[simp] theorem afterSample_im (n i : Nat) (s : State) : (afterSample n i s).im = s.im := by unfold afterSample; split <;> rfl
@[simp] theorem afterSample_mag (n i : Nat) (s : State) : (afterSample n i s).mag = s.mag := by unfold afterSample; split <;> rfl
@[simp] theorem afterSample_ph (n i : Nat) (s : State) : (afterSample n i s).ph = s.ph := by unfold afterSample; split <;> rfl

/-! ### afterLed -/

@[simp] theorem afterLed_cfg (n i : Nat) (s : State) : (afterLed n i s).cfg = s.cfg := by unfold afterLed; split <;> rfl
@[simp] theorem afterLed_input (n i : Nat) (s : State) : (afterLed n i s).input = s.input := by unfold afterLed; split <;> rfl
@[simp] theorem afterLed_outputs (n i : Nat) (s : State) : (afterLed n i s).outputs = s.outputs := by unfold afterLed; split <;> rfl
@[simp] theorem afterLed_modeSel (n i : Nat) (s : State) : (afterLed n i s).modeSel = s.modeSel := by unfold afterLed; split <;> rfl
@[simp] theorem afterLed_constValid (n i : Nat) (s : State) : (afterLed n i s).constValid = s.constValid := by unfold afterLed; split <;> rfl
@[simp] theorem afterLed_constColor (n i : Nat) (s : State) : (afterLed n i s).constColor = s.constColor := by unfold afterLed; split <;> rfl
@[simp] theorem afterLed_ledDrvEn (n i : Nat) (s : State) : (afterLed n i s).ledDrvEn = s.ledDrvEn := by unfold afterLed; split <;> rfl
@[simp] theorem afterLed_alarmState (n i : Nat) (s : State) : (afterLed n i s).alarmState = s.alarmState := by unfold afterLed; split <;> rfl
@[simp] theorem afterLed_alarmSaved (n i : Nat) (s : State) : (afterLed n i s).alarmSaved = s.alarmSaved := by unfold afterLed; split <;> rfl
@[simp] theorem afterLed_testActive (n i : Nat) (s : State) : (afterLed n i s).testActive = s.testActive := by unfold afterLed; split <;> rfl
@[simp] theorem afterLed_patSel (n i : Nat) (s : State) : (afterLed n i s).patSel = s.patSel := by unfold afterLed; split <;> rfl
@[simp] theorem afterLed_patPos (n i : Nat) (s : State) : (afterLed n i s).patPos = s.patPos := by unfold afterLed; split <;> rfl
@[simp] theorem afterLed_patTimerRun (n i : Nat) (s : State) : (afterLed n i s).patTimerRun = s.patTimerRun := by unfold afterLed; split <;> rfl
@[simp] theorem afterLed_freqTimerRun (n i : Nat) (s : State) : (afterLed n i s).freqTimerRun = s.freqTimerRun := by unfold afterLed; split <;> rfl
@[simp] theorem afterLed_toneFreq (n i : Nat) (s : State) : (afterLed n i s).toneFreq = s.toneFreq := by unfold afterLed; split <;> rfl
@[simp] theorem afterLed_tonePhase (n i : Nat) (s : State) : (afterLed n i s).tonePhase = s.tonePhase := by unfold afterLed; split <;> rfl
@[simp] theorem afterLed_pwmEn (n i : Nat) (s : State) : (afterLed n i s).pwmEn = s.pwmEn := by unfold afterLed; split <;> rfl
@[simp] theorem afterLed_pwmDuty (n i : Nat) (s : State) : (afterLed n i s).pwmDuty = s.pwmDuty := by unfold afterLed; split <;> rfl
@[simp] theorem afterLed_radioHiz (n i : Nat) (s : State) : (afterLed n i s).radioHiz = s.radioHiz := by unfold afterLed; split <;> rfl
@[simp] theorem afterLed_encState (n i : Nat) (s : State) : (afterLed n i s).encState = s.encState := by unfold afterLed; split <;> rfl
@[simp] theorem afterLed_cbCw (n i : Nat) (s : State) : (afterLed n i s).cbCw = s.cbCw := by unfold afterLed; split <;> rfl
@[simp] theorem afterLed_cbCcw (n i : Nat) (s : State) : (afterLed n i s).cbCcw = s.cbCcw := by unfold afterLed; split <;> rfl
@[simp] theorem afterLed_buttons (n i : Nat) (s : State) : (afterLed n i s).buttons = s.buttons := by unfold afterLed; split <;> rfl
@[simp] theorem afterLed_pipeMode (n i : Nat) (s : State) : (afterLed n i s).pipeMode = s.pipeMode := by unfold afterLed; split <;> rfl
@[simp] theorem afterLed_x (n i : Nat) (s : State) : (afterLed n i s).x = s.x := by unfold afterLed; split <;> rfl
@[simp] theorem afterLed_re (n i : Nat) (s : State) : (afterLed n i s).re = s.re := by unfold afterLed; split <;> rfl
@[simp] theorem afterLed_im (n i : Nat) (s : State) : (afterLed n i s).im = s.im := by unfold afterLed; split <;> rfl
@[simp] theorem afterLed_mag (n i : Nat) (s : State) : (afterLed n i s).mag = s.mag := by unfold afterLed; split <;> rfl
@[simp] theorem afterLed_ph (n i : Nat) (s : State) : (afterLed n i s).ph = s.ph := by unfold afterLed; split <;> rfl

/-! ### applyEntry -/

@[simp] theorem applyEntry_cfg (e : PatEntry) (s : State) : (applyEntry e s).cfg = s.cfg := by cases e <;> rfl
@[simp] theorem applyEntry_input (e : PatEntry) (s : State) : (applyEntry e s).input = s.input := by cases e <;> rfl
@[simp] theorem applyEntry_outputs (e : PatEntry) (s : State) : (applyEntry e s).outputs = s.outputs := by cases e <;> rfl
@[simp] theorem applyEntry_modeSel (e : PatEntry) (s : State) : (applyEntry e s).modeSel = s.modeSel := by cases e <;> rfl
@[simp] theorem applyEntry_constValid (e : PatEntry) (s : State) : (applyEntry e s).constValid = s.constValid := by cases e <;> rfl
@[simp] theorem applyEntry_constColor (e : PatEntry) (s : State) : (applyEntry e s).constColor = s.constColor := by cases e <;> rfl
@[simp] theorem applyEntry_ledDrvEn (e : PatEntry) (s : State) : (applyEntry e s).ledDrvEn = s.ledDrvEn := by cases e <;> rfl
@[simp] theorem applyEntry_alarmState (e : PatEntry) (s : State) : (applyEntry e s).alarmState = s.alarmState := by cases e <;> rfl
@[simp] theorem applyEntry_alarmSaved (e : PatEntry) (s : State) : (applyEntry e s).alarmSaved = s.alarmSaved := by cases e <;> rfl
@[simp] theorem applyEntry_testActive (e : PatEntry) (s : State) : (applyEntry e s).testActive = s.testActive := by cases e <;> rfl
@[simp] theorem applyEntry_patSel (e : PatEntry) (s : State) : (applyEntry e s).patSel = s.patSel := by cases e <;> rfl
@[simp] theorem applyEntry_patPos (e : PatEntry) (s : State) : (applyEntry e s).patPos = s.patPos := by cases e <;> rfl
@[simp] theorem applyEntry_patTimerRun (e : PatEntry) (s : State) : (applyEntry e s).patTimerRun = s.patTimerRun := by cases e <;> rfl
@[simp] theorem applyEntry_pwmEn (e : PatEntry) (s : State) : (applyEntry e s).pwmEn = s.pwmEn := by cases e <;> rfl
@[simp] theorem applyEntry_radioHiz (e : PatEntry) (s : State) : (applyEntry e s).radioHiz = s.radioHiz := by cases e <;> rfl
@[simp] theorem applyEntry_encState (e : PatEntry) (s : State) : (applyEntry e s).encState = s.encState := by cases e <;> rfl
@[simp] theorem applyEntry_cbCw (e : PatEntry) (s : State) : (applyEntry e s).cbCw = s.cbCw := by cases e <;> rfl
@[simp] theorem applyEntry_cbCcw (e : PatEntry) (s : State) : (applyEntry e s).cbCcw = s.cbCcw := by cases e <;> rfl
@[simp] theorem applyEntry_buttons (e : PatEntry) (s : State) : (applyEntry e s).buttons = s.buttons := by cases e <;> rfl
@[simp] theorem applyEntry_pipePhase (e : PatEntry) (s : State) : (applyEntry e s).pipePhase = s.pipePhase := by cases e <;> rfl
@[simp] theorem applyEntry_pipeIdx (e : PatEntry) (s : State) : (applyEntry e s).pipeIdx = s.pipeIdx := by cases e <;> rfl
@[simp] theorem applyEntry_pipeMode (e : PatEntry) (s : State) : (applyEntry e s).pipeMode = s.pipeMode := by cases e <;> rfl
@[simp] theorem applyEntry_x (e : PatEntry) (s : State) : (applyEntry e s).x = s.x := by cases e <;> rfl
@[simp] theorem applyEntry_re (e : PatEntry) (s : State) : (applyEntry e s).re = s.re := by cases e <;> rfl
@[simp] theorem applyEntry_im (e : PatEntry) (s : State) : (applyEntry e s).im = s.im := by cases e <;> rfl
@[simp] theorem applyEntry_mag (e : PatEntry) (s : State) : (applyEntry e s).mag = s.mag := by cases e <;> rfl
@[simp] theorem applyEntry_ph (e : PatEntry) (s : State) : (applyEntry e s).ph = s.ph := by cases e <;> rfl

/-! ### The values that depend on a case -/

theorem emitIf_outputs (b : Bool) (e : Event) (s : State) :
    (emitIf b e s).outputs = s.outputs ++ (if b then [e] else []) := by cases b <;> simp [emitIf, emit]

theorem fireIf_outputs (b : Bool) (cb : Option Handle) (k : Handle → Event) (s : State) :
    (fireIf b cb k s).outputs = s.outputs ++ (if b then (cb.map k).toList else []) := by
  cases cb <;> cases b <;> simp [fireIf, emitIf, emit]

@[simp] theorem emitIf_sounding (b : Bool) (e : Event) (s : State) : (emitIf b e s).sounding = s.sounding := by
  simp [State.sounding]

@[simp] theorem emit_sounding (e : Event) (s : State) : (emit e s).sounding = s.sounding := rfl

@[simp] theorem applyEffMode_sounding (s : State) : (applyEffMode s).sounding = s.sounding := rfl

@[simp] theorem enterSounding_sounding (p : Nat) (s : State) : (enterSounding p s).sounding = s.sounding := rfl

@[simp] theorem leaveSounding_sounding (s : State) : (leaveSounding s).sounding = s.sounding := rfl

@[simp] theorem applyEffMode_effMode (s : State) : effMode (applyEffMode s) = effMode s := rfl

@[simp] theorem enterSounding_effMode (p : Nat) (s : State) : effMode (enterSounding p s) = effMode s := rfl

@[simp] theorem leaveSounding_effMode (s : State) : effMode (leaveSounding s) = effMode s := rfl

theorem sounding_iff (s : State) : s.sounding = true ↔ s.alarmState = .sounding := by simp [State.sounding]

theorem driverLevel_iff (m : Mode) : driverLevel m = true ↔ m ≠ .off := by cases m <;> simp [driverLevel]

end Sys2Proof.Machine
end

