-- ==== Sys2Proof/Laws/Ops.lean ====
section
/-! SUPPORT. What each shared operation and each meaning can do, said once: for every meaning, when it answers a next
state and which. Later proofs cite these and do not unfold the meanings. -/

namespace Sys2Proof.Machine

/-! ### Guards and operands -/

/-- Two next outcomes are equal where their states are, the state asked about on the left. -/
theorem next_eq_next (a t : State) : (Host.Outcome.next a : Result) = .next t ↔ t = a :=
  ⟨fun h => (Host.Outcome.next.inj h).symm, fun h => h ▸ rfl⟩

theorem refused_ne_next (r : Refusal) (t : State) : ((Host.Outcome.refused r : Result) = .next t) ↔ False :=
  by simp

@[simp] theorem guarded_next (g : Bool) (r : Result) (t : State) :
    guarded g r = .next t ↔ g = true ∧ r = .next t := by cases g <;> simp [guarded]

@[simp] theorem operandOk_next (ok : Bool) (r : Result) (t : State) :
    operandOk ok r = .next t ↔ ok = true ∧ r = .next t := by cases ok <;> simp [operandOk]

theorem withButton_next (u : BitVec 4) (s : State) (k : Button → Result) (t : State) :
    withButton u s k = .next t ↔ u.toNat < s.cfg.numButtons ∧ ∃ b, s.buttons[u.toNat]? = some b ∧ k b = .next t := by
  unfold withButton
  split
  · cases s.buttons[u.toNat]? <;> simp_all
  · simp_all

/-! ### Arrays -/

theorem readElem_eq_some {α : Type} (a : List (Option α)) (i : Nat) (v : α) :
    readElem a i = some v ↔ a[i]? = some (some v) := by
  unfold readElem
  cases h : a[i]? <;> simp

@[simp] theorem readElem_filled {α : Type} (vs : List α) (i : Nat) : readElem (filled vs) i = vs[i]? := by
  simp only [readElem, filled, List.getElem?_map]
  cases vs[i]? <;> rfl

@[simp] theorem readElem_emptied {α : Type} (n i : Nat) : readElem (emptied n : List (Option α)) i = none := by
  simp only [readElem, emptied, List.getElem?_replicate]
  split <;> simp_all

@[simp] theorem length_filled {α : Type} (vs : List α) : (filled vs).length = vs.length := by simp [filled]

@[simp] theorem length_emptied {α : Type} (n : Nat) : (emptied n : List (Option α)).length = n := by simp [emptied]

theorem writeElem_eq_some {α : Type} (a b : List (Option α)) (i : Nat) (v : α) :
    writeElem a i v = some b ↔ i < a.length ∧ b = a.set i (some v) := by
  unfold writeElem
  split <;> simp_all [eq_comm]

/-- Reading back a written element, and every other one. -/
theorem readElem_set {α : Type} (a : List (Option α)) (i j : Nat) (v : α) (h : i < a.length) :
    readElem (a.set i (some v)) j = if j = i then some v else readElem a j := by
  unfold readElem
  by_cases hj : j = i
  · subst hj; simp [h]
  · have : i ≠ j := fun h => hj h.symm
    simp [this, hj]

/-- A range can be read exactly where each of its elements can, and holds their values in order. -/
theorem readRange_eq_some {α : Type} (a : List (Option α)) (i n : Nat) (vs : List α) :
    readRange a i n = some vs ↔ vs.length = n ∧ ∀ j, j < n → readElem a (i + j) = vs[j]? := by
  induction n generalizing i vs with
  | zero => cases vs <;> simp [readRange]
  | succ n ih =>
    unfold readRange
    cases vs with
    | nil =>
      cases h : readElem a i with
      | none => simp
      | some v => cases h2 : readRange a (i + 1) n <;> simp
    | cons w ws =>
      have key : (readElem a i = some w ∧ readRange a (i + 1) n = some ws) ↔
          ((w :: ws).length = n + 1 ∧ ∀ j, j < n + 1 → readElem a (i + j) = (w :: ws)[j]?) := by
        rw [ih]
        constructor
        · rintro ⟨h0, hl, h⟩
          refine ⟨by simp [hl], fun j hj => ?_⟩
          cases j with
          | zero => simpa using h0
          | succ j =>
            have := h j (by omega)
            rw [show i + 1 + j = i + (j + 1) by omega] at this
            simpa using this
        · rintro ⟨hl, h⟩
          refine ⟨by simpa using h 0 (by omega), by simpa using hl, fun j hj => ?_⟩
          have := h (j + 1) (by omega)
          rw [show i + (j + 1) = i + 1 + j by omega] at this
          simpa using this
      rw [← key]
      cases h : readElem a i with
      | none => simp
      | some v => cases h2 : readRange a (i + 1) n <;> simp

theorem readRange_isSome {α : Type} (a : List (Option α)) (i n : Nat)
    (h : ∀ j, j < n → (readElem a (i + j)).isSome = true) : ∃ vs, readRange a i n = some vs := by
  induction n generalizing i with
  | zero => exact ⟨[], rfl⟩
  | succ n ih =>
    obtain ⟨v, hv⟩ := Option.isSome_iff_exists.mp (h 0 (by omega))
    obtain ⟨vs, hvs⟩ := ih (i + 1) fun j hj => by
      have := h (j + 1) (by omega)
      rwa [show i + (j + 1) = i + 1 + j by omega] at this
    exact ⟨v :: vs, by rw [Nat.add_zero] at hv; simp [readRange, hv, hvs]⟩

/-! ### Construction and the step -/

theorem construct_next (c : Config) (s : State) :
    construct c = .next s ↔ configProblem c = none ∧ s = resetState c := by
  unfold construct
  cases h : configProblem c with
  | none => simp [eq_comm]
  | some p => cases p <;> simp [problemStop, Stop.outcome]

theorem nextStimulus_ok (s s' : State) (i : Instr) :
    nextStimulus s = .ok (i, s') ↔
      configProblem s.cfg = none ∧
        ∃ w rest, s.input = w :: rest ∧ decode w = .ok i ∧ s' = { s with input := rest } := by
  unfold nextStimulus
  cases h : configProblem s.cfg with
  | some p => simp
  | none =>
    cases hin : s.input with
    | nil => simp
    | cons w rest => cases hd : decode w <;> simp [hd, eq_comm]

/-- A step that answers a next state applied one decoded stimulus. -/
theorem step_next (s t : State) :
    step s = .next t ↔
      configProblem s.cfg = none ∧
        ∃ w rest i, s.input = w :: rest ∧ decode w = .ok i ∧ exec i { s with input := rest } = .next t := by
  unfold step
  cases h : nextStimulus s with
  | ok p =>
    obtain ⟨i, s'⟩ := p
    rw [nextStimulus_ok] at h
    obtain ⟨hc, w, rest, hin, hd, rfl⟩ := h
    constructor
    · intro he; exact ⟨hc, w, rest, i, hin, hd, he⟩
    · rintro ⟨-, w', rest', i', hin', hd', he⟩
      rw [hin] at hin'
      obtain ⟨rfl, rfl⟩ := List.cons.inj hin'
      rw [hd] at hd'
      cases hd'
      exact he
  | error e =>
    constructor
    · intro he; cases e <;> simp [Stop.outcome] at he
    · rintro ⟨hc, w, rest, i, hin, hd, -⟩
      have := (nextStimulus_ok s { s with input := rest } i).mpr ⟨hc, w, rest, hin, hd, rfl⟩
      rw [h] at this
      cases this

/-! ### The meanings -/

theorem execBeginTestTone_next (p : Byte) (s t : State) :
    execBeginTestTone p s = .next t ↔ p.toNat < s.cfg.patterns.length ∧ s.sounding = false ∧
      t = enterSounding p.toNat { s with alarmSaved := s.alarmState, alarmState := .sounding, testActive := true } := by
  simp [execBeginTestTone, next_eq_next, -Host.Outcome.next.injEq]

theorem execEndTestTone_next (s t : State) :
    execEndTestTone s = .next t ↔
      (s.testActive = true ∧ t = leaveSounding { s with alarmState := s.alarmSaved, testActive := false })
        ∨ (s.testActive = false ∧ t = s) := by
  unfold execEndTestTone
  cases s.testActive <;> simp [next_eq_next, -Host.Outcome.next.injEq]

theorem execAlarmSet_next (a : AlarmState) (s t : State) :
    execAlarmSet a s = .next t ↔
      (s.alarmState ≠ .sounding ∧ a = .sounding ∧
        t = enterSounding s.cfg.alarmPattern { s with alarmState := .sounding })
      ∨ (s.alarmState = .sounding ∧ a ≠ .sounding ∧ t = leaveSounding { s with alarmState := a, testActive := false })
      ∨ (s.alarmState ≠ .sounding ∧ a ≠ .sounding ∧ t = { s with alarmState := a })
      ∨ (s.alarmState = .sounding ∧ a = .sounding ∧ t = s) := by
  unfold execAlarmSet
  by_cases h : s.alarmState = .sounding <;> by_cases ha : a = .sounding <;> simp [h, ha, next_eq_next, -Host.Outcome.next.injEq]

theorem execPatTick_next (s t : State) :
    execPatTick s = .next t ↔ s.patTimerRun = true ∧ ∃ p e, s.cfg.patterns[s.patSel]? = some p ∧
      p[s.patPos]? = some e ∧ t = { applyEntry e s with patPos := (s.patPos + 1) % p.length } := by
  unfold execPatTick
  rw [guarded_next]
  refine and_congr_right fun _ => ?_
  cases hp : s.cfg.patterns[s.patSel]? with
  | none => simp
  | some p => cases he : p[s.patPos]? <;> simp [he, next_eq_next, -Host.Outcome.next.injEq]

theorem execFreqTick_next (s t : State) :
    execFreqTick s = .next t ↔ s.freqTimerRun = true ∧
      t = { s with tonePhase := !s.tonePhase, pwmDuty := dutyOf s.cfg (!s.tonePhase) } := by
  simp [execFreqTick, next_eq_next, -Host.Outcome.next.injEq]

theorem execBtnEdge_next (u : BitVec 4) (level : Bool) (s t : State) :
    execBtnEdge u level s = .next t ↔ u.toNat < s.cfg.numButtons ∧ ∃ b, s.buttons[u.toNat]? = some b ∧
      b.irqEn = true ∧ t = setButton u (edgeButton level b) s := by
  simp [execBtnEdge, withButton_next, next_eq_next, -Host.Outcome.next.injEq]

theorem execBtnTick_next (u : BitVec 4) (level : Bool) (s t : State) :
    execBtnTick u level s = .next t ↔ u.toNat < s.cfg.numButtons ∧ ∃ b, s.buttons[u.toNat]? = some b ∧
      b.timerRun = true ∧
        t = setButton u (tickButton s.cfg.btnThreshold level b)
          (fireIf (tickAccepts s.cfg.btnThreshold level b && activeEdge (pullUpOf s.cfg u) b) b.cbPress
            (.firePress u) s) := by
  simp [execBtnTick, withButton_next, next_eq_next, -Host.Outcome.next.injEq]

theorem execOnPress_next (u : BitVec 4) (h : Handle) (s t : State) :
    execOnPress u h s = .next t ↔ u.toNat < s.cfg.numButtons ∧ ∃ b, s.buttons[u.toNat]? = some b ∧
      t = setButton u { b with cbPress := some h } s := by
  simp [execOnPress, withButton_next, next_eq_next, -Host.Outcome.next.injEq]

theorem execPipeBegin_next (s t : State) :
    execPipeBegin s = .next t ↔ s.pipePhase = .idle ∧
      ((effMode s = .spectrum ∧ t = setSeq .sampling 0 { s with pipeMode := some .spectrum })
      ∨ (effMode s = .constant ∧ t = setSeq .render 0 { s with pipeMode := some .constant })
      ∨ (effMode s = .off ∧ t = s)) := by
  unfold execPipeBegin
  rw [guarded_next]
  cases effMode s <;> simp [next_eq_next, -Host.Outcome.next.injEq]

theorem execPipeSample_next (v : BitVec 16) (s t : State) :
    execPipeSample v s = .next t ↔ v.toNat ≤ s.cfg.adcMax ∧ s.pipePhase = .sampling ∧ s.pipeIdx < s.x.length ∧
      t = afterSample s.cfg.n s.pipeIdx { s with x := s.x.set s.pipeIdx (some v.toNat) } := by
  unfold execPipeSample
  rw [operandOk_next, guarded_next]
  by_cases h : s.pipeIdx < s.x.length <;> simp [writeElem, h, next_eq_next, -Host.Outcome.next.injEq]

theorem execPipeAnalyze_next (s t : State) :
    execPipeAnalyze s = .next t ↔ s.pipePhase = .analyze ∧ ∃ xs, readRange s.x 0 s.cfg.n = some xs ∧
      t = setSeq .render 0 (storeSpectrum (analyze s.cfg xs) s) := by
  unfold execPipeAnalyze
  rw [guarded_next]
  cases readRange s.x 0 s.cfg.n <;> simp [next_eq_next, -Host.Outcome.next.injEq]

theorem bandOf_eq_some (s : State) (band : List Mag × List Phase) :
    bandOf s = some band ↔ ∃ ms ps,
      readRange s.mag (s.pipeIdx * s.cfg.binsPerLed) s.cfg.binsPerLed = some ms ∧
      readRange s.ph (s.pipeIdx * s.cfg.binsPerLed) s.cfg.binsPerLed = some ps ∧ band = (ms, ps) := by
  unfold bandOf
  cases readRange s.mag (s.pipeIdx * s.cfg.binsPerLed) s.cfg.binsPerLed <;>
    cases readRange s.ph (s.pipeIdx * s.cfg.binsPerLed) s.cfg.binsPerLed <;> simp [eq_comm]

/-- PIPE_LED renders one unit in its iteration's mode: with a colour computed from the band, or with the constant
colour. -/
theorem execPipeLed_next (slow : Bool) (s t : State) :
    execPipeLed slow s = .next t ↔ s.pipePhase = .render ∧
      ((s.pipeMode = some .spectrum ∧ ∃ band, bandOf s = some band ∧
          t = renderUnit (ledColour s.cfg band.1 band.2) slow s)
      ∨ (s.pipeMode = some .constant ∧ s.constValid = true ∧
        ∃ c, s.constColor = some c ∧ t = renderUnit (.rgb c) slow s)) := by
  unfold execPipeLed
  rw [guarded_next]
  cases hm : s.pipeMode with
  | none => simp
  | some m =>
    cases m with
    | constant =>
      simp only [renderConstant]
      cases s.constValid <;> cases s.constColor <;> simp [next_eq_next, -Host.Outcome.next.injEq]
    | spectrum =>
      simp only [renderSpectrum]
      cases bandOf s
      · simp
      · simp only [next_eq_next, Option.some.injEq, exists_eq_left', true_and, reduceCtorEq, false_and, or_false, beq_iff_eq]

theorem renderUnit_outputs (c : LedColor) (slow : Bool) (s : State) :
    (renderUnit c slow s).outputs =
      s.outputs ++ (if s.ledDrvEn then [.ledWrite s.pipeIdx c] else []) ++ (if slow then [.yieldSleep] else []) := by
  simp [renderUnit, emitIf_outputs]

/-- The sequencer's four pipeline moves (spec/44_arithmetic_and_sequencing.md R364). -/
theorem afterSample_seq (n i : Nat) (s : State) :
    ((afterSample n i s).pipePhase, (afterSample n i s).pipeIdx)
      = if i + 1 = n then (.analyze, 0) else (.sampling, i + 1) := by
  unfold afterSample; split <;> rfl

theorem afterLed_seq (n i : Nat) (s : State) :
    ((afterLed n i s).pipePhase, (afterLed n i s).pipeIdx)
      = if i + 1 = n then (.idle, 0) else (.render, i + 1) := by
  unfold afterLed; split <;> rfl

/-! ### The configuration check -/

/-- A valid configuration has at least one sample and at least one light unit, and the units divide the samples. -/
theorem configProblem_none_sizes (c : Config) (h : configProblem c = none) :
    2 ^ c.n.log2 = c.n ∧ c.numLeds ≠ 0 ∧ c.n % c.numLeds = 0 ∧ constraintsOk c = true := by
  unfold configProblem at h
  split at h
  · cases h
  · rename_i h1
    split at h
    · cases h
    · rename_i h2
      split at h
      · cases h
      · rename_i h3
        simp only [isPowerOfTwo, beq_eq_false_iff_ne, not_not] at h1
        simp only [not_or, not_not] at h2
        exact ⟨by simpa using h1, h2.1, h2.2, by simpa using h3⟩

theorem configProblem_none_pos (c : Config) (h : configProblem c = none) : 0 < c.n := by
  have := (configProblem_none_sizes c h).1
  rw [← this]
  exact Nat.two_pow_pos _

/-- R184: the bands of all units cover the bins exactly. -/
theorem configProblem_none_bins (c : Config) (h : configProblem c = none) : c.numLeds * c.binsPerLed = c.n := by
  obtain ⟨-, -, h3, -⟩ := configProblem_none_sizes c h
  exact Nat.mul_div_cancel' (Nat.dvd_of_mod_eq_zero h3)

end Sys2Proof.Machine
end

