-- ==== Sys2Proof/Laws/PerInstr.lean ====
section
/-! SUPPORT. One statement per stimulus (spec/30_encoding.md R101 to R106): the decoder reads back every word the
encoder writes, with every operand at every value. -/

namespace Sys2Proof.Laws

theorem getLsbD_place (lo n : Nat) (v : BitVec n) (i : Nat) :
    (place lo v).getLsbD i = (decide (i < 32) && (decide (lo ≤ i) && v.getLsbD (i - lo))) := by
  by_cases h : i < 32 <;> by_cases h' : i < lo <;> simp [place, h, h']
  have : lo ≤ i := by omega
  simp [this]

theorem getLsbD_placeBit (j : Nat) (b : Bool) (i : Nat) :
    (placeBit j b).getLsbD i = (decide (i < 32) && (decide (i = j) && b)) := by
  unfold placeBit
  rw [getLsbD_place]
  rcases Nat.lt_trichotomy i j with h | h | h
  · have h1 : ¬ j ≤ i := by omega
    have h2 : i ≠ j := by omega
    simp [h1, h2]
  · subst h; simp
  · have h1 : ¬ (i - j = 0) := by omega
    have h2 : i ≠ j := by omega
    simp [h2, BitVec.getLsbD_ofBool, h1]

theorem field_eq {n : Nat} (w : Word) (lo : Nat) (v : BitVec n)
    (h : ∀ i, i < n → w.getLsbD (lo + i) = v.getLsbD i) : field w lo n = v := by
  apply BitVec.eq_of_getLsbD_eq
  intro i hi
  rw [field, BitVec.getLsbD_extractLsb', h i hi]; simp [hi]

/-- The must-be-zero test passes where no bit from `a` up to `b` is set and the mask has only such bits. -/
theorem whenZero_ok (w m : Word) (i : Except DecodeError Instr) (a b : Nat)
    (hm : ∀ j, j < 32 → m.getLsbD j = true → a ≤ j ∧ j < b)
    (h : ∀ j, a ≤ j → j < b → w.getLsbD j = false) : whenZero w m i = i := by
  have : w &&& m = 0 := by
    apply BitVec.eq_of_getLsbD_eq
    intro j hj
    rw [BitVec.getLsbD_and]
    cases hmj : m.getLsbD j
    · simp
    · rw [h j (hm j hj hmj).1 (hm j hj hmj).2]; simp
  rw [whenZero, if_pos this]

/-- The bits of an encoded stimulus. -/
theorem getLsbD_encode (i : Instr) (j : Nat) :
    (encode i).getLsbD j = ((place 24 i.opcode).getLsbD j || i.payload.getLsbD j) := by
  rw [encode, BitVec.getLsbD_or]

/-- No payload reaches the opcode's bits. -/
theorem payload_low (i : Instr) (j : Nat) (hj : 24 ≤ j) : i.payload.getLsbD j = false := by
  have hv : ∀ (n lo : Nat) (v : BitVec n), lo + n ≤ 24 → v.getLsbD (j - lo) = false :=
    fun n lo v h => BitVec.getLsbD_of_ge v _ (by omega)
  cases i <;> simp only [Instr.payload, BitVec.getLsbD_or, getLsbD_place, getLsbD_placeBit,
    Bool.or_eq_false_iff, Bool.and_eq_false_iff, decide_eq_false_iff_not] <;>
    (try refine ⟨?_, ?_⟩) <;> (try refine ⟨?_, ?_⟩) <;>
    first
      | exact BitVec.getLsbD_zero
      | (right; left; omega)
      | (right; right; exact hv _ _ _ (by decide))

/-- Below the opcode an encoded stimulus is its payload. -/
theorem encode_low (i : Instr) (j : Nat) (hj : j < 24) : (encode i).getLsbD j = i.payload.getLsbD j := by
  rw [getLsbD_encode, getLsbD_place]
  have : ¬ 24 ≤ j := by omega
  simp [this]

/-- The opcode field of an encoded stimulus (R101). -/
theorem encode_opcode (i : Instr) : field (encode i) 24 8 = i.opcode := by
  apply field_eq
  intro j hj
  rw [getLsbD_encode, payload_low i _ (by omega), getLsbD_place]
  have h1 : 24 + j < 32 := by omega
  simp [h1]

/-- A payload field of an encoded stimulus is read from the payload. -/
theorem encode_field (i : Instr) (lo n : Nat) (h : lo + n ≤ 24) : field (encode i) lo n = field i.payload lo n := by
  apply field_eq
  intro j hj
  rw [encode_low i _ (by omega), field, BitVec.getLsbD_extractLsb']
  simp [hj]

theorem encode_bit (i : Instr) (j : Nat) (h : j < 24) : bit (encode i) j = bit i.payload j := encode_low i j h

/-- The family: decoding what was encoded gives the stimulus back. -/
def RoundTrip.Statement (i : Instr) : Prop := decode (encode i) = .ok i

/-- The must-be-zero test of an encoded stimulus looks at its payload. -/
theorem whenZero_encode (i : Instr) (m : Word) (r : Except DecodeError Instr) (a b : Nat) (hb : b ≤ 24)
    (hm : ∀ j, j < 32 → m.getLsbD j = true → a ≤ j ∧ j < b)
    (h : ∀ j, a ≤ j → j < b → i.payload.getLsbD j = false) : whenZero (encode i) m r = r :=
  whenZero_ok _ m r a b hm fun j h1 h2 => by rw [encode_low i j (by omega)]; exact h j h1 h2

/-- A field placed at `lo` is read back there, whatever else the word holds above it. -/
theorem field_place {n : Nat} (lo : Nat) (v : BitVec n) (rest : Word) (h : lo + n ≤ 32)
    (hr : ∀ j, lo ≤ j → j < lo + n → rest.getLsbD j = false) : field (place lo v ||| rest) lo n = v := by
  apply field_eq
  intro j hj
  rw [BitVec.getLsbD_or, hr _ (by omega) (by omega), getLsbD_place]
  have : lo + j < 32 := by omega
  simp [this]

theorem field_place_only {n : Nat} (lo : Nat) (v : BitVec n) (h : lo + n ≤ 32) : field (place lo v) lo n = v := by
  have := field_place lo v 0 h (fun _ _ _ => by simp)
  simpa using this

theorem place_zero_outside {n : Nat} (lo : Nat) (v : BitVec n) (j : Nat) (h : j < lo ∨ lo + n ≤ j) :
    (place lo v).getLsbD j = false := by
  rw [getLsbD_place]
  rcases h with h | h
  · have : ¬ lo ≤ j := by omega
    simp [this]
  · rw [BitVec.getLsbD_of_ge v _ (by omega)]; simp

theorem placeBit_zero_outside (i : Nat) (b : Bool) (j : Nat) (h : j ≠ i) : (placeBit i b).getLsbD j = false := by
  rw [getLsbD_placeBit]; simp [h]

theorem bit_placeBit (i : Nat) (b : Bool) (rest : Word) (h : i < 32) (hr : rest.getLsbD i = false) :
    bit (placeBit i b ||| rest) i = b := by
  rw [bit, BitVec.getLsbD_or, hr, getLsbD_placeBit]; simp [h]

theorem bit_placeBit_only (i : Nat) (b : Bool) (h : i < 32) : bit (placeBit i b) i = b := by
  rw [bit, getLsbD_placeBit]; simp [h]

/-! ### The nineteen cases -/

theorem RoundTrip.setMode (m : Mode) : RoundTrip.Statement (.setMode m) := by cases m <;> rfl

theorem RoundTrip.getMode : RoundTrip.Statement .getMode := by rfl

theorem RoundTrip.setConstantColor (r g b : Byte) : RoundTrip.Statement (.setConstantColor r g b) := by
  have h := encode_opcode (.setConstantColor r g b)
  have hr : field (Instr.setConstantColor r g b).payload 16 8 = r := by
    show field (place 16 r ||| place 8 g ||| place 0 b) 16 8 = r
    rw [BitVec.or_assoc]
    refine field_place 16 r _ (by omega) fun j h1 h2 => ?_
    rw [BitVec.getLsbD_or, place_zero_outside 8 g j (by omega), place_zero_outside 0 b j (by omega)]; rfl
  have hg : field (Instr.setConstantColor r g b).payload 8 8 = g := by
    show field (place 16 r ||| place 8 g ||| place 0 b) 8 8 = g
    rw [BitVec.or_comm (place 16 r), BitVec.or_assoc]
    refine field_place 8 g _ (by omega) fun j h1 h2 => ?_
    rw [BitVec.getLsbD_or, place_zero_outside 16 r j (by omega), place_zero_outside 0 b j (by omega)]; rfl
  have hb : field (Instr.setConstantColor r g b).payload 0 8 = b := by
    show field (place 16 r ||| place 8 g ||| place 0 b) 0 8 = b
    rw [BitVec.or_comm]
    refine field_place 0 b _ (by omega) fun j h1 h2 => ?_
    rw [BitVec.getLsbD_or, place_zero_outside 16 r j (by omega), place_zero_outside 8 g j (by omega)]; rfl
  unfold RoundTrip.Statement decode
  rw [h]
  show Except.ok (Instr.setConstantColor _ _ _) = _
  rw [encode_field _ 16 8 (by omega), encode_field _ 8 8 (by omega), encode_field _ 0 8 (by omega), hr, hg, hb]

theorem RoundTrip.alarmSounding : RoundTrip.Statement .alarmSounding := by rfl

theorem RoundTrip.beginTestTone (p : Byte) : RoundTrip.Statement (.beginTestTone p) := by
  unfold RoundTrip.Statement decode
  rw [encode_opcode]
  show whenZero _ _ (Except.ok (Instr.beginTestTone _)) = _
  rw [whenZero_encode (.beginTestTone p) _ _ 8 24 (by omega) (by decide) fun j h1 h2 => place_zero_outside 0 p j (by omega),
    encode_field _ 0 8 (by omega)]
  exact congrArg (fun v => Except.ok (Instr.beginTestTone v)) (field_place_only 0 p (by omega))

theorem RoundTrip.endTestTone : RoundTrip.Statement .endTestTone := by rfl

theorem RoundTrip.onRotateCw (h : Handle) : RoundTrip.Statement (.onRotateCw h) := by
  unfold RoundTrip.Statement decode
  rw [encode_opcode]
  show whenZero _ _ (Except.ok (Instr.onRotateCw _)) = _
  rw [whenZero_encode (.onRotateCw h) _ _ 16 24 (by omega) (by decide) fun j h1 h2 => place_zero_outside 0 h j (by omega),
    encode_field _ 0 16 (by omega)]
  exact congrArg (fun v => Except.ok (Instr.onRotateCw v)) (field_place_only 0 h (by omega))

theorem RoundTrip.onRotateCcw (h : Handle) : RoundTrip.Statement (.onRotateCcw h) := by
  unfold RoundTrip.Statement decode
  rw [encode_opcode]
  show whenZero _ _ (Except.ok (Instr.onRotateCcw _)) = _
  rw [whenZero_encode (.onRotateCcw h) _ _ 16 24 (by omega) (by decide) fun j h1 h2 => place_zero_outside 0 h j (by omega),
    encode_field _ 0 16 (by omega)]
  exact congrArg (fun v => Except.ok (Instr.onRotateCcw v)) (field_place_only 0 h (by omega))

/-- The fields of formats UH and UL: a button index above a lower part that stays below bit 20. -/
theorem button_field (u : BitVec 4) (rest : Word) (h : ∀ j, 20 ≤ j → rest.getLsbD j = false) :
    field (place 20 u ||| rest) 20 4 = u :=
  field_place 20 u rest (by omega) fun j h1 _ => h j h1

theorem RoundTrip.onPress (u : BitVec 4) (h : Handle) : RoundTrip.Statement (.onPress u h) := by
  have hu : field (Instr.onPress u h).payload 20 4 = u :=
    button_field u _ fun j hj => place_zero_outside 0 h j (by omega)
  have hh : field (Instr.onPress u h).payload 0 16 = h := by
    show field (place 20 u ||| place 0 h) 0 16 = h
    rw [BitVec.or_comm]
    exact field_place 0 h _ (by omega) fun j h1 h2 => place_zero_outside 20 u j (by omega)
  unfold RoundTrip.Statement decode
  rw [encode_opcode]
  show whenZero _ _ (Except.ok (Instr.onPress _ _)) = _
  rw [whenZero_encode _ _ _ 16 20 (by omega) (by decide) fun j h1 h2 => by
      show (place 20 u ||| place 0 h).getLsbD j = false
      rw [BitVec.getLsbD_or, place_zero_outside 20 u j (by omega), place_zero_outside 0 h j (by omega)]; rfl,
    encode_field _ 20 4 (by omega), encode_field _ 0 16 (by omega), hu, hh]

theorem RoundTrip.alarmSet (a : AlarmState) : RoundTrip.Statement (.alarmSet a) := by cases a <;> rfl

theorem RoundTrip.encEdge (clk dir : Bool) : RoundTrip.Statement (.encEdge clk dir) := by
  cases clk <;> cases dir <;> rfl

theorem RoundTrip.btnEdge (u : BitVec 4) (level : Bool) : RoundTrip.Statement (.btnEdge u level) := by
  have hu : field (Instr.btnEdge u level).payload 20 4 = u :=
    button_field u _ fun j hj => placeBit_zero_outside 0 level j (by omega)
  have hl : bit (Instr.btnEdge u level).payload 0 = level := by
    show bit (place 20 u ||| placeBit 0 level) 0 = level
    rw [BitVec.or_comm]
    exact bit_placeBit 0 level _ (by omega) (place_zero_outside 20 u 0 (by omega))
  unfold RoundTrip.Statement decode
  rw [encode_opcode]
  show whenZero _ _ (Except.ok (Instr.btnEdge _ _)) = _
  rw [whenZero_encode _ _ _ 1 20 (by omega) (by decide) fun j h1 h2 => by
      show (place 20 u ||| placeBit 0 level).getLsbD j = false
      rw [BitVec.getLsbD_or, place_zero_outside 20 u j (by omega), placeBit_zero_outside 0 level j (by omega)]; rfl,
    encode_field _ 20 4 (by omega), encode_bit _ 0 (by omega), hu, hl]

theorem RoundTrip.btnTick (u : BitVec 4) (level : Bool) : RoundTrip.Statement (.btnTick u level) := by
  have hu : field (Instr.btnTick u level).payload 20 4 = u :=
    button_field u _ fun j hj => placeBit_zero_outside 0 level j (by omega)
  have hl : bit (Instr.btnTick u level).payload 0 = level := by
    show bit (place 20 u ||| placeBit 0 level) 0 = level
    rw [BitVec.or_comm]
    exact bit_placeBit 0 level _ (by omega) (place_zero_outside 20 u 0 (by omega))
  unfold RoundTrip.Statement decode
  rw [encode_opcode]
  show whenZero _ _ (Except.ok (Instr.btnTick _ _)) = _
  rw [whenZero_encode _ _ _ 1 20 (by omega) (by decide) fun j h1 h2 => by
      show (place 20 u ||| placeBit 0 level).getLsbD j = false
      rw [BitVec.getLsbD_or, place_zero_outside 20 u j (by omega), placeBit_zero_outside 0 level j (by omega)]; rfl,
    encode_field _ 20 4 (by omega), encode_bit _ 0 (by omega), hu, hl]

theorem RoundTrip.patTick : RoundTrip.Statement .patTick := by rfl

theorem RoundTrip.freqTick : RoundTrip.Statement .freqTick := by rfl

theorem RoundTrip.pipeBegin : RoundTrip.Statement .pipeBegin := by rfl

theorem RoundTrip.pipeSample (v : BitVec 16) : RoundTrip.Statement (.pipeSample v) := by
  unfold RoundTrip.Statement decode
  rw [encode_opcode]
  show whenZero _ _ (Except.ok (Instr.pipeSample _)) = _
  rw [whenZero_encode (.pipeSample v) _ _ 16 24 (by omega) (by decide) fun j h1 h2 => place_zero_outside 0 v j (by omega),
    encode_field _ 0 16 (by omega)]
  exact congrArg (fun v => Except.ok (Instr.pipeSample v)) (field_place_only 0 v (by omega))

theorem RoundTrip.pipeAnalyze : RoundTrip.Statement .pipeAnalyze := by rfl

theorem RoundTrip.pipeLed (slow : Bool) : RoundTrip.Statement (.pipeLed slow) := by cases slow <;> rfl

end Sys2Proof.Laws
end

