-- ==== Sys2Proof/Laws/Sane.lean ====
section
/-! SUPPORT. Sanity as a check that can be evaluated on a concrete state, and the lemma that it implies `Sane`; the
witnesses of Sys2Proof/Tests/Slice0.lean use it. -/

namespace Sys2Proof.Laws

open Sys2Proof.Machine

/-- The elements of an array below `k` hold values. -/
def filledTo {α : Type} (a : List (Option α)) (k : Nat) : Bool := (List.range k).all fun i => (readElem a i).isSome

theorem filledTo_elim {α : Type} {a : List (Option α)} {k : Nat} (h : filledTo a k = true) :
    ∀ i < k, (readElem a i).isSome = true := by
  simpa [filledTo, List.all_eq_true] using h

/-- `Invariants` evaluated. -/
def invariantsB (s : State) : Bool :=
  decide (s.ledDrvEn = true ↔ effMode s ≠ .off)
  && s.buttons.all (fun b => decide (b.irqEn = true ↔ (b.state = .holdUp ∨ b.state = .holdDown))
      && decide (b.timerRun = true ↔ (b.state = .falling ∨ b.state = .rising)))
  && decide (s.patTimerRun = s.sounding ∧ s.pwmEn = s.sounding ∧ s.radioHiz = s.sounding)
  && decide (s.freqTimerRun = true → s.alarmState = .sounding ∧ s.toneFreq ≠ none)
  && decide (s.freqTimerRun = false → s.pwmDuty = Config.dutyLow ∧ s.tonePhase = false)
  && decide (s.testActive = true → s.alarmState = .sounding)
  && decide (s.encState ≠ .reserved)
  && (s.pipePhase != .analyze || filledTo s.x s.cfg.n)
  && (s.pipePhase != .render || s.pipeMode != some .spectrum || (filledTo s.mag s.cfg.n && filledTo s.ph s.cfg.n))

/-- `Shape` evaluated. -/
def shapeB (s : State) : Bool :=
  decide (configProblem s.cfg = none)
  && decide (s.x.length = s.cfg.n ∧ s.re.length = s.cfg.n ∧ s.im.length = s.cfg.n ∧ s.mag.length = s.cfg.n
      ∧ s.ph.length = s.cfg.n)
  && decide (s.buttons.length = s.cfg.numButtons)
  && s.buttons.all (fun b => decide (b.count < s.cfg.btnThreshold))
  && (s.cfg.patterns[s.patSel]?).any (fun p => decide (s.patPos < p.length))
  && s.toneFreq.all (fun hz => decide (0 < hz))
  && decide (s.pwmDuty = s.cfg.dutyHigh ∨ s.pwmDuty = Config.dutyLow)
  && (match s.pipePhase with
      | .idle => decide (s.pipeIdx = 0)
      | .sampling => decide (s.pipeIdx < s.cfg.n)
      | .analyze => decide (s.pipeIdx = 0)
      | .render => decide (s.pipeIdx < s.cfg.numLeds))
  && decide (s.pipePhase ≠ .idle → s.pipeMode.isSome = true)
  && s.x.all (fun o => o.all fun v => decide (v ≤ s.cfg.adcMax))
  && (s.pipePhase != .sampling || filledTo s.x s.pipeIdx)
  && decide (s.constValid = s.constColor.isSome)
  && decide (s.testActive = true → s.alarmSaved ≠ .sounding)

theorem invariants_of_check {s : State} (h : invariantsB s = true) : Invariants s := by
  simp only [invariantsB, Bool.and_eq_true, decide_eq_true_eq, List.all_eq_true, Bool.or_eq_true, bne_iff_ne] at h
  obtain ⟨⟨⟨⟨⟨⟨⟨⟨h1, h2⟩, h3⟩, h4⟩, h5⟩, h6⟩, h7⟩, h8⟩, h9⟩ := h
  refine ⟨h1, fun b hb => (h2 b hb).1, fun b hb => (h2 b hb).2, h3, h4, h5, h6, h7, ?_, ?_⟩
  · intro hp
    exact filledTo_elim (h8.resolve_left (fun n => n hp))
  · intro hp hm k hk
    rcases h9 with (n | n) | n
    · exact absurd hp n
    · exact absurd hm n
    · exact ⟨filledTo_elim n.1 k hk, filledTo_elim n.2 k hk⟩

theorem shape_of_check {s : State} (h : shapeB s = true) : Shape s := by
  simp only [shapeB, Bool.and_eq_true, decide_eq_true_eq, List.all_eq_true, Bool.or_eq_true, bne_iff_ne] at h
  obtain ⟨⟨⟨⟨⟨⟨⟨⟨⟨⟨⟨⟨h1, h2⟩, h3⟩, h4⟩, h5⟩, h6⟩, h7⟩, h8⟩, h9⟩, h10⟩, h11⟩, h12⟩, h13⟩ := h
  refine ⟨h1, h2, h3, h4, ?_, ?_, h7, ?_, h9, ?_, ?_, h12, h13⟩
  · cases hp : s.cfg.patterns[s.patSel]? with
    | none => simp [hp] at h5
    | some p => exact ⟨p, rfl, by simpa [hp] using h5⟩
  · intro hz hh; simpa [hh] using h6
  · unfold seqInRange
    split at h8 <;> simp_all
  · intro i v hv
    unfold readElem at hv
    split at hv
    · rename_i o ho
      subst hv
      simpa using h10 _ (List.mem_of_getElem? ho)
    · cases hv
  · intro hp
    exact filledTo_elim (h11.resolve_left (fun n => n hp))

/-- A state that passes both checks is sane. -/
theorem sane_of_check {s : State} (h : (invariantsB s && shapeB s) = true) : Sane s := by
  rw [Bool.and_eq_true] at h
  exact ⟨invariants_of_check h.1, shape_of_check h.2⟩

/-- An outcome that is a next state. -/
def isNext {σ φ ρ : Type} : Host.Outcome σ φ ρ → Bool
  | .next _ => true
  | .fault _ => false
  | .refused _ => false

theorem next_of_isNext {σ φ ρ : Type} {r : Host.Outcome σ φ ρ} (h : isNext r = true) : ∃ t, r = .next t := by
  cases r with
  | next t => exact ⟨t, rfl⟩
  | fault f => cases h
  | refused f => cases h

end Sys2Proof.Laws
end

