-- ==== Sys2Proof/Laws/Trig.lean ====
section
/-! SUPPORT. The table of cosines holds the cosines of the multiples of 2π/N, and an exact angle that is answered is the
angle. -/

namespace Sys2Proof.Machine

theorem gammaReal_series (l : Nat) : gammaReal l = Real.sqrtTwoAddSeries 0 l := by
  induction l with
  | zero => rfl
  | succ l ih => rw [gammaReal, ih]; rfl

theorem gammaReal_cos (l : Nat) : gammaReal l = 2 * Real.cos (Real.pi / 2 ^ (l + 1)) := by
  rw [gammaReal_series, Real.cos_pi_over_two_pow]; ring

@[simp] theorem val_gamma (l : Nat) : Alg.val l (Alg.gamma l) = gammaReal l := by
  cases l with
  | zero => simp [Alg.gamma, gammaReal]
  | succ l => simp [Alg.gamma, Alg.val]

/-- The number the table is built from is 2·cos(2π/N). -/
theorem val_twoCosStep (n : Nat) (h : 2 ^ n.log2 = n) :
    Alg.val (levelOf n) (twoCosStep n) = 2 * Real.cos (2 * Real.pi / n) := by
  unfold twoCosStep
  split
  · rename_i h1
    subst h1
    simp
  · split
    · rename_i h2
      subst h2
      simp
    · rename_i h1 h2
      have hp : 2 ≤ n.log2 := by
        by_contra hn
        have : n.log2 = 0 ∨ n.log2 = 1 := by omega
        rcases this with h0 | h0 <;> rw [h0] at h <;> omega
      rw [val_gamma, gammaReal_cos]
      have hn : (n : ℝ) = 2 ^ (levelOf n + 1) * 2 := by
        have : n = 2 ^ (levelOf n + 1 + 1) := by
          rw [← h]; congr 1; rw [h]; unfold levelOf; omega
        rw [← pow_succ]
        exact_mod_cast this
      rw [hn]
      congr 2
      field_simp

@[simp] theorem length_cosList (l : Nat) (step a b : Alg) (k : Nat) : (cosList l step k a b).length = k := by
  induction k generalizing a b with
  | zero => rfl
  | succ k ih => simp [cosList, ih]

theorem val_cosList (l : Nat) (step : Alg) (t : ℝ) (hs : Alg.val l step = 2 * Real.cos t) (k : Nat) (a b : Alg)
    (j : Nat) (ha : Alg.val l a = 2 * Real.cos (j * t)) (hb : Alg.val l b = 2 * Real.cos ((j + 1) * t)) (i : Nat)
    (hi : i < k) : Alg.val l ((cosList l step k a b).getD i (.rat 0)) = Real.cos ((j + i) * t) := by
  induction k generalizing a b j i with
  | zero => omega
  | succ k ih =>
    cases i with
    | zero =>
      simp only [cosList, List.getD_cons_zero, val_scale, ha]
      push_cast
      rw [add_zero]; ring
    | succ i =>
      simp only [cosList, List.getD_cons_succ]
      rw [ih b _ (j + 1) (by push_cast; exact hb) ?_ i (by omega)]
      · congr 1; push_cast; ring
      · rw [val_sub, val_mul, hs, ha, hb]
        push_cast
        have h1 := Real.cos_add (((j : ℝ) + 1) * t) t
        have h2 := Real.cos_sub (((j : ℝ) + 1) * t) t
        have e1 : ((j : ℝ) + 1 + 1) * t = (j + 1) * t + t := by ring
        have e2 : (j : ℝ) * t = (j + 1) * t - t := by ring
        rw [e1, e2, h1, h2]
        ring

theorem cosTable_get (n : Nat) (h : 2 ^ n.log2 = n) (i : Nat) (hi : i < n) :
    Alg.val (levelOf n) ((cosTable n).getD i (.rat 0)) = Real.cos (2 * Real.pi * i / n) := by
  have := val_cosList (levelOf n) (twoCosStep n) (2 * Real.pi / n) (val_twoCosStep n h) n (.rat 2) (twoCosStep n) 0
    (by simp) (by rw [val_twoCosStep n h]; simp) i hi
  rw [cosTable, this]
  congr 1
  push_cast; ring

/-- The angle 2πm/N depends on m modulo N. -/
theorem cos_mod (n m : Nat) (hn : 0 < n) :
    Real.cos (2 * Real.pi * ((m % n : Nat) : ℝ) / n) = Real.cos (2 * Real.pi * m / n) := by
  have hn' : (n : ℝ) ≠ 0 := by exact_mod_cast hn.ne'
  have hm : (m : ℝ) = ((m % n : Nat) : ℝ) + (m / n : Nat) * n := by
    exact_mod_cast (by rw [mul_comm]; exact (Nat.mod_add_div m n).symm)
  have : 2 * Real.pi * (m : ℝ) / n = 2 * Real.pi * ((m % n : Nat) : ℝ) / n + ((m / n : Nat) : ℝ) * (2 * Real.pi) := by
    rw [hm]; field_simp
  rw [this, Real.cos_add_nat_mul_two_pi]

theorem val_cosAt (n m : Nat) (h : 2 ^ n.log2 = n) (hn : 0 < n) :
    Alg.val (levelOf n) (cosAt (cosTable n) n m) = Real.cos (2 * Real.pi * m / n) := by
  rw [cosAt, cosTable_get n h _ (Nat.mod_lt _ hn), cos_mod n m hn]

theorem val_sinAt (n m : Nat) (h : 2 ^ n.log2 = n) (hn : 0 < n) :
    Alg.val (levelOf n) (sinAt (cosTable n) n m) = Real.sin (2 * Real.pi * m / n) := by
  have hpi := Real.pi_ne_zero
  unfold sinAt
  split
  · rename_i h4
    rw [cosTable_get n h _ (Nat.mod_lt _ hn), cos_mod n _ hn]
    obtain ⟨q, hq⟩ := Nat.dvd_of_mod_eq_zero h4
    have hq0 : (q : ℝ) ≠ 0 := by
      have : q ≠ 0 := by omega
      exact_mod_cast this
    have h5 : n / 4 = q := by omega
    rw [h5, hq]
    have : 2 * Real.pi * ((m + 3 * q : Nat) : ℝ) / ((4 * q : Nat) : ℝ)
        = 2 * Real.pi * m / ((4 * q : Nat) : ℝ) + Real.pi / 2 + Real.pi := by
      push_cast; field_simp; ring
    rw [this, Real.cos_add_pi, Real.cos_add_pi_div_two, neg_neg]
  · rename_i h4
    have h12 : n = 1 ∨ n = 2 := by
      rcases Nat.lt_or_ge n.log2 2 with h2 | h2
      · have : n.log2 = 0 ∨ n.log2 = 1 := by omega
        rcases this with h0 | h0 <;> rw [h0] at h <;> omega
      · exfalso
        apply h4
        rw [← h]
        obtain ⟨d, hd⟩ := Nat.exists_eq_add_of_le h2
        rw [hd, pow_add]
        omega
    rw [val_rat]
    rcases h12 with rfl | rfl
    · have : 2 * Real.pi * (m : ℝ) / ((1 : Nat) : ℝ) = ((2 * m : Nat) : ℝ) * Real.pi := by push_cast; ring
      rw [this, Real.sin_nat_mul_pi]; simp
    · have : 2 * Real.pi * (m : ℝ) / ((2 : Nat) : ℝ) = ((m : Nat) : ℝ) * Real.pi := by push_cast; ring
      rw [this, Real.sin_nat_mul_pi]; simp

end Sys2Proof.Machine
end

