-- ==== Sys2Proof/Laws/Spectrum.lean ====
section
/-! SUPPORT. The spectrum pipeline's functions denote the rules of spec/41_spectrum_pipeline.md over the reals: the
transform, magnitude and phase exactly, the band averages enclosed, and the colour exactly. -/

namespace Sys2Proof.Machine

/-! ### Exact angles -/

/-- The angle 2πj/N for an integer j depends on j modulo N. -/
theorem int_angle (n : Nat) (j : Int) (hn : 0 < n) :
    ∃ k : Int, 2 * Real.pi * (((j % n).toNat : Nat) : ℝ) / n = 2 * Real.pi * j / n + k * (2 * Real.pi) := by
  have hn' : (n : ℝ) ≠ 0 := by exact_mod_cast hn.ne'
  have h0 : 0 ≤ j % (n : Int) := Int.emod_nonneg j (by exact_mod_cast hn.ne')
  have h1 : (((j % n).toNat : Nat) : Int) = j % n := Int.toNat_of_nonneg h0
  have h2 : (((j % n).toNat : Nat) : ℝ) = ((j % (n : Int) : Int) : ℝ) := by rw [← h1]; norm_cast
  have h3 : ((j % (n : Int) : Int) : ℝ) = j - n * ((j / n : Int) : ℝ) := by
    have := Int.emod_add_mul_ediv j n
    have h4 : ((j % (n : Int) + n * (j / n) : Int) : ℝ) = j := by exact_mod_cast this
    push_cast at h4
    linarith
  refine ⟨-(j / n), ?_⟩
  rw [h2, h3]
  push_cast
  field_simp
  ring

/-- An exact angle that is answered is the angle, where the enclosure holds an angle of the point. -/
theorem exactTurns?_eq (n : Nat) (h : 2 ^ n.log2 = n) (hn : 0 < n) (re im : Alg) (e : Encl) (q : Rat) (r t : ℝ)
    (hre : re.val (levelOf n) = r * Real.cos t) (him : im.val (levelOf n) = r * Real.sin t)
    (he : e.holds (t / Real.pi)) (hq : exactTurns? (cosTable n) n re im e = some q) : t / Real.pi = q := by
  have hpi := Real.pi_ne_zero
  have hn' : (n : ℝ) ≠ 0 := by exact_mod_cast hn.ne'
  simp only [exactTurns?] at hq
  generalize hj : ((e.lo + e.hi) * n / 2 + 1 / 2).floor = j at hq
  split at hq
  case isFalse => cases hq
  rename_i hc
  obtain ⟨h1, h2, h3, h4, h5, h6⟩ := hc
  have hq' := Option.some.inj hq
  have h5 := congrArg (Alg.val (levelOf n)) h5
  have h6 := congrArg (Alg.val (levelOf n)) h6
  rw [val_add, val_mul, val_mul, val_cosAt n _ h hn, val_sinAt n _ h hn, hre, him] at h5
  rw [val_sub, val_mul, val_mul, val_cosAt n _ h hn, val_sinAt n _ h hn, hre, him] at h6
  obtain ⟨k, hk⟩ := int_angle n j hn
  rw [hk, Real.cos_add_int_mul_two_pi, Real.sin_add_int_mul_two_pi] at h5 h6
  have hr : r ≠ 0 := by
    rintro rfl
    rcases h4 with h4 | h4
    · exact h4 ((sign_eq_zero _ _).mpr (by rw [hre]; ring))
    · exact h4 ((sign_eq_zero _ _).mpr (by rw [him]; ring))
  have h7 : Real.cos t = Real.cos (2 * Real.pi * j / n - t) := by
    rw [Real.cos_sub]
    apply mul_left_cancel₀ hr
    linarith
  have h8 : Real.sin t = Real.sin (2 * Real.pi * j / n - t) := by
    rw [Real.sin_sub]
    apply mul_left_cancel₀ hr
    linarith
  have h9 : ((t : ℝ) : Real.Angle) = ((2 * Real.pi * j / n - t : ℝ) : Real.Angle) := Real.Angle.cos_sin_inj h7 h8
  rw [Real.Angle.angle_eq_iff_two_pi_dvd_sub] at h9
  obtain ⟨i, hi⟩ := h9
  have h10 : t / Real.pi = (j : ℝ) / n + i := by
    field_simp
    field_simp at hi
    linarith
  have hqv : (q : ℝ) = (j : ℝ) / n := by rw [← hq', cast_mkRat]
  have hqs : (q : ℝ) = t / Real.pi - i := by rw [hqv, h10]; ring
  have h1' : (e.lo : ℝ) ≤ q := by rw [← hq']; exact_mod_cast h1
  have h2' : (q : ℝ) ≤ e.hi := by rw [← hq']; exact_mod_cast h2
  have h3' : (e.hi : ℝ) - e.lo < 1 := by exact_mod_cast h3
  have hi1 : (i : ℝ) < 1 := by linarith [he.1, he.2]
  have hi2 : (-1 : ℝ) < i := by linarith [he.1, he.2]
  have hi0 : i = 0 := by
    have a1 : i < 1 := by exact_mod_cast hi1
    have a2 : -1 < i := by exact_mod_cast hi2
    omega
  rw [hqs, hi0]; simp

/-! ### The transform -/

theorem val_dftSum (l : Nat) (t : Nat → Alg) (f : Nat → ℝ) (ht : ∀ m, Alg.val l (t m) = f m) (k i : Nat)
    (xs : List Nat) :
    Alg.val l (dftSum t k i xs) = ∑ j ∈ Finset.range xs.length, (sampleAt xs j) * f (k * (i + j)) := by
  induction xs generalizing i with
  | nil => simp [dftSum]
  | cons v rest ih =>
    rw [dftSum, val_add, val_scale, ih, ht, List.length_cons, Finset.sum_range_succ', add_comm]
    refine congrArg₂ _ (Finset.sum_congr rfl fun j _ => ?_) ?_
    · simp only [sampleAt, List.getD_cons_succ]
      rw [show i + 1 + j = i + (j + 1) by omega]
    · simp [sampleAt]

/-- R175, the real part. -/
theorem val_dftRe (n : Nat) (h : 2 ^ n.log2 = n) (hn : 0 < n) (xs : List Nat) (hx : xs.length = n) (k : Nat) :
    Alg.val (levelOf n) (dftRe (cosTable n) n xs k) = dftReal n xs k := by
  rw [dftRe, val_dftSum _ _ _ (fun m => val_cosAt n m h hn), hx, dftReal]
  refine Finset.sum_congr rfl fun j _ => ?_
  congr 2
  push_cast; ring

/-- R175, the imaginary part. -/
theorem val_dftIm (n : Nat) (h : 2 ^ n.log2 = n) (hn : 0 < n) (xs : List Nat) (hx : xs.length = n) (k : Nat) :
    Alg.val (levelOf n) (dftIm (cosTable n) n xs k) = dftImag n xs k := by
  rw [dftIm, val_neg, val_dftSum _ _ _ (fun m => val_sinAt n m h hn), hx, dftImag]
  congr 1
  refine Finset.sum_congr rfl fun j _ => ?_
  congr 2
  push_cast; ring

/-- R177. -/
theorem val_magnitude (l : Nat) (re im : Alg) :
    Mag.val l (magnitude l re im) = √(re.val l ^ 2 + im.val l ^ 2) := by
  have h : Alg.val l ((Alg.mul l re re).add (Alg.mul l im im)) = re.val l ^ 2 + im.val l ^ 2 := by
    rw [val_add, val_mul, val_mul]; ring
  unfold magnitude
  split
  · rename_i y hy
    rw [Mag.val, sqrt?_val l _ y hy, h]
  · rw [Mag.val, h]

theorem arg_polar (x y : ℝ) :
    x = ‖(⟨x, y⟩ : ℂ)‖ * Real.cos (Complex.arg ⟨x, y⟩) ∧ y = ‖(⟨x, y⟩ : ℂ)‖ * Real.sin (Complex.arg ⟨x, y⟩) :=
  ⟨(Complex.norm_mul_cos_arg ⟨x, y⟩).symm, (Complex.norm_mul_sin_arg ⟨x, y⟩).symm⟩

/-- R178. -/
theorem val_phase (c : Config) (h : 2 ^ c.n.log2 = c.n) (hn : 0 < c.n) (re im : Alg) :
    Phase.val (levelOf c.n) (phase (cosTable c.n) c re im)
      = atan2 c (im.val (levelOf c.n)) (re.val (levelOf c.n)) := by
  unfold phase atan2
  simp only [sign_eq_zero]
  split
  · cases c.atan2Zero <;> rfl
  · split
    · rename_i q hq
      have hp := arg_polar (re.val (levelOf c.n)) (im.val (levelOf c.n))
      have := exactTurns?_eq c.n h hn re im _ q _ _ hp.1 hp.2 (holds_turns _ re im) hq
      rw [Phase.val, ← this, div_mul_cancel₀ _ Real.pi_ne_zero]
    · rfl

/-! ### Band averages -/

theorem holds_magSum (l : Nat) (ms : List Mag) :
    ∃ x : ℝ, (magSum l ms).2.holds x ∧ (ms.map (Mag.val l)).sum = (magSum l ms).1.val l + x := by
  induction ms with
  | nil => exact ⟨0, by simpa [magSum] using holds_point 0, by simp [magSum]⟩
  | cons m rest ih =>
    obtain ⟨x, hx, hs⟩ := ih
    cases m with
    | exact y => exact ⟨x, hx, by simp only [magSum, List.map_cons, List.sum_cons, hs, Mag.val, val_add]; ring⟩
    | root r =>
      refine ⟨x + Mag.val l (.root r), holds_add hx (holds_magEncl l (.root r)), ?_⟩
      simp only [magSum, List.map_cons, List.sum_cons, hs]
      ring

theorem holds_sumMagnitude (l : Nat) (ms : List Mag) : (sumMagnitude l ms).holds (ms.map (Mag.val l)).sum := by
  obtain ⟨x, hx, hs⟩ := holds_magSum l ms
  rw [hs]
  exact holds_add (holds_encl l _) hx

/-- The parts of a sum of phases: the enclosed multiples of π, and an angle of the product of the other points. -/
theorem phaseSum_spec (l : Nat) (ps : List Phase) :
    ∃ u r t : ℝ, (ps.map (Phase.val l)).sum = u * Real.pi + t ∧ (phaseSum l ps).turns.holds u ∧
      (phaseSum l ps).rest.holds (t / Real.pi) ∧ (phaseSum l ps).re.val l = r * Real.cos t ∧
      (phaseSum l ps).im.val l = r * Real.sin t := by
  induction ps with
  | nil =>
    exact ⟨0, 1, 0, by simp, by simpa [phaseSum] using holds_point 0,
      by simpa [phaseSum] using holds_point 0, by simp [phaseSum], by simp [phaseSum]⟩
  | cons p rest ih =>
    obtain ⟨u, r, t, hs, hu, hh, hre, him⟩ := ih
    cases p with
    | piMul q =>
      refine ⟨q + u, r, t, ?_, holds_add (holds_point q) hu, hh, hre, him⟩
      simp only [List.map_cons, List.sum_cons, hs, Phase.val]
      ring
    | param p =>
      refine ⟨p.val + u, r, t, ?_, holds_add (holds_param p) hu, hh, hre, him⟩
      simp only [List.map_cons, List.sum_cons, hs, Phase.val]
      ring
    | dir a b =>
      have hp := arg_polar (a.val l) (b.val l)
      refine ⟨u, r * ‖(⟨a.val l, b.val l⟩ : ℂ)‖, t + Complex.arg ⟨a.val l, b.val l⟩, ?_, hu, ?_, ?_, ?_⟩
      · simp only [List.map_cons, List.sum_cons, hs, Phase.val]
        ring
      · rw [add_div]
        exact holds_add hh (holds_turns l a b)
      · simp only [phaseSum]
        rw [val_sub, val_mul, val_mul, hre, him, Real.cos_add]
        linear_combination (r * Real.cos t) * hp.1 - (r * Real.sin t) * hp.2
      · simp only [phaseSum]
        rw [val_add, val_mul, val_mul, hre, him, Real.sin_add]
        linear_combination (r * Real.cos t) * hp.2 + (r * Real.sin t) * hp.1

theorem holds_sumPhase (n : Nat) (h : 2 ^ n.log2 = n) (hn : 0 < n) (ps : List Phase) :
    (sumPhase (cosTable n) n ps).holds ((ps.map (Phase.val (levelOf n))).sum / Real.pi) := by
  obtain ⟨u, r, t, hs, hu, hh, hre, him⟩ := phaseSum_spec (levelOf n) ps
  rw [hs, add_div, mul_div_cancel_right₀ _ Real.pi_ne_zero]
  refine holds_add hu ?_
  split
  · rename_i q hq
    rw [exactTurns?_eq n h hn _ _ _ q r t hre him hh hq]
    exact holds_point q
  · exact hh

theorem clampReal_div (v c : ℝ) (hc : 0 < c) : clampReal v (-c) c / c = clampReal (v / c) (-1) 1 := by
  unfold clampReal
  rw [← max_div_div_right hc.le, ← min_div_div_right hc.le, neg_div, div_self hc.ne']

/-- The facts about the scale of R187 that an accepted configuration has. -/
theorem scale_pos (c : Config) (h : configProblem c = none) :
    (0 : ℝ) < c.binsPerLed ∧ (0 : ℝ) < c.phaseScale.lo := by
  constructor
  · have h1 := configProblem_none_bins c h
    have h2 := configProblem_none_pos c h
    have : 0 < c.binsPerLed := by
      rcases Nat.eq_zero_or_pos c.binsPerLed with e | e
      · rw [e] at h1; omega
      · exact e
    exact_mod_cast this
  · have h1 := (configProblem_none_sizes c h).2.2.2
    simp only [constraintsOk, Bool.and_eq_true, RealParam.positive, decide_eq_true_eq, Rat.num_pos] at h1
    have : 0 < c.phaseScale.lo := by tauto
    exact_mod_cast this

theorem holds_phaseFactor (c : Config) (h : configProblem c = none) :
    (phaseFactor c).holds (1 / (c.binsPerLed * c.phaseScale.val)) := by
  obtain ⟨hb, hp⟩ := scale_pos c h
  have h1 := param_lo_le c.phaseScale
  have h2 := param_le_hi c.phaseScale
  refine ⟨?_, ?_⟩ <;> simp only [phaseFactor] <;> push_cast <;> apply one_div_le_one_div_of_le
  · exact mul_pos hb (hp.trans_le h1)
  · exact mul_le_mul_of_nonneg_left h2 hb.le
  · exact mul_pos hb hp
  · exact mul_le_mul_of_nonneg_left h1 hb.le

/-- R185 to R187: the averages are enclosed. -/
theorem holds_bandAverages (c : Config) (h : configProblem c = none) (ms : List Mag) (ps : List Phase) :
    (bandAverages c ms ps).1.holds (avgMagnitude c (ms.map (Mag.val (levelOf c.n)))) ∧
      (bandAverages c ms ps).2.holds (avgPhase c (ps.map (Phase.val (levelOf c.n))) / Real.pi) := by
  constructor
  · have := holds_scale (1 / (c.binsPerLed * Config.magDivisor)) (holds_sumMagnitude (levelOf c.n) ms)
    rw [avgMagnitude, div_eq_mul_one_div, mul_comm]
    simpa [bandAverages, Config.magDivisor] using this
  · have := holds_clamp (-1) 1 (holds_mul
      (holds_sumPhase c.n (configProblem_none_sizes c h).1 (configProblem_none_pos c h) ps) (holds_phaseFactor c h))
    rw [avgPhase, clampReal_div _ _ Real.pi_pos]
    rw [show (ps.map (Phase.val (levelOf c.n))).sum / Real.pi * (1 / (c.binsPerLed * c.phaseScale.val))
        = (ps.map (Phase.val (levelOf c.n))).sum / (c.binsPerLed * c.phaseScale.val) / Real.pi by ring] at this
    simpa [bandAverages] using this

/-! ### Colours -/

theorem ceil_eq (v : Rat) : v.ceil = ⌈v⌉ := by rw [Rat.ceil_eq_neg_floor_neg]; rfl

theorem channelOf_mono {v w : Rat} (h : v ≤ w) : channelOf v ≤ channelOf w := by
  unfold channelOf
  refine min_le_min_right _ (Int.toNat_le_toNat ?_)
  rw [ceil_eq, ceil_eq]
  exact Int.ceil_mono h

theorem channelReal_cast (v : Rat) : channelReal (v : ℝ) = channelOf v := by
  unfold channelReal channelOf
  rw [Rat.ceil_cast]
  have := ceil_eq v
  omega

theorem channelReal_mono {a b : ℝ} (h : a ≤ b) : channelReal a ≤ channelReal b := by
  unfold channelReal
  have := Int.ceil_mono h
  omega

/-- A channel that is answered is `clamp(ceil(v), 0, 255)` of the enclosed value. -/
theorem channel?_eq (v : Encl) (x : ℝ) (b : Byte) (hv : v.holds x) (h : channel? v = some b) :
    b.toNat = channelReal x := by
  unfold channel? at h
  split at h
  · rename_i he
    have h1 := channelReal_mono hv.1
    have h2 := channelReal_mono hv.2
    rw [channelReal_cast] at h1 h2
    rw [← Option.some.inj h, BitVec.toNat_ofNat]
    have : channelOf v.lo ≤ 255 := by unfold channelOf; omega
    omega
  · cases h

/-- The place of a real phase, over π, in R189's table. -/
noncomputable def quadrantIndexReal (t : ℝ) : Nat :=
  if t < -1 / 2 then 0 else if t < 0 then 1 else if t < 1 / 2 then 2 else 3

theorem quadrantIndexReal_cast (v : Rat) : quadrantIndexReal v = quadrantIndex v := by
  unfold quadrantIndex quadrantIndexReal
  have h1 : (v < -1 / 2) ↔ ((v : ℝ) < -1 / 2) := by
    have : ((-1 / 2 : Rat) : ℝ) = -1 / 2 := by push_cast; ring
    rw [← this]; exact Rat.cast_lt.symm
  have h2 : (v < 0) ↔ ((v : ℝ) < 0) := by exact_mod_cast Rat.cast_lt.symm
  have h3 : (v < 1 / 2) ↔ ((v : ℝ) < 1 / 2) := by
    have : ((1 / 2 : Rat) : ℝ) = 1 / 2 := by push_cast; ring
    rw [← this]; exact Rat.cast_lt.symm
  simp only [h1, h2, h3]

theorem quadrantIndexReal_mono {a b : ℝ} (h : a ≤ b) : quadrantIndexReal a ≤ quadrantIndexReal b := by
  unfold quadrantIndexReal
  split_ifs <;> first | omega | (exfalso; linarith)

/-- The quadrant of an enclosed phase is one of those the enclosure can lie in. -/
theorem quadrant_candidate (ap : Encl) (t : ℝ) (h : ap.holds t) :
    quadrantIndexReal t = quadrantIndex ap.lo ∨ quadrantAt (quadrantIndexReal t) ∈ otherQuadrants ap := by
  have h1 := quadrantIndexReal_mono h.1
  have h2 := quadrantIndexReal_mono h.2
  rw [quadrantIndexReal_cast] at h1 h2
  rcases Nat.eq_or_lt_of_le h1 with e | e
  · exact .inl e.symm
  · refine .inr (List.mem_map_of_mem (List.mem_range'_1.mpr ⟨e, ?_⟩))
    omega

theorem holds_clampMag {am : Encl} {a : ℝ} (h : am.holds a) : (clampMag am).holds (min a 255) := by
  refine ⟨?_, ?_⟩ <;> simp only [clampMag, Config.magClamp] <;> push_cast
  · exact min_le_min_right _ h.1
  · exact min_le_min_right _ h.2

theorem clampMag_point (p : Rat) : clampMag (.point p) = .point (min p 255) := rfl

theorem channel?_point (v : Rat) : channel? (.point v) = some (BitVec.ofNat 8 (channelOf v)) := by
  simp [channel?, Encl.point]

/-- R192 in one quadrant is answered exactly where its three channels are. -/
theorem colourIn?_eq_some (c : Config) (am ap : Encl) (q : Quadrant) (color : Rgb) :
    colourIn? c am ap q = some color ↔
      channel? ((redBase c q ap).mul (clampMag am)) = some color.r ∧
      channel? ((greenBase c q ap).mul (clampMag am)) = some color.g ∧
      channel? ((blueBase c q ap).mul (clampMag am)) = some color.b := by
  simp only [colourIn?, Option.bind_eq_some_iff, Option.map_eq_some_iff]
  constructor
  · rintro ⟨r, h1, g, h2, b, h3, rfl⟩
    exact ⟨h1, h2, h3⟩
  · rintro ⟨h1, h2, h3⟩
    exact ⟨_, h1, _, h2, _, h3, rfl⟩

/-- With the phase known exactly one quadrant is left. -/
theorem colour?_point (c : Config) (am : Encl) (t : Rat) :
    colour? c am (.point t) = colourIn? c am (.point t) (quadrantAt (quadrantIndex t)) := by
  have h : otherQuadrants (.point t) = [] := by simp [otherQuadrants, Encl.point]
  simp only [colour?, h, List.all_nil, show (Encl.point t).lo = t from rfl]
  cases colourIn? c am (.point t) (quadrantAt (quadrantIndex t)) <;> rfl

/-- The ramp of R191 over the reals. -/
noncomputable def rampReal (q : Quadrant) (t : ℝ) : ℝ :=
  match q with
  | .redNeg => -2 * t - 1
  | .blue => 1 + 2 * t
  | .green => 1 - 2 * t
  | .redPos => 2 * t - 1

theorem holds_ramp (q : Quadrant) {e : Encl} {t : ℝ} (h : e.holds t) : (ramp q e).holds (rampReal q t) := by
  cases q <;> simp only [ramp, rampReal]
  · have := holds_add (holds_point (-1)) (holds_scale (-2) h)
    push_cast at this
    rwa [show -2 * t - 1 = -1 + -2 * t by ring]
  · have := holds_add (holds_point 1) (holds_scale 2 h)
    push_cast at this
    exact this
  · have := holds_add (holds_point 1) (holds_scale (-2) h)
    push_cast at this
    rwa [show 1 - 2 * t = 1 + -2 * t by ring]
  · have := holds_add (holds_point (-1)) (holds_scale 2 h)
    push_cast at this
    rwa [show 2 * t - 1 = -1 + 2 * t by ring]

/-- The base triple with the ramp on the quadrant's channel. -/
noncomputable def adjustedAt (c : Config) (q : Quadrant) (t : ℝ) : ℝ × ℝ × ℝ :=
  match q with
  | .redNeg => (c.redSpan.val * rampReal .redNeg t, c.baseColor.g.val, c.baseColor.b.val)
  | .blue => (c.baseColor.r.val, c.baseColor.g.val, c.baseColor.b.val * rampReal .blue t)
  | .green => (c.baseColor.r.val, c.baseColor.g.val * rampReal .green t, c.baseColor.b.val)
  | .redPos => (c.redSpan.val * rampReal .redPos t, c.baseColor.g.val, c.baseColor.b.val)

theorem holds_bases (c : Config) (q : Quadrant) {e : Encl} {t : ℝ} (h : e.holds t) :
    (redBase c q e).holds (adjustedAt c q t).1 ∧ (greenBase c q e).holds (adjustedAt c q t).2.1 ∧
      (blueBase c q e).holds (adjustedAt c q t).2.2 := by
  cases q <;> simp only [redBase, greenBase, blueBase, adjustedAt, mul_comm _ (rampReal _ t)] <;>
    refine ⟨?_, ?_, ?_⟩ <;> first | exact holds_param _ | exact holds_mul (holds_ramp _ h) (holds_param _)

/-- The triple of R192 in the quadrant of R189. -/
theorem adjusted_eq (c : Config) (t : ℝ) (h : -1 ≤ t) :
    adjusted c (t * Real.pi)
      = adjustedAt c (quadrantAt (quadrantIndexReal t)) t := by
  have hp := Real.pi_pos
  have hp0 := Real.pi_ne_zero
  have e : 2 / Real.pi * (t * Real.pi) = 2 * t := by field_simp
  have e2 : -(2 / Real.pi) * (t * Real.pi) = -2 * t := by field_simp
  have a1 : (-Real.pi / 2 ≤ t * Real.pi) ↔ -1 / 2 ≤ t := by constructor <;> intro _ <;> nlinarith
  have a2 : (t * Real.pi < 0) ↔ t < 0 := by constructor <;> intro _ <;> nlinarith
  have a3 : (-Real.pi ≤ t * Real.pi) ↔ -1 ≤ t := by constructor <;> intro _ <;> nlinarith
  have a4 : (t * Real.pi < -Real.pi / 2) ↔ t < -1 / 2 := by constructor <;> intro _ <;> nlinarith
  have a5 : (0 ≤ t * Real.pi) ↔ 0 ≤ t := by constructor <;> intro _ <;> nlinarith
  have a6 : (t * Real.pi < Real.pi / 2) ↔ t < 1 / 2 := by constructor <;> intro _ <;> nlinarith
  unfold adjusted quadrantIndexReal
  simp only [a1, a2, a3, a4, a5, a6, e, e2]
  rcases lt_or_ge t (-1 / 2) with b1 | b1
  · rw [if_neg fun x => absurd x.1 (not_le.mpr b1), if_pos ⟨h, b1⟩, if_pos b1]; rfl
  · rcases lt_or_ge t 0 with b2 | b2
    · rw [if_pos ⟨b1, b2⟩, if_neg (not_lt.mpr b1), if_pos b2]; rfl
    · rw [if_neg fun x => absurd x.2 (not_lt.mpr b2), if_neg fun x => absurd x.2 (not_lt.mpr b1),
        if_neg (not_lt.mpr b1), if_neg (not_lt.mpr b2)]
      rcases lt_or_ge t (1 / 2) with b3 | b3
      · rw [if_pos ⟨b2, b3⟩, if_pos b3]; rfl
      · rw [if_neg fun x => absurd x.2 (not_lt.mpr b3), if_neg (not_lt.mpr b3)]; rfl

/-- R192 in one quadrant, where it is answered. -/
theorem colourIn?_eq (c : Config) (am ap : Encl) (q : Quadrant) (a t : ℝ) (ha : am.holds a) (ht : ap.holds t)
    (color : Rgb) (h : colourIn? c am ap q = some color) :
    color.toNats = (channelReal ((adjustedAt c q t).1 * min a 255), channelReal ((adjustedAt c q t).2.1 * min a 255),
      channelReal ((adjustedAt c q t).2.2 * min a 255)) := by
  obtain ⟨hr, hg, hb⟩ := holds_bases c q ht
  have hm := holds_clampMag ha
  obtain ⟨h1, h2, h3⟩ := (colourIn?_eq_some c am ap q color).mp h
  simp only [Rgb.toNats, channel?_eq _ _ _ (holds_mul hr hm) h1, channel?_eq _ _ _ (holds_mul hg hm) h2,
    channel?_eq _ _ _ (holds_mul hb hm) h3]

/-- A colour that is answered is `Colour` of R192. -/
theorem colour?_eq (c : Config) (am ap : Encl) (a t : ℝ) (ha : am.holds a) (ht : ap.holds t) (h1 : -1 ≤ t)
    (color : Rgb) (h : colour? c am ap = some color) : color.toNats = colourReal c (t * Real.pi) a := by
  have key : colourIn? c am ap (quadrantAt (quadrantIndexReal t)) = some color := by
    obtain ⟨hf, hall⟩ := Option.filter_eq_some_iff.mp h
    rcases quadrant_candidate ap t ht with e | e
    · rw [e]; exact hf
    · simpa using List.all_eq_true.mp hall _ e
  rw [colourReal, adjusted_eq c t h1]
  exact colourIn?_eq c am ap _ a t ha ht color key

/-- Where the enclosures decide the colour, the write holds its bytes. -/
theorem ledColour_of_colour? (c : Config) (ms : List Mag) (ps : List Phase) (color : Rgb)
    (h : colour? c (bandAverages c ms ps).1 (bandAverages c ms ps).2 = some color) : ledColour c ms ps = .rgb color := by
  rw [ledColour, h]
  rfl

/-- The colour a light-unit write holds is `Colour(Band)` of its band over the reals, whichever form it takes. -/
theorem ledColour_val (c : Config) (h : configProblem c = none) (ms : List Mag) (ps : List Phase) :
    (ledColour c ms ps).val c = colourReal c (avgPhase c (ps.map (Phase.val (levelOf c.n))))
      (avgMagnitude c (ms.map (Mag.val (levelOf c.n)))) := by
  unfold ledColour
  cases hc : colour? c (bandAverages c ms ps).1 (bandAverages c ms ps).2 with
  | none => rfl
  | some color =>
    obtain ⟨hm, hp⟩ := holds_bandAverages c h ms ps
    have hpi := Real.pi_pos
    have h1 : -1 ≤ avgPhase c (ps.map (Phase.val (levelOf c.n))) / Real.pi := by
      rw [le_div_iff₀ hpi, avgPhase, clampReal]
      simp
    have := colour?_eq c _ _ _ _ hm hp h1 color hc
    rw [div_mul_cancel₀ _ hpi.ne'] at this
    exact this

end Sys2Proof.Machine
end

