-- ==== Sys2Proof/Tests/Slice0.lean ====
section
/-! SUPPORT. The model's own tests. Expected values come from spec/95_test_vectors.md (the vector is named before each
test) or are computed by hand from the rule named. After them, for every statement of
Sys2Proof/Certificates/Slice0/Obligations.lean that has premises, a state and operands that meet them together. -/

namespace Sys2Proof.Tests

-- Each kernel evaluation would otherwise hold a thread of its own until the declarations before it are checked.
set_option Elab.async false

open Sys2Proof.Machine Sys2Proof.Laws

/-- The state an outcome goes on in. -/
def after : Result → Option State
  | .next t => some t
  | .fault _ => none
  | .refused _ => none

/-- The reason an outcome is refused for. -/
def stopOf : Result → Option Refusal
  | .next _ => none
  | .fault _ => none
  | .refused r => some r

def decodeErrorOf (w : Word) : Option DecodeError :=
  match decode w with
  | .ok _ => none
  | .error e => some e

/-! ### Small states -/

/-- T1 right after construction. -/
def rst : State := State.reset

/-- The selection is SPECTRUM. -/
def spectrumOn : State := { rst with modeSel := .spectrum, ledDrvEn := true }

/-- The selection is CONSTANT, with a colour. -/
def constantOn : State :=
  { rst with modeSel := .constant, ledDrvEn := true, constValid := true, constColor := some ⟨255, 128, 0⟩ }

/-- The real alarm sounds (V-T2). -/
def ringing : State :=
  { spectrumOn with
    ledDrvEn := false, alarmState := .sounding, radioHiz := true, pwmEn := true, patTimerRun := true, patSel := 1 }

/-- The test tone of V-T1 after row 1. -/
def testing : State :=
  { spectrumOn with
    ledDrvEn := false, alarmState := .sounding, testActive := true, radioHiz := true, pwmEn := true,
    patTimerRun := true }

/-- V-T1 after row 3: the tone runs. -/
def toned (pos : Nat) : State :=
  { testing with patPos := pos, toneFreq := some 880, freqTimerRun := true, tonePhase := true, pwmDuty := 32768 }

/-- The encoder in a position, both callbacks registered (section 2.2). -/
def turned (e : EncState) : State := { rst with encState := e, cbCw := some 0x00A1, cbCcw := some 0x00A2 }

/-- Button 0 as given, its callback registered (section 2.3). -/
def pressed (state : BtnState) (count : Nat) (irqEn timerRun : Bool) : State :=
  { rst with buttons := [⟨state, count, irqEn, timerRun, some 0x00B0⟩] }

/-- A SPECTRUM iteration, sampling; `idx` samples of 510 stored. -/
def sampling (idx : Nat) : State :=
  { spectrumOn with
    pipePhase := .sampling, pipeIdx := idx, pipeMode := some .spectrum
    x := List.replicate idx (some 510) ++ List.replicate (4 - idx) none }

/-- A SPECTRUM iteration with its block. -/
def analyzing (xs : List Nat) : State :=
  { spectrumOn with pipePhase := .analyze, pipeMode := some .spectrum, x := xs.map some }

/-- A SPECTRUM iteration at light unit `idx`, the arrays those of V-A1. -/
def rendering (idx : Nat) : State :=
  { spectrumOn with
    pipePhase := .render, pipeIdx := idx, pipeMode := some .spectrum
    re := [some (.rat 510), some (.rat 0), some (.rat (-510)), some (.rat 0)]
    im := [some (.rat 0), some (.rat (-510)), some (.rat 0), some (.rat 510)]
    mag := List.replicate 4 (some (.exact (.rat 510)))
    ph := [some (.piMul 0), some (.piMul (-1 / 2)), some (.piMul 1), some (.piMul (1 / 2))] }

/-- The same with silent bands. -/
def silent : State := { rendering 0 with mag := List.replicate 4 (some (.exact (.rat 0))) }

/-- A CONSTANT iteration at light unit `idx`. -/
def painting (idx : Nat) : State :=
  { constantOn with pipePhase := .render, pipeIdx := idx, pipeMode := some .constant }

/-- V-D9 before its third line: no colour was ever set. -/
def unpainted : State :=
  { rst with modeSel := .constant, ledDrvEn := true, pipePhase := .render, pipeMode := some .constant }

/-! ### Well-formed operands, an ill-formed one for each check (R108, V-W2) -/

theorem test_wf_onPress : Instr.wf defaultConfig (.onPress 0 7) = true ∧ Instr.wf defaultConfig (.onPress 1 7) = false := by
  decide

theorem test_wf_btnEdge :
    Instr.wf defaultConfig (.btnEdge 0 true) = true ∧ Instr.wf defaultConfig (.btnEdge 1 false) = false := by decide

theorem test_wf_btnTick :
    Instr.wf defaultConfig (.btnTick 0 true) = true ∧ Instr.wf defaultConfig (.btnTick 15 false) = false := by decide

theorem test_wf_beginTestTone :
    Instr.wf defaultConfig (.beginTestTone 1) = true ∧ Instr.wf defaultConfig (.beginTestTone 2) = false := by decide

theorem test_wf_pipeSample :
    Instr.wf defaultConfig (.pipeSample 1023) = true ∧ Instr.wf defaultConfig (.pipeSample 1024) = false := by decide

/-! ### Decoding: V-W1, V-W2, V-W3 -/

theorem test_decode_modeController :
    decodeTableWord 32 0x01000000 = some (.setMode .off) ∧ decodeTableWord 32 0x01000001 = some (.setMode .constant) ∧
    decodeTableWord 32 0x01000002 = some (.setMode .spectrum) ∧ decodeTableWord 32 0x02000000 = some .getMode ∧
    decodeTableWord 32 0x03FF8000 = some (.setConstantColor 0xFF 0x80 0x00) ∧
    decodeTableWord 32 0x03010203 = some (.setConstantColor 1 2 3) := by decide

theorem test_decode_alarmTone :
    decodeTableWord 32 0x04000000 = some .alarmSounding ∧ decodeTableWord 32 0x05000001 = some (.beginTestTone 1) ∧
    decodeTableWord 32 0x06000000 = some .endTestTone ∧ decodeTableWord 32 0x0A000001 = some (.alarmSet .armed) ∧
    decodeTableWord 32 0x0A000002 = some (.alarmSet .sounding) ∧
    decodeTableWord 32 0x0A000003 = some (.alarmSet .snoozed) ∧ decodeTableWord 32 0x0A000004 = some (.alarmSet .test) ∧
    decodeTableWord 32 0x20000000 = some .patTick ∧ decodeTableWord 32 0x21000000 = some .freqTick := by decide

theorem test_decode_edgeDecoder :
    decodeTableWord 32 0x070000A1 = some (.onRotateCw 0xA1) ∧ decodeTableWord 32 0x080000A2 = some (.onRotateCcw 0xA2) ∧
    decodeTableWord 32 0x0930FFFF = some (.onPress 3 0xFFFF) ∧
    decodeTableWord 32 0x10000002 = some (.encEdge false true) ∧
    decodeTableWord 32 0x10000001 = some (.encEdge true false) ∧
    decodeTableWord 32 0x11200001 = some (.btnEdge 2 true) ∧ decodeTableWord 32 0x12000000 = some (.btnTick 0 false) := by
  decide

theorem test_decode_pipeline :
    decodeTableWord 32 0x30000000 = some .pipeBegin ∧ decodeTableWord 32 0x310001FE = some (.pipeSample 510) ∧
    decodeTableWord 32 0x32000000 = some .pipeAnalyze ∧ decodeTableWord 32 0x33000000 = some (.pipeLed false) ∧
    decodeTableWord 32 0x33000001 = some (.pipeLed true) := by decide

theorem test_decode_invalidWords :
    [0x00000000, 0x0B000000, 0x13000000, 0x34000000, 0xFFFFFFFF, 0x02000001, 0x01000004, 0x09010000, 0x33000002].map
      decodeErrorOf = List.replicate 9 (some .invalidWord) := by decide

theorem test_decode_reservedOperands :
    [0x01000003, 0x0A000005, 0x0A000007].map decodeErrorOf = List.replicate 3 (some .reservedOperand) := by decide

theorem test_encode_words :
    encode (.setConstantColor 0xFF 0x80 0x00) = 0x03FF8000 ∧ encode (.onPress 3 0xFFFF) = 0x0930FFFF ∧
    encode (.encEdge false true) = 0x10000002 ∧ encode (.btnEdge 2 true) = 0x11200001 ∧
    encode (.alarmSet .snoozed) = 0x0A000003 ∧ encode (.pipeSample 1023) = 0x310003FF := by decide

/-- Trace lines of V-W1 that name an enumeration's value, and the fields of ENC_EDGE in both orders (R103, R111,
notes/assumptions/24.md). -/
theorem test_assemble_names :
    assemble ⟨"SET_MODE", [("m", .name "SPECTRUM")]⟩ = some 0x01000002 ∧
    assemble ⟨"ALARM_SET", [("s", .name "SNOOZED")]⟩ = some 0x0A000003 ∧
    assemble ⟨"ENC_EDGE", [("clk", .num 0), ("dir", .num 1)]⟩ = some 0x10000002 ∧
    assemble ⟨"ENC_EDGE", [("dir", .num 1), ("clk", .num 0)]⟩ = some 0x10000002 := by decide

/-! ### Construction: V-X1 to V-X10 -/

theorem test_construct_errors :
    configProblem { defaultConfig with n := 100, numLeds := 10 } = some .nNotPowerOfTwo ∧
    configProblem { defaultConfig with n := 128, numLeds := 10 } = some .ledsNotDividingN ∧
    configProblem { defaultConfig with n := 100, numLeds := 7 } = some .nNotPowerOfTwo ∧
    configProblem { defaultConfig with n := 0, numLeds := 1 } = some .nNotPowerOfTwo ∧
    configProblem { defaultConfig with n := 128, numLeds := 0 } = some .ledsNotDividingN := by decide +kernel

theorem test_construct_valid :
    configProblem defaultConfig = none ∧
    configProblem { defaultConfig with n := 1, numLeds := 1 } = none ∧
    configProblem { defaultConfig with n := 128, numLeds := 128 } = none ∧
    configProblem { defaultConfig with adcMax := 65535, atan2Zero := .rat 1, btnPullUp := List.replicate 16 true } = none := by
  decide +kernel

theorem test_construct_badConfig :
    configProblem { defaultConfig with phaseScale := .rat 0 } = some .badConfig ∧
    configProblem { defaultConfig with btnThreshold := 0 } = some .badConfig ∧
    configProblem { defaultConfig with patterns := [[], [.freq 440]] } = some .badConfig ∧
    configProblem { defaultConfig with adcMax := 65536 } = some .badConfig ∧
    configProblem { defaultConfig with atan2Zero := .rat (-1) } = some .badConfig ∧
    configProblem { defaultConfig with btnPullUp := [] } = some .badConfig := by decide +kernel

/-- A real parameter, known to lie between two rationals: accepted where both are in range, refused where one is not
(R7, R8). A table with q2 = 3, the sequence 1, 3, 2, 3 (R134, notes/assumptions/27.md). -/
theorem test_construct_reals :
    configProblem { defaultConfig with phaseScale := .real 1 2 0, redSpan := .real 0 255 1 } = none ∧
    configProblem { defaultConfig with phaseScale := .real 0 2 0 } = some .badConfig ∧
    configProblem { defaultConfig with redSpan := .real 254 256 1 } = some .badConfig ∧
    configProblem { defaultConfig with atan2Zero := .real (-1) 0 2 } = some .badConfig ∧
    configProblem { defaultConfig with
      qtable := [⟨.start, 1, .cw1⟩, ⟨.cw1, 3, .cw2⟩, ⟨.cw2, 2, .cw3⟩, ⟨.cw3, 3, .start⟩,
        ⟨.start, 2, .ccw1⟩, ⟨.ccw1, 3, .ccw2⟩, ⟨.ccw2, 1, .ccw3⟩, ⟨.ccw3, 3, .start⟩] } = none := by decide +kernel

/-- E9: 128 bins of a 48 microsecond sampling period; bin 8 at 8 / 0.006144 hertz. -/
theorem test_binFrequency :
    Config.binFrequency { defaultConfig with n := 128 } 8 = 8000000 / 6144 := by
  norm_num [Config.binFrequency, defaultConfig, RealParam.val, cast_mkRat]

/-! ### Steps -/

theorem test_step_runs_word :
    (after (step (rst.withFetchWord 32 0x01000002))).map State.modeSel = some .spectrum ∧
    (after (step (rst.withFetchWord 32 0x01000002))).map State.input = some [] := by decide +kernel

theorem test_step_stops :
    stopOf (step rst) = some .noStimulus ∧ stopOf (step (rst.withFetchWord 32 0x02000001)) = some .invalidWord ∧
    stopOf (step (rst.withFetchWord 32 0x01000003)) = some .reservedOperand := by decide +kernel

/-! ### Mode controller: V-D1 to V-D10 -/

theorem test_setMode :
    after (exec (.setMode .spectrum) rst) = some spectrumOn ∧
    after (exec (.setMode .off) spectrumOn) = some rst := by decide +kernel

/-- V-D6: while sounding the driver stays off. -/
theorem test_setMode_sounding :
    (after (exec (.setMode .constant) ringing)).map (fun t => (t.modeSel, t.ledDrvEn)) = some (.constant, false) := by
  decide +kernel

theorem test_getMode :
    (after (exec .getMode rst)).map State.outputs = some [.ret 0] ∧
    (after (exec .getMode ringing)).map State.outputs = some [.ret 2] := by decide +kernel

theorem test_setConstantColor :
    (after (exec (.setConstantColor 255 128 0) rst)).map (fun t => (t.constColor, t.constValid, t.ledDrvEn))
      = some (some ⟨255, 128, 0⟩, true, false) := by decide +kernel

/-! ### Alarm tone: V-T1 to V-T8 -/

theorem test_alarmSounding :
    (after (exec .alarmSounding ringing)).map State.outputs = some [.ret 1] ∧
    (after (exec .alarmSounding { rst with alarmState := .test })).map State.outputs = some [.ret 0] := by
  decide +kernel

theorem test_beginTestTone : after (exec (.beginTestTone 0) spectrumOn) = some testing := by decide +kernel

theorem test_beginTestTone_refused :
    stopOf (exec (.beginTestTone 0) testing) = some .guardFailed ∧
    stopOf (exec (.beginTestTone 2) spectrumOn) = some .reservedOperand := by decide +kernel

theorem test_endTestTone :
    after (exec .endTestTone (toned 1)) = some { spectrumOn with patPos := 1 } ∧
    after (exec .endTestTone ringing) = some ringing := by decide +kernel

theorem test_alarmSet_start :
    after (exec (.alarmSet .sounding) { spectrumOn with alarmState := .armed }) = some ringing := by decide +kernel

theorem test_alarmSet_ends_test :
    after (exec (.alarmSet .off) (toned 1)) = some { spectrumOn with patPos := 1 } ∧
    after (exec (.alarmSet .sounding) (toned 1)) = some (toned 1) ∧
    after (exec (.alarmSet .test) rst) = some { rst with alarmState := .test } := by decide +kernel

/-- V-T1 rows 2 and 8: a frequency entry; the silence entry, which stops the tone and wraps. -/
theorem test_patTick :
    after (exec .patTick testing) = some { testing with patPos := 1, toneFreq := some 880, freqTimerRun := true } ∧
    after (exec .patTick (toned 2)) = some { testing with patPos := 0 } := by decide +kernel

/-- V-T1 row 6, V-T7. -/
theorem test_patTick_hold :
    after (exec .patTick (toned 1)) = some (toned 2) ∧ stopOf (exec .patTick rst) = some .guardFailed := by
  decide +kernel

theorem test_freqTick :
    (after (exec .freqTick (toned 1))).map (fun t => (t.tonePhase, t.pwmDuty)) = some (false, 0) ∧
    stopOf (exec .freqTick testing) = some .guardFailed := by decide +kernel

/-! ### Edge decoder: V-Q1 to V-Q9, V-B1 to V-B8 -/

theorem test_encEdge_clockwise :
    after (exec (.encEdge false true) (turned .start)) = some (turned .cw1) ∧
    after (exec (.encEdge false false) (turned .cw1)) = some (turned .cw2) ∧
    after (exec (.encEdge true false) (turned .cw2)) = some (turned .cw3) ∧
    after (exec (.encEdge true true) (turned .cw3)) = some { turned .start with outputs := [.fireCw 0x00A1] } ∧
    after (exec (.encEdge true true) (turned .ccw3)) = some { turned .start with outputs := [.fireCcw 0x00A2] } := by
  decide +kernel

/-- V-Q3, V-Q5, V-Q7. -/
theorem test_encEdge_other :
    after (exec (.encEdge true false) (turned .cw1)) = some (turned .start) ∧
    after (exec (.encEdge true false) (turned .cw3)) = some (turned .start) ∧
    (after (exec (.encEdge true false) { rst with cfg := { defaultConfig with encPullDown := true } })).map
      State.encState = some .cw1 := by decide +kernel

theorem test_onRotate :
    (after (exec (.onRotateCw 2) (turned .start))).map (fun t => (t.cbCw, t.cbCcw)) = some (some 2, some 0x00A2) ∧
    (after (exec (.onRotateCcw 2) (turned .start))).map (fun t => (t.cbCw, t.cbCcw)) = some (some 0x00A1, some 2) := by
  decide +kernel

theorem test_onPress : after (exec (.onPress 0 0x00B0) rst) = some (pressed .holdUp 0 true false) := by decide +kernel

theorem test_btnEdge :
    after (exec (.btnEdge 0 false) (pressed .holdUp 0 true false)) = some (pressed .falling 0 false true) ∧
    after (exec (.btnEdge 0 true) (pressed .holdDown 0 true false)) = some (pressed .rising 0 false true) ∧
    after (exec (.btnEdge 0 false) (pressed .holdDown 0 true false)) = some (pressed .holdDown 0 true false) := by
  decide +kernel

/-- V-B6, V-W2. -/
theorem test_btnEdge_refused :
    stopOf (exec (.btnEdge 0 true) (pressed .falling 0 false true)) = some .guardFailed ∧
    stopOf (exec (.btnEdge 1 false) rst) = some .reservedOperand ∧
    stopOf (exec (.btnTick 0 false) rst) = some .guardFailed := by decide +kernel

/-- V-B1 lines 3 and 4: the count below the threshold and at it. -/
theorem test_btnTick_accepts :
    after (exec (.btnTick 0 false) (pressed .falling 1 false true)) = some (pressed .falling 2 false true) ∧
    after (exec (.btnTick 0 false) (pressed .falling 2 false true))
      = some { pressed .holdDown 0 true false with outputs := [.firePress 0 0x00B0] } := by decide +kernel

/-- V-B2 line 4, V-B3 line 5. -/
theorem test_btnTick_silent :
    after (exec (.btnTick 0 true) (pressed .falling 2 false true)) = some (pressed .holdUp 0 true false) ∧
    after (exec (.btnTick 0 true) (pressed .rising 2 false true)) = some (pressed .holdUp 0 true false) := by
  decide +kernel

/-! ### Pipeline: V-A, V-M, V-C, V-P, programs P3 to P6 -/

theorem test_pipeBegin :
    after (exec .pipeBegin spectrumOn) = some (sampling 0) ∧ after (exec .pipeBegin constantOn) = some (painting 0) ∧
    after (exec .pipeBegin rst) = some rst ∧ after (exec .pipeBegin ringing) = some ringing := by decide +kernel

theorem test_pipeSample :
    after (exec (.pipeSample 510) (sampling 2)) = some (sampling 3) ∧
    after (exec (.pipeSample 510) (sampling 3)) = some (analyzing [510, 510, 510, 510]) := by decide +kernel

/-- P6f, P6g. -/
theorem test_pipeSample_refused :
    stopOf (exec (.pipeSample 1) rst) = some .guardFailed ∧
    stopOf (exec (.pipeSample 1024) (sampling 0)) = some .reservedOperand := by decide +kernel

/-- V-A1, P3 line 7. -/
theorem test_pipeAnalyze : after (exec .pipeAnalyze (analyzing [0, 510, 0, 0])) = some (rendering 0) := by
  decide +kernel

/-- V-A6: a block whose third bin is zero. V-A9: eight bins, whose cosines are not all rational. -/
theorem test_pipeAnalyze_values :
    (analyze defaultConfig [100, 200, 100, 0]).mag
      = [.exact (.rat 400), .exact (.rat 200), .exact (.rat 0), .exact (.rat 200)] ∧
    (analyze defaultConfig [100, 200, 100, 0]).ph = [.piMul 0, .piMul (-1 / 2), .piMul 0, .piMul (1 / 2)] ∧
    (analyze { defaultConfig with n := 8 } [0, 255, 510, 255, 0, 255, 510, 255]).mag
      = [2040, 0, 1020, 0, 0, 0, 1020, 0].map (fun q : Rat => .exact (.rat q)) ∧
    (analyze { defaultConfig with n := 8 } [0, 255, 510, 255, 0, 255, 510, 255]).ph
      = [0, 0, 1, 0, 0, 0, 1, 0].map Phase.piMul := by decide +kernel

/-- P3 lines 8 and 9, V-P1. -/
theorem test_pipeLed_spectrum :
    (after (exec (.pipeLed false) (rendering 0))).map (fun t => (t.outputs, t.pipePhase, t.pipeIdx))
      = some ([.ledWrite 0 (.rgb ⟨0, 200, 200⟩)], .render, 1) ∧
    (after (exec (.pipeLed false) (rendering 1))).map (fun t => (t.outputs, t.pipePhase, t.pipeIdx))
      = some ([.ledWrite 1 (.rgb ⟨255, 200, 255⟩)], .idle, 0) := by decide +kernel

/-- P5 lines 4 and 16, P6c. -/
theorem test_pipeLed_constant :
    (after (exec (.pipeLed true) (painting 1))).map (fun t => (t.outputs, t.pipePhase, t.pipeIdx))
      = some ([.ledWrite 1 (.rgb ⟨255, 128, 0⟩), .yieldSleep], .idle, 0) ∧
    stopOf (exec (.pipeLed false) unpainted) = some .unwrittenRead := by decide +kernel

/-- V-C1, V-C3, V-C5, V-C6, V-C8 to V-C13. -/
theorem test_colour_table :
    colour? defaultConfig (.point 1) (.point 0) = some ⟨0, 100, 200⟩ ∧
    colour? defaultConfig (.point 1) (.point (-1 / 2)) = some ⟨0, 100, 0⟩ ∧
    colour? defaultConfig (.point 1) (.point (-1)) = some ⟨255, 100, 200⟩ ∧
    colour? defaultConfig (.point 1) (.point (-3 / 4)) = some ⟨128, 100, 200⟩ ∧
    colour? defaultConfig (.point 1) (.point (1 / 2)) = some ⟨0, 100, 200⟩ ∧
    colour? defaultConfig (.point 2) (.point (3 / 4)) = some ⟨255, 200, 255⟩ ∧
    colour? defaultConfig (.point 1) (.point 1) = some ⟨255, 100, 200⟩ ∧
    colour? defaultConfig (.point 300) (.point 0) = some ⟨0, 255, 255⟩ ∧
    colour? defaultConfig (.point (1 / 1000)) (.point 0) = some ⟨0, 1, 1⟩ ∧
    colour? defaultConfig (.point (13 / 1000)) (.point (1 / 4)) = some ⟨0, 1, 3⟩ := by decide +kernel

/-- V-M11: the clamp at both ends, with the phase scale 1/4. -/
theorem test_band_clamp :
    bandAverages { defaultConfig with phaseScale := .rat (1 / 4) } [.exact (.rat 510), .exact (.rat 510)]
      [.piMul 0, .piMul (-1 / 2)] = (.point 2, .point (-1)) ∧
    bandAverages { defaultConfig with phaseScale := .rat (1 / 4) } [.exact (.rat 510), .exact (.rat 510)]
      [.piMul 1, .piMul (1 / 2)] = (.point 2, .point 1) := by decide +kernel

/-- T1 with the green of the base colour as given. -/
def greenConfig (g : RealParam) : Config := { defaultConfig with baseColor := ⟨.rat 0, g, .rat 0⟩ }

/-- `Colour(Band)` of two magnitudes 255·√2 = √130050 at phase 0: the average is √2. -/
def rootBand (g : RealParam) : LedColor := ledColour (greenConfig g)
  [.root (.rat 130050), .root (.rat 130050)] [.piMul 0, .piMul 0]

/-- By hand from R192: 70·√2 = 98.99…, and 70.8·√2 = 100.1…, 70.9·√2 = 100.2…. -/
theorem test_ledColour_decided :
    rootBand (.rat 70) = .rgb ⟨0, 99, 0⟩ ∧ rootBand (.real (708 / 10) (709 / 10) 0) = .rgb ⟨0, 101, 0⟩ := by
  decide +kernel

/-- A base within 2^-90 of 100/√2, and one between 70 and 71: the band itself holds the colour. -/
theorem test_ledColour_undecided :
    rootBand (.rat (mkRat (isqrt (5000 * 2 ^ 200)) (2 ^ 100)))
      = .band [.root (.rat 130050), .root (.rat 130050)] [.piMul 0, .piMul 0] ∧
    rootBand (.real 70 71 0) = .band [.root (.rat 130050), .root (.rat 130050)] [.piMul 0, .piMul 0] := by
  decide +kernel

/-! ### Witnesses: the premises of each statement can be met together -/

theorem witness_EncodeDecode : decodeTableWord 32 0x01000002 = some (.setMode .spectrum) := by decide

/-- R108, both bounds of `s`, and an operand outside the configuration's bound. -/
theorem witness_ReservedOperandsAreRefused :
    (5 ≤ (5 : BitVec 3).toNat ∧ 5 ≤ (7 : BitVec 3).toNat) ∧ Instr.wf rst.cfg (.pipeSample 1024) = false := by decide

theorem witness_ConstructionErrors :
    (¬∃ p, ({ defaultConfig with n := 100 } : Config).n = 2 ^ p) ∧
    ((∃ p, defaultConfig.n = 2 ^ p) ∧ ((3 : Nat) = 0 ∨ defaultConfig.n % 3 ≠ 0)) ∧
    ((∃ p, defaultConfig.n = 2 ^ p) ∧ defaultConfig.numLeds ≠ 0 ∧ defaultConfig.n % defaultConfig.numLeds = 0) := by
  refine ⟨?_, ⟨⟨2, rfl⟩, by decide⟩, ⟨2, rfl⟩, by decide, by decide⟩
  rintro ⟨p, hp⟩
  have h : (100 : Nat) = 2 ^ p := hp
  have : p < 7 := by
    by_contra hc
    have := Nat.pow_le_pow_right (n := 2) (by omega) (show 7 ≤ p by omega)
    omega
  interval_cases p <;> omega

/-- For AcceptedConfigurations, ResetValues, FirstStimuli, ConstructionIsSane. -/
theorem witness_construct : construct defaultConfig = .next rst := by
  have h : configProblem defaultConfig = none := by decide +kernel
  simp [construct, h, rst, State.reset]

theorem witness_ResetValues : defaultConfig.btnPullUp[0]? = some true := by decide

theorem witness_StepRunsDecodedStimulus :
    configProblem (rst.withFetchWord 32 0x02000000).cfg = none ∧
    (rst.withFetchWord 32 0x02000000).input = [0x02000000] ∧ decodeTableWord 32 0x02000000 = some .getMode := by
  decide +kernel

/-- Each clause of StepStops. -/
theorem witness_StepStops :
    (configProblem rst.cfg = none ∧ rst.input = []) ∧ decodeErrorOf 0x02000001 = some .invalidWord ∧
    decodeErrorOf 0x01000003 = some .reservedOperand ∧
    configProblem { defaultConfig with n := 3 } = some .nNotPowerOfTwo ∧
    configProblem { defaultConfig with numLeds := 3 } = some .ledsNotDividingN ∧
    configProblem { defaultConfig with btnThreshold := 0 } = some .badConfig := by decide +kernel

/-- A sane state in each phase of the sequencer, one while sounding, one while debouncing. -/
theorem witness_Sane :
    Sane rst ∧ Sane (sampling 3) ∧ Sane (analyzing [0, 510, 0, 0]) ∧ Sane (rendering 1) ∧ Sane (painting 0) ∧
    Sane (toned 2) ∧ Sane (pressed .falling 2 false true) :=
  ⟨sane_of_check (by decide +kernel), sane_of_check (by decide +kernel), sane_of_check (by decide +kernel),
   sane_of_check (by decide +kernel), sane_of_check (by decide +kernel), sane_of_check (by decide +kernel),
   sane_of_check (by decide +kernel)⟩

/-- For StepKeepsSizes and StepKeepsSane. -/
theorem witness_StepKeepsSane :
    Sane (rst.withFetchWord 32 0x01000002) ∧ ∃ t, step (rst.withFetchWord 32 0x01000002) = .next t :=
  ⟨sane_of_check (by decide +kernel), next_of_isNext (by decide +kernel)⟩

/-- For GuardsDecideCompletion: a guard that holds and one that fails. -/
theorem witness_GuardsDecideCompletion :
    Sane rst ∧ Instr.wf rst.cfg .pipeBegin = true ∧ guardHolds .pipeBegin rst = true ∧
    guardHolds .pipeAnalyze rst = false :=
  ⟨sane_of_check (by decide +kernel), rfl, by decide +kernel, by decide +kernel⟩

/-- Both outcomes of FailedGuardsAreRefused. -/
theorem witness_FailedGuardsAreRefused :
    (rst.buttons.length = rst.cfg.numButtons ∧ Instr.wf rst.cfg .patTick = true ∧ guardHolds .patTick rst = false) ∧
    (unpainted.buttons.length = unpainted.cfg.numButtons ∧ Instr.wf unpainted.cfg (.pipeLed false) = true ∧
      guardHolds (.pipeLed false) unpainted = false ∧ unpainted.pipePhase = .render ∧
      unpainted.pipeMode = some .constant ∧ unpainted.constValid = false) := by decide +kernel

/-- A reachable state that sounds, for ReachableInvariants and MutualExclusion. -/
theorem witness_Reachable :
    ∃ s : State, Reachable defaultConfig s ∧ s.alarmState = .sounding ∧ (∃ t, exec .getMode s = .next t) ∧
      ∃ t, exec .pipeBegin s = .next t := by
  refine ⟨{ ringing with modeSel := .off }, .step _ _ (.start rst [0x0A000002] witness_construct) ?_, rfl,
    next_of_isNext (by decide +kernel), next_of_isNext (by decide +kernel)⟩
  have h : configProblem rst.cfg = none := by decide +kernel
  simp only [step, nextStimulus, h]
  rfl

theorem witness_BeginTestToneEffect :
    (rst.cfg.patterns.length ≤ (2 : Byte).toNat) ∧
    ((1 : Byte).toNat < ringing.cfg.patterns.length ∧ ringing.alarmState = .sounding) ∧
    ((1 : Byte).toNat < rst.cfg.patterns.length ∧ rst.alarmState ≠ .sounding) := by decide

theorem witness_EndTestToneEffect :
    rst.testActive = false ∧ testing.testActive = true ∧ testing.alarmSaved ≠ .sounding := by decide

theorem witness_AlarmSetEffect :
    rst.alarmState ≠ .sounding ∧ ringing.alarmState = .sounding ∧ AlarmState.snoozed ≠ .sounding := by decide

/-- Each kind of entry; the silence stands last and wraps. -/
theorem witness_PatTickEffect :
    rst.patTimerRun = false ∧ (toned 2).patTimerRun = true ∧
    (toned 2).cfg.patterns[(toned 2).patSel]? = some [.freq 880, .hold, .silence] ∧
    [PatEntry.freq 880, .hold, .silence][(toned 2).patPos]? = some .silence ∧
    [PatEntry.freq 880, .hold, .silence][(toned 1).patPos]? = some .hold ∧
    [PatEntry.freq 880, .hold, .silence][testing.patPos]? = some (.freq 880) := by decide

theorem witness_FreqTickEffect : rst.freqTimerRun = false ∧ (toned 1).freqTimerRun = true := by decide

theorem witness_TestToneRestores :
    Sane spectrumOn ∧ spectrumOn.alarmState ≠ .sounding ∧ (1 : Byte).toNat < spectrumOn.cfg.patterns.length :=
  ⟨sane_of_check (by decide +kernel), by decide, by decide⟩

/-- A pair in the table and one that is not, in each wiring. -/
theorem witness_EncEdgeEffect :
    ((1 : Fin 4).val = 3 - (false.toNat + 2 * true.toNat)) ∧ ((2 : Fin 4).val = false.toNat + 2 * true.toNat) ∧
    qLookup rst.cfg.qtable (turned .cw1).encState 1 = none ∧
    qLookup rst.cfg.qtable (turned .cw3).encState 3 = some .start := by decide

theorem witness_OnPressEffect :
    rst.cfg.numButtons ≤ (1 : BitVec 4).toNat ∧ (0 : BitVec 4).toNat < rst.cfg.numButtons ∧
    rst.buttons[(0 : BitVec 4).toNat]? = some ⟨.holdUp, 0, true, false, none⟩ := by decide

/-- Each clause of BtnEdgeEffect. -/
theorem witness_BtnEdgeEffect :
    rst.cfg.numButtons ≤ (1 : BitVec 4).toNat ∧ (0 : BitVec 4).toNat < rst.cfg.numButtons ∧
    (pressed .falling 0 false true).buttons[(0 : BitVec 4).toNat]? = some ⟨.falling, 0, false, true, some 0xB0⟩ ∧
    (pressed .holdUp 0 true false).buttons[(0 : BitVec 4).toNat]? = some ⟨.holdUp, 0, true, false, some 0xB0⟩ ∧
    (pressed .holdDown 0 true false).buttons[(0 : BitVec 4).toNat]? = some ⟨.holdDown, 0, true, false, some 0xB0⟩ := by
  decide

/-- Each clause of BtnTickEffect; the counts below the threshold and at it. -/
theorem witness_BtnTickEffect :
    rst.cfg.numButtons ≤ (1 : BitVec 4).toNat ∧ rst.cfg.btnPullUp[(0 : BitVec 4).toNat]? = some true ∧
    (pressed .falling 2 false true).buttons[(0 : BitVec 4).toNat]? = some ⟨.falling, 2, false, true, some 0xB0⟩ ∧
    (true = decide (BtnState.falling = .falling)) ∧ (false ≠ decide (BtnState.falling = .falling)) ∧
    1 + 1 ≠ rst.cfg.btnThreshold ∧ 2 + 1 = rst.cfg.btnThreshold ∧
    (pressed .holdUp 0 true false).buttons[(0 : BitVec 4).toNat]? = some ⟨.holdUp, 0, true, false, some 0xB0⟩ := by
  decide

theorem witness_DetentsWithDefaultTable : rst.cfg.qtable = defaultQTable ∧ rst.encState = .start := by decide

/-- The clockwise sequence of the default table, its reverse, and the sequence with an edge skipped. -/
theorem witness_DetentsWithEveryTable :
    configProblem defaultConfig = none ∧ rst.cfg = defaultConfig ∧ rst.encState = .start ∧
    [(false, true), (false, false), (true, false), (true, true)].map
      (fun e => pinPair defaultConfig.encPullDown e.1 e.2) = [2, 0, 1, 3] ∧
    [(true, false), (false, false), (false, true), (true, true)].map
      (fun e => pinPair defaultConfig.encPullDown e.1 e.2) = [1, 0, 2, 3] ∧
    [(false, true), (true, false), (true, true)].map (fun e => pinPair defaultConfig.encPullDown e.1 e.2)
      = [2, 0, 1, 3].eraseIdx 1 := by decide +kernel

/-- A released button and a held one, in both wirings. -/
theorem witness_CleanPressAndRelease :
    configProblem rst.cfg = none ∧ rst.cfg.btnPullUp[(0 : BitVec 4).toNat]? = some true ∧
    (pressed .holdUp 0 true false).buttons[(0 : BitVec 4).toNat]? = some ⟨.holdUp, 0, true, false, some 0xB0⟩ ∧
    (pressed .holdDown 0 true false).buttons[(0 : BitVec 4).toNat]? = some ⟨.holdDown, 0, true, false, some 0xB0⟩ ∧
    configProblem { defaultConfig with btnPullUp := [false] } = none := by decide +kernel

theorem witness_BounceAborts :
    (0 : BitVec 4).toNat < rst.cfg.numButtons ∧
    (pressed .holdUp 0 true false).buttons[(0 : BitVec 4).toNat]? = some ⟨.holdUp, 0, true, false, some 0xB0⟩ ∧
    BtnState.holdUp = (if false = true then .holdDown else .holdUp) ∧ 2 < rst.cfg.btnThreshold := by decide

/-- Each clause of PipeBeginEffect. -/
theorem witness_PipeBeginEffect :
    (sampling 0).pipePhase ≠ .idle ∧
    (spectrumOn.pipePhase = .idle ∧ spectrumOn.alarmState ≠ .sounding ∧ spectrumOn.modeSel = .spectrum) ∧
    (constantOn.pipePhase = .idle ∧ constantOn.alarmState ≠ .sounding ∧ constantOn.modeSel = .constant) ∧
    (rst.pipePhase = .idle ∧ rst.modeSel = .off) ∧ (ringing.pipePhase = .idle ∧ ringing.alarmState = .sounding) := by
  decide

/-- Each clause of PipeSampleEffect; the last index and the one before it. -/
theorem witness_PipeSampleEffect :
    rst.cfg.adcMax < (1024 : BitVec 16).toNat ∧ ((1023 : BitVec 16).toNat ≤ rst.cfg.adcMax ∧ rst.pipePhase ≠ .sampling) ∧
    ((sampling 3).pipePhase = .sampling ∧ (sampling 3).pipeIdx < (sampling 3).x.length ∧
      (sampling 3).pipeIdx + 1 = (sampling 3).cfg.n) ∧
    (sampling 2).pipeIdx < (sampling 2).x.length := by decide

theorem witness_PipeAnalyzeEffect :
    rst.pipePhase ≠ .analyze ∧ configProblem (analyzing [0, 510, 0, 0]).cfg = none ∧
    (analyzing [0, 510, 0, 0]).pipePhase = .analyze ∧ [0, 510, 0, 0].length = (analyzing [0, 510, 0, 0]).cfg.n ∧
    (analyzing [0, 510, 0, 0]).x = [0, 510, 0, 0].map some := by decide +kernel

/-- For ConstantBlockIsBinZero, TransformIsSymmetric and SpectrumRanges. -/
theorem witness_ConstantBlockIsBinZero :
    configProblem (analyzing [255, 255, 255, 255]).cfg = none ∧
    (analyzing [255, 255, 255, 255]).x = List.replicate (analyzing [255, 255, 255, 255]).cfg.n (some 255) ∧
    ∃ t, exec .pipeAnalyze (analyzing [255, 255, 255, 255]) = .next t :=
  ⟨by decide +kernel, by decide, next_of_isNext (by decide +kernel)⟩

theorem witness_TransformIsSymmetric :
    configProblem (analyzing [0, 510, 0, 0]).cfg = none ∧
    (∃ t, exec .pipeAnalyze (analyzing [0, 510, 0, 0]) = .next t) ∧ 2 ≤ (analyzing [0, 510, 0, 0]).cfg.n :=
  ⟨by decide +kernel, next_of_isNext (by decide +kernel), by decide⟩

theorem witness_SpectrumRanges :
    ∃ t, exec .pipeAnalyze (analyzing [0, 510, 0, 0]) = .next t ∧ t.mag[3]? = some (some (.exact (.rat 510))) ∧
      t.ph[2]? = some (some (.piMul 1)) := by
  obtain ⟨t, ht⟩ := next_of_isNext (r := exec .pipeAnalyze (analyzing [0, 510, 0, 0])) (by decide +kernel)
  have h : after (exec .pipeAnalyze (analyzing [0, 510, 0, 0])) = some (rendering 0) := by decide +kernel
  rw [ht] at h
  cases h
  exact ⟨_, ht, by decide, by decide +kernel⟩

theorem witness_BandsPartitionTheBins : configProblem defaultConfig = none ∧ 3 < defaultConfig.n := by decide +kernel

theorem witness_PipeLedSpectrumEffect :
    configProblem (rendering 1).cfg = none ∧ (rendering 1).pipePhase = .render ∧
    (rendering 1).pipeMode = some .spectrum ∧
    ((rendering 1).mag.drop ((rendering 1).pipeIdx * (rendering 1).cfg.binsPerLed)).take (rendering 1).cfg.binsPerLed
      = [Mag.exact (.rat 510), .exact (.rat 510)].map some ∧
    ((rendering 1).ph.drop ((rendering 1).pipeIdx * (rendering 1).cfg.binsPerLed)).take (rendering 1).cfg.binsPerLed
      = [Phase.piMul 1, .piMul (1 / 2)].map some ∧
    [Mag.exact (.rat 510), .exact (.rat 510)].length = (rendering 1).cfg.binsPerLed := by decide +kernel

theorem witness_RationalBandsGiveBytes :
    (rendering 1).pipeMode = some .spectrum ∧ (rendering 1).ledDrvEn = true ∧
    (∀ p ∈ [(rendering 1).cfg.phaseScale, (rendering 1).cfg.baseColor.r, (rendering 1).cfg.baseColor.g,
      (rendering 1).cfg.baseColor.b, (rendering 1).cfg.redSpan], ∃ q, p = .rat q) ∧
    (∀ j, j < (rendering 1).cfg.binsPerLed →
      ∃ q, (rendering 1).mag[(rendering 1).pipeIdx * (rendering 1).cfg.binsPerLed + j]? = some (some (.exact (.rat q)))) ∧
    (∀ j, j < (rendering 1).cfg.binsPerLed →
      ∃ q, (rendering 1).ph[(rendering 1).pipeIdx * (rendering 1).cfg.binsPerLed + j]? = some (some (.piMul q))) ∧
    ∃ t, exec (.pipeLed false) (rendering 1) = .next t := by
  have hb : (rendering 1).cfg.binsPerLed = 2 := rfl
  refine ⟨rfl, rfl, ?_, ?_, ?_, next_of_isNext (by decide +kernel)⟩
  · intro p hp
    simp only [List.mem_cons, List.not_mem_nil, or_false] at hp
    rcases hp with rfl | rfl | rfl | rfl | rfl <;> exact ⟨_, rfl⟩
  · intro j hj
    rw [hb] at hj
    interval_cases j <;> exact ⟨510, rfl⟩
  · intro j hj
    rw [hb] at hj
    interval_cases j
    · exact ⟨1, rfl⟩
    · exact ⟨1 / 2, rfl⟩

theorem witness_SilentBandIsBlack :
    silent.pipeMode = some .spectrum ∧ silent.ledDrvEn = true ∧
    (∀ j, j < silent.cfg.binsPerLed →
      silent.mag[silent.pipeIdx * silent.cfg.binsPerLed + j]? = some (some (.exact (.rat 0)))) ∧
    ∃ t, exec (.pipeLed true) silent = .next t :=
  ⟨rfl, rfl, by decide +kernel, next_of_isNext (by decide +kernel)⟩

/-- The first light unit of a SPECTRUM iteration, all magnitudes `m` and all phases `q`·π. -/
def banded (q m : Rat) : State :=
  { rendering 0 with
    mag := List.replicate 4 (some (.exact (.rat m)))
    ph := List.replicate 4 (some (.piMul q)) }

theorem banded_cfg (q m : Rat) : (banded q m).cfg = defaultConfig := by rfl

theorem defaultConfig_binsPerLed : defaultConfig.binsPerLed = 2 := by rfl

theorem avgPhase_banded (q : Rat) (h1 : -1 ≤ q) (h2 : q ≤ 1) (l : Nat) :
    avgPhase (banded q 510).cfg ([Phase.piMul q, .piMul q].map (Phase.val l)) = q * Real.pi := by
  have hs : defaultConfig.phaseScale.val = 1 := by
    show ((1 : Rat) : ℝ) = 1
    norm_num
  have hp := Real.pi_pos
  have h1' : (-1 : ℝ) ≤ q := by exact_mod_cast h1
  have h2' : (q : ℝ) ≤ 1 := by exact_mod_cast h2
  simp only [avgPhase, List.map_cons, List.map_nil, List.sum_cons, List.sum_nil, Phase.val, banded_cfg,
    defaultConfig_binsPerLed, hs, clampReal]
  rw [show ((q : ℝ) * Real.pi + (q * Real.pi + 0)) / (((2 : Nat) : ℝ) * 1) = q * Real.pi by push_cast; ring,
    min_eq_left (by nlinarith), max_eq_right (by nlinarith)]

/-- Each clause: the phases 0, -π/2 and π/2, and the magnitude 0. -/
theorem witness_ColourAtTheBoundaries :
    (∀ q m : Rat, configProblem (banded q m).cfg = none ∧ (banded q m).pipePhase = .render ∧
      (banded q m).pipeMode = some .spectrum ∧ (banded q m).ledDrvEn = true ∧ (banded q m).cfg.binsPerLed = 2 ∧
      ((banded q m).mag.drop ((banded q m).pipeIdx * 2)).take 2
        = [Mag.exact (.rat m), .exact (.rat m)].map some ∧
      ((banded q m).ph.drop ((banded q m).pipeIdx * 2)).take 2 = [Phase.piMul q, .piMul q].map some) ∧
    (∀ l, avgPhase (banded 0 510).cfg ([Phase.piMul 0, .piMul 0].map (Phase.val l)) = 0 ∧
      avgPhase (banded (-1 / 2) 510).cfg ([Phase.piMul (-1 / 2), .piMul (-1 / 2)].map (Phase.val l)) = -Real.pi / 2 ∧
      avgPhase (banded (1 / 2) 510).cfg ([Phase.piMul (1 / 2), .piMul (1 / 2)].map (Phase.val l)) = Real.pi / 2 ∧
      avgMagnitude (banded 0 0).cfg ([Mag.exact (.rat 0), .exact (.rat 0)].map (Mag.val l)) = 0) := by
  have hc : configProblem defaultConfig = none := by decide +kernel
  refine ⟨fun q m => ⟨hc, rfl, rfl, rfl, defaultConfig_binsPerLed, rfl, rfl⟩, fun l => ⟨?_, ?_, ?_, ?_⟩⟩
  · rw [avgPhase_banded 0 (by norm_num) (by norm_num)]; norm_num
  · rw [avgPhase_banded (-1 / 2) (by norm_num) (by norm_num)]; push_cast; ring
  · rw [avgPhase_banded (1 / 2) (by norm_num) (by norm_num)]; push_cast; ring
  · simp [avgMagnitude, Mag.val]

/-- Both ends of each clause's range; 180.3 is no integer. -/
theorem witness_ChannelCeiling :
    ((0 : Rat) ≤ 0 ∧ (0 : Rat) ≤ 255) ∧ ((0 : Rat) ≤ 1803 / 10 ∧ (1803 / 10 : Rat) ≤ 255) ∧ (-1 / 10 : Rat) < 0 ∧
    (255 : Rat) < 256 ∧ ((0 : ℝ) ≤ 255 ∧ (255 : ℝ) ≤ 255) ∧ (-1 / 10 : ℝ) < 0 ∧ (255 : ℝ) < 255 + 1 / 10 ∧
    (0 : ℝ) < 1 / 10 ∧ (255 : Nat) ≤ 255 := by norm_num

/-- The two ends of the range of phases. -/
theorem witness_RampsRunFromZeroToOne :
    ((-1 : Rat) ≤ -1 ∧ (-1 : Rat) ≤ 1) ∧ ((-1 : Rat) ≤ 1 ∧ (1 : Rat) ≤ 1) := by decide +kernel

/-- Each clause of PipeLedConstantEffect. -/
theorem witness_PipeLedConstantEffect :
    rst.pipePhase ≠ .render ∧
    (unpainted.pipePhase = .render ∧ unpainted.pipeMode = some .constant ∧ unpainted.constValid = false) ∧
    ((painting 1).pipePhase = .render ∧ (painting 1).pipeMode = some .constant ∧ (painting 1).constValid = true ∧
      (painting 1).constColor = some ⟨255, 128, 0⟩ ∧ (painting 1).pipeIdx + 1 = (painting 1).cfg.numLeds) := by decide

theorem witness_ConstantPassWritesEveryUnit :
    Sane (painting 0) ∧ (painting 0).pipePhase = .render ∧ (painting 0).pipeIdx = 0 ∧
    (painting 0).pipeMode = some .constant ∧ (painting 0).constColor = some ⟨255, 128, 0⟩ :=
  ⟨sane_of_check (by decide +kernel), rfl, rfl, rfl, rfl⟩

theorem witness_SampleBlockFillsX :
    Sane (sampling 0) ∧ (sampling 0).pipePhase = .sampling ∧ (sampling 0).pipeIdx = 0 ∧
    ([0, 510, 0, 1023] : List (BitVec 16)).length = (sampling 0).cfg.n ∧
    ∀ v ∈ ([0, 510, 0, 1023] : List (BitVec 16)), v.toNat ≤ (sampling 0).cfg.adcMax :=
  ⟨sane_of_check (by decide +kernel), rfl, rfl, rfl, by
    show ∀ v ∈ ([0, 510, 0, 1023] : List (BitVec 16)), v.toNat ≤ 1023
    simp⟩

theorem witness_SpectrumIterationCompletes :
    Sane spectrumOn ∧ spectrumOn.pipePhase = .idle ∧ spectrumOn.alarmState ≠ .sounding ∧
    spectrumOn.modeSel = .spectrum ∧ ([0, 510, 0, 0] : List (BitVec 16)).length = spectrumOn.cfg.n ∧
    ∀ v ∈ ([0, 510, 0, 0] : List (BitVec 16)), v.toNat ≤ spectrumOn.cfg.adcMax :=
  ⟨sane_of_check (by decide +kernel), rfl, by decide, rfl, rfl, by
    show ∀ v ∈ ([0, 510, 0, 0] : List (BitVec 16)), v.toNat ≤ 1023
    simp⟩

/-- For SequencerRelation, OnlyListedStimuliWrite, EventsComeFromTheirStimuli and ModeIsReadOnlyAtPipeBegin: every
pipeline stimulus completes in some sane state (witness_Sane), and one stimulus of another class. -/
theorem witness_SequencerRelation :
    (∃ t, exec .pipeBegin rst = .next t) ∧ (∃ t, exec (.pipeSample 1023) (sampling 3) = .next t) ∧
    (∃ t, exec .pipeAnalyze (analyzing [0, 510, 0, 0]) = .next t) ∧ (∃ t, exec (.pipeLed true) (rendering 1) = .next t) ∧
    (∃ t, exec .patTick (toned 2) = .next t) ∧
    StimulusClass.ofOpcode (Instr.patTick).opcode ≠ some .pipeline ∧
    StimulusClass.ofOpcode (Instr.pipeAnalyze).opcode = some .pipeline :=
  ⟨next_of_isNext (by decide +kernel), next_of_isNext (by decide +kernel), next_of_isNext (by decide +kernel),
   next_of_isNext (by decide +kernel), next_of_isNext (by decide +kernel), by decide, by decide⟩

theorem witness_AnalyzeCommutesWithEvents :
    StimulusClass.ofOpcode (Instr.setMode .off).opcode ≠ some .pipeline ∧
    (∃ t, runInstrs [.pipeAnalyze, .setMode .off] (analyzing [0, 510, 0, 0]) = .next t) ∧
    ∃ t, runInstrs [.setMode .off, .pipeAnalyze] (analyzing [0, 510, 0, 0]) = .next t :=
  ⟨by decide, next_of_isNext (by decide +kernel), next_of_isNext (by decide +kernel)⟩

end Sys2Proof.Tests
end

/-! Construction and steps (spec/00_scope.md): the configuration check as the constraints of the parameter tables, the
step as the stimulus at the head of the trace, and the output events each stimulus can emit. -/

namespace Sys2Proof.Scope

open Sys2Proof.Machine

/-! ### The step (R16, R81, R83) -/

/-- A decoded stimulus at the head of the trace is what the step applies, whatever it answers. -/
theorem step_eq_exec {s s' : State} {i : Instr} (h : nextStimulus s = .ok (i, s')) : step s = exec i s' := by
  rw [step, h]

/-- Settles O11: the trace's head decodes, so it is the next stimulus. -/
theorem stepRunsDecodedStimulus : Obligations.StepRunsDecodedStimulus := by
  intro s w rest i hc hin hd
  exact step_eq_exec ((nextStimulus_ok s _ i).mpr ⟨hc, w, rest, hin, hd, rfl⟩)

/-! ### Real parameters held to a range by their bounds (notes/assumptions/4.md) -/

theorem param_lo_le_hi (p : RealParam) : p.lo ≤ p.hi := by
  exact_mod_cast (param_lo_le p).trans (param_le_hi p)

theorem ratWithin_iff (lo hi : Int) (q : Rat) : ratWithin lo hi q = true ↔ (lo : Rat) ≤ q ∧ q ≤ hi := by
  simp [ratWithin, Rat.le_iff]

/-- Both bounds lie in the range exactly where the lower one is above its start and the upper one below its end. -/
theorem within_iff (lo hi : Int) (p : RealParam) : p.within lo hi = true ↔ (lo : Rat) ≤ p.lo ∧ p.hi ≤ hi := by
  rw [RealParam.within, Bool.and_eq_true, ratWithin_iff, ratWithin_iff]
  have h := param_lo_le_hi p
  exact ⟨fun ⟨hl, hh⟩ => ⟨hl.1, hh.2⟩, fun ⟨hl, hh⟩ => ⟨⟨hl, h.trans hh⟩, hl.trans h, hh⟩⟩

theorem within_channel_iff (p : RealParam) : p.within 0 255 = true ↔ 0 ≤ p.lo ∧ p.hi ≤ 255 :=
  mod_cast within_iff 0 255 p

theorem positive_iff (p : RealParam) : p.positive = true ↔ 0 < p.lo := by
  simp [RealParam.positive]

theorem neg_den_lt_num_iff (q : Rat) : -(q.den : Int) < q.num ↔ -1 < q := by
  simp [Rat.lt_iff]

theorem num_le_den_iff (q : Rat) : q.num ≤ q.den ↔ q ≤ 1 := by
  simp [Rat.le_iff]

/-! ### The constraints of the parameter tables -/

theorem isPowerOfTwo_iff (n : Nat) : isPowerOfTwo n = true ↔ ∃ p, n = 2 ^ p := by
  rw [isPowerOfTwo, beq_iff_eq]
  constructor
  · exact fun h => ⟨n.log2, h.symm⟩
  · rintro ⟨p, rfl⟩
    rw [Nat.log2_two_pow]

theorem oneBitApart_iff : ∀ a b : Fin 4, oneBitApart a b = true ↔ a ^^^ b = 1 ∨ a ^^^ b = 2 := by decide

theorem mem_pinPairs : ∀ q : Fin 4, q ∈ pinPairs := by decide

/-- R134: the named states, and a clockwise sequence that passes the check. -/
theorem qtableOk_iff (t : List QEntry) :
    qtableOk t = true ↔
      (∀ e ∈ t, e.state ≠ .reserved ∧ e.next ≠ .reserved) ∧ ∃ q1 q2 q3, chainsOk t q1 q2 q3 = true := by
  simp [qtableOk, mem_pinPairs]

/-- R134 (b), (c), (d) for one clockwise sequence: its one-bit steps, the two chains, and the pairs that are absent. -/
theorem chainsOk_iff (t : List QEntry) (q1 q2 q3 : Fin 4) :
    chainsOk t q1 q2 q3 = true ↔
      (∀ pair ∈ [((3 : Fin 4), q1), (q1, q2), (q2, q3), (q3, 3)], pair.1 ^^^ pair.2 = 1 ∨ pair.1 ^^^ pair.2 = 2) ∧
      (qLookup t .start q1 = some .cw1 ∧ qLookup t .cw1 q2 = some .cw2 ∧
        qLookup t .cw2 q3 = some .cw3 ∧ qLookup t .cw3 3 = some .start) ∧
      (qLookup t .start q3 = some .ccw1 ∧ qLookup t .ccw1 q2 = some .ccw2 ∧
        qLookup t .ccw2 q1 = some .ccw3 ∧ qLookup t .ccw3 3 = some .start) ∧
      (qLookup t .start q2 = none ∧ qLookup t .cw1 q3 = none ∧ qLookup t .cw2 3 = none ∧
        qLookup t .cw3 q1 = none ∧ qLookup t .ccw1 q1 = none ∧ qLookup t .ccw2 3 = none ∧
        qLookup t .ccw3 q3 = none) := by
  simp only [chainsOk, Bool.and_eq_true, oneBitApart_iff, beq_iff_eq, List.forall_mem_cons, List.not_mem_nil,
    false_imp_iff, implies_true, true_and, and_assoc]

theorem entryOk_iff (e : PatEntry) : entryOk e = true ↔ ∀ hz, e = .freq hz → 1 ≤ hz := by
  cases e <;> simp [entryOk, Nat.pos_iff_ne_zero, Nat.one_le_iff_ne_zero]

/-- R10: a pattern has an entry, and each frequency entry holds a positive integer. -/
theorem patternsOk_iff (ps : List (List PatEntry)) :
    ps.all (fun p => !p.isEmpty && p.all entryOk) = true ↔
      ∀ p ∈ ps, p ≠ [] ∧ ∀ hz, PatEntry.freq hz ∈ p → 1 ≤ hz := by
  simp only [List.all_eq_true, Bool.and_eq_true, Bool.not_eq_true', List.isEmpty_eq_false_iff, entryOk_iff]
  refine forall₂_congr fun p _ => and_congr_right fun _ => ?_
  exact ⟨fun h hz hm => h _ hm hz rfl, fun h e hm hz he => h hz (he ▸ hm)⟩

/-- The three checks of construction, none of which finds a problem. -/
theorem configProblem_none_iff (c : Config) :
    configProblem c = none ↔
      (∃ p, c.n = 2 ^ p) ∧ c.numLeds ∣ c.n ∧ 1 ≤ c.numLeds ∧ constraintsOk c = true := by
  rw [← isPowerOfTwo_iff, Nat.dvd_iff_mod_eq_zero, Nat.one_le_iff_ne_zero]
  unfold configProblem
  split_ifs with hp hl hc
  · exact iff_of_false nofun (by simp [hp])
  · exact iff_of_false nofun fun ⟨_, hm, hz, _⟩ => hl.elim hz fun hn => hn hm
  · exact iff_of_false nofun (by simp [hc])
  · obtain ⟨hz, hm⟩ := not_or.mp hl
    exact iff_of_true rfl ⟨by simpa using hp, not_not.mp hm, hz, by simpa using hc⟩

/-- Settles O8, constraint by constraint: the checks in their order are the constraints in theirs. -/
theorem acceptedConfigurations : Obligations.AcceptedConfigurations := by
  refine ⟨fun p => ⟨param_lo_le p, param_le_hi p⟩, fun c => ?_⟩
  rw [construct_next, and_iff_left rfl, configProblem_none_iff]
  simp only [constraintsOk, Bool.and_eq_true, decide_eq_true_eq, positive_iff, within_channel_iff, qtableOk_iff,
    chainsOk_iff, patternsOk_iff, neg_den_lt_num_iff, num_le_den_iff, and_assoc]

/-! ### Output events (R17) -/

/-- What the rule that emits an event says of it: the stimulus, and what the event takes from the state before it. -/
def EventSource (i : Instr) (s : State) : Event → Prop
  | .fireCw h => s.cbCw = some h ∧ s.encState = .cw3 ∧ ∃ clk dir, i = .encEdge clk dir
  | .fireCcw h => s.cbCcw = some h ∧ s.encState = .ccw3 ∧ ∃ clk dir, i = .encEdge clk dir
  | .firePress u h => (buttonAt s u).bind Button.cbPress = some h ∧ ∃ level, i = .btnTick u level
  | .ledWrite n _ => n = s.pipeIdx ∧ s.ledDrvEn = true ∧ ∃ slow, i = .pipeLed slow
  | .yieldSleep => i = .pipeLed true
  | .ret _ => i = .getMode ∨ i = .alarmSounding

/-- `t` holds the events of `s` followed by at most two, each from its source. -/
def AppendsEvents (i : Instr) (s t : State) : Prop :=
  ∃ new : List Event, t.outputs = s.outputs ++ new ∧ new.length ≤ 2 ∧ ∀ e ∈ new, EventSource i s e

/-- The stimuli whose rules emit an event. -/
def emitting : Instr → Bool
  | .getMode => true
  | .alarmSounding => true
  | .encEdge _ _ => true
  | .btnTick _ _ => true
  | .pipeLed _ => true
  | .setMode _ => false
  | .setConstantColor _ _ _ => false
  | .beginTestTone _ => false
  | .endTestTone => false
  | .onRotateCw _ => false
  | .onRotateCcw _ => false
  | .onPress _ _ => false
  | .alarmSet _ => false
  | .btnEdge _ _ => false
  | .patTick => false
  | .freqTick => false
  | .pipeBegin => false
  | .pipeSample _ => false
  | .pipeAnalyze => false

/-- Every other stimulus leaves the output events as they are. -/
theorem exec_outputs_of_not_emitting {i : Instr} {s t : State} (hi : emitting i = false) (h : exec i s = .next t) :
    t.outputs = s.outputs := by
  cases i with
  | setMode m => cases h; rfl
  | setConstantColor r g b => cases h; rfl
  | onRotateCw f => cases h; rfl
  | onRotateCcw f => cases h; rfl
  | beginTestTone p => obtain ⟨-, -, rfl⟩ := (execBeginTestTone_next p s t).mp h; rfl
  | endTestTone => obtain ⟨-, rfl⟩ | ⟨-, rfl⟩ := (execEndTestTone_next s t).mp h <;> rfl
  | alarmSet a =>
    obtain ⟨-, -, rfl⟩ | ⟨-, -, rfl⟩ | ⟨-, -, rfl⟩ | ⟨-, -, rfl⟩ := (execAlarmSet_next a s t).mp h <;> rfl
  | onPress u f => obtain ⟨-, b, -, rfl⟩ := (execOnPress_next u f s t).mp h; rfl
  | btnEdge u level => obtain ⟨-, b, -, -, rfl⟩ := (execBtnEdge_next u level s t).mp h; rfl
  | patTick => obtain ⟨-, p, e, -, -, rfl⟩ := (execPatTick_next s t).mp h; exact applyEntry_outputs e s
  | freqTick => obtain ⟨-, rfl⟩ := (execFreqTick_next s t).mp h; rfl
  | pipeBegin => obtain ⟨-, ⟨-, rfl⟩ | ⟨-, rfl⟩ | ⟨-, rfl⟩⟩ := (execPipeBegin_next s t).mp h <;> rfl
  | pipeSample v => obtain ⟨-, -, -, rfl⟩ := (execPipeSample_next v s t).mp h; exact afterSample_outputs _ _ _
  | pipeAnalyze => obtain ⟨-, xs, -, rfl⟩ := (execPipeAnalyze_next s t).mp h; rfl
  | getMode => cases hi
  | alarmSounding => cases hi
  | encEdge clk dir => cases hi
  | btnTick u level => cases hi
  | pipeLed slow => cases hi

/-- The events a callback invocation appends (`fireIf_outputs`): at most one, of a registered handle. -/
theorem mem_fired {b : Bool} {cb : Option Handle} {k : Handle → Event} {e : Event} :
    e ∈ (if b then (cb.map k).toList else []) ↔ b = true ∧ ∃ h, cb = some h ∧ k h = e := by
  cases b <;> simp

theorem length_fired_le (b : Bool) (cb : Option Handle) (k : Handle → Event) :
    (if b then (cb.map k).toList else []).length ≤ 1 := by
  cases b <;> cases cb <;> simp

/-- R224, R246: a query appends its answer. -/
theorem appendsEvents_ret {i : Instr} (hi : i = .getMode ∨ i = .alarmSounding) (v : Nat) (s : State) :
    AppendsEvents i s (emit (.ret v) s) :=
  ⟨[.ret v], rfl, by simp, fun e he => by rw [List.mem_singleton.mp he]; exact hi⟩

/-- R136: ENC_EDGE fires the clockwise callback from CW3, the counter-clockwise one from CCW3. -/
theorem execEncEdge_appendsEvents {clk dir : Bool} {s t : State} (h : execEncEdge clk dir s = .next t) :
    AppendsEvents (.encEdge clk dir) s t := by
  obtain rfl := (next_eq_next _ t).mp h
  refine ⟨_, (fireIf_outputs ..).trans (by rw [fireIf_outputs, List.append_assoc]), ?_, fun e he => ?_⟩
  · rw [List.length_append]
    exact Nat.add_le_add (length_fired_le ..) (length_fired_le ..)
  · rw [List.mem_append, mem_fired, mem_fired] at he
    obtain ⟨hb, f, hf, rfl⟩ | ⟨hb, f, hf, rfl⟩ := he
    · exact ⟨hf, by simp_all, clk, dir, rfl⟩
    · exact ⟨hf, by simp_all, clk, dir, rfl⟩

/-- R146: BTN_TICK fires the button's own callback. -/
theorem execBtnTick_appendsEvents {u : BitVec 4} {level : Bool} {s t : State}
    (h : execBtnTick u level s = .next t) : AppendsEvents (.btnTick u level) s t := by
  obtain ⟨-, b, hb, -, rfl⟩ := (execBtnTick_next u level s t).mp h
  refine ⟨_, fireIf_outputs .., (length_fired_le ..).trans one_le_two, fun e he => ?_⟩
  obtain ⟨-, f, hf, rfl⟩ := mem_fired.mp he
  exact ⟨by rw [buttonAt, hb]; exact hf, level, rfl⟩

/-- R210: a light unit's write with the driver enabled, then the yield where the pass is slow. -/
theorem renderUnit_appendsEvents (c : LedColor) (slow : Bool) (s : State) :
    AppendsEvents (.pipeLed slow) s (renderUnit c slow s) := by
  refine ⟨_, (renderUnit_outputs c slow s).trans (List.append_assoc ..), ?_, fun e he => ?_⟩
  · cases s.ledDrvEn <;> cases slow <;> simp
  · simp only [List.mem_append, List.mem_ite_nil_right, List.mem_singleton] at he
    obtain ⟨hd, rfl⟩ | ⟨rfl, rfl⟩ := he
    · exact ⟨rfl, hd, slow, rfl⟩
    · rfl

theorem execPipeLed_appendsEvents {slow : Bool} {s t : State} (h : execPipeLed slow s = .next t) :
    AppendsEvents (.pipeLed slow) s t := by
  obtain ⟨-, ⟨-, band, -, rfl⟩ | ⟨-, -, c, -, rfl⟩⟩ := (execPipeLed_next slow s t).mp h <;>
    exact renderUnit_appendsEvents _ slow s

/-- R17, every stimulus: the emitting ones each by their rule. -/
theorem exec_appendsEvents {i : Instr} {s t : State} (h : exec i s = .next t) : AppendsEvents i s t := by
  cases hi : emitting i with
  | false => exact ⟨[], by simp [exec_outputs_of_not_emitting hi h]⟩
  | true =>
    cases i with
    | getMode => obtain rfl := (next_eq_next _ t).mp h; exact appendsEvents_ret (.inl rfl) _ s
    | alarmSounding => obtain rfl := (next_eq_next _ t).mp h; exact appendsEvents_ret (.inr rfl) _ s
    | encEdge clk dir => exact execEncEdge_appendsEvents h
    | btnTick u level => exact execBtnTick_appendsEvents h
    | pipeLed slow => exact execPipeLed_appendsEvents h
    | _ => cases hi

/-- Settles O58: `EventSource` at each kind of event. -/
theorem eventsComeFromTheirStimuli : Obligations.EventsComeFromTheirStimuli := by
  intro i s t h
  obtain ⟨new, hout, hlen, hsrc⟩ := exec_appendsEvents h
  refine ⟨new, hout, hlen, fun e he => ?_⟩
  have hs := hsrc e he
  refine ⟨?_, ?_, ?_, ?_, ?_, ?_⟩
  · rintro f rfl; exact hs
  · rintro f rfl; exact hs
  · rintro u f rfl; exact hs
  · rintro n color rfl; exact hs
  · rintro rfl; exact hs
  · rintro v rfl; exact hs

end Sys2Proof.Scope

/-! The state (spec/10_state.md): its values after reset, which stimulus writes which element, the ranges of the
transform's results, and the invariants that every step keeps. -/

namespace Sys2Proof.StateRules

open Sys2Proof.Machine

/-! ### Reset (R52) -/

theorem resetState_buttons_getElem? {c : Config} {u : Nat} {p : Bool} (h : c.btnPullUp[u]? = some p) :
    (resetState c).buttons[u]? = some (resetButton p) := by
  simp [resetState, h]

/-- Settles O9: construction answers `resetState`, which holds the table's values by definition. -/
theorem resetValues : Obligations.ResetValues := by
  intro c t h
  obtain ⟨-, rfl⟩ := (construct_next c t).mp h
  have hlen : (resetState c).buttons.length = c.numButtons := List.length_map _
  exact ⟨rfl, rfl, rfl, rfl, rfl, rfl, rfl, rfl, rfl, rfl, rfl, rfl, rfl, rfl, rfl, rfl, rfl, rfl, rfl, hlen,
    fun _ _ hp => resetState_buttons_getElem? hp, rfl, rfl, rfl, rfl, rfl, rfl, rfl, rfl⟩

/-! ### Writing one button -/

theorem buttonAt_setButton_of_ne {u v : BitVec 4} (h : u ≠ v) (b : Button) (s : State) :
    buttonAt (setButton u b s) v = buttonAt s v :=
  List.getElem?_set_ne fun he => h (BitVec.eq_of_toNat_eq he)

/-- Where anything read off a button differs after a write, it is the written button. -/
theorem eq_of_button_differs {α : Type} (f : Option Button → α) {u : BitVec 4} {b : Button} {s t : State}
    (ht : t = setButton u b s) (v : BitVec 4) (h : f (buttonAt t v) ≠ f (buttonAt s v)) : u = v := by
  by_contra hne
  exact h (by rw [ht, buttonAt_setButton_of_ne hne])

/-- What a written button has in common with the one it replaces, every button keeps. -/
theorem map_buttonAt_setButton {α : Type} {f : Button → α} {u : BitVec 4} {b b' : Button} {s : State}
    (hb : buttonAt s u = some b) (hf : f b' = f b) (v : BitVec 4) :
    (buttonAt (setButton u b' s) v).map f = (buttonAt s v).map f := by
  by_cases hv : u = v
  · subst hv
    obtain ⟨hlt, -⟩ := List.getElem?_eq_some_iff.mp hb
    have hset : buttonAt (setButton u b' s) u = some b' := List.getElem?_set_self hlt
    rw [hset, hb, Option.map_some, Option.map_some, hf]
  · rw [buttonAt_setButton_of_ne hv]

@[simp] theorem edgeButton_cbPress (level : Bool) (b : Button) : (edgeButton level b).cbPress = b.cbPress := by
  unfold edgeButton
  split <;> rfl

@[simp] theorem tickButton_cbPress (n : Nat) (level : Bool) (b : Button) :
    (tickButton n level b).cbPress = b.cbPress := by
  unfold tickButton
  split_ifs <;> rfl

@[simp] theorem buttonAt_fireIf (c : Bool) (cb : Option Handle) (k : Handle → Event) (s : State) (v : BitVec 4) :
    buttonAt (fireIf c cb k s) v = buttonAt s v := by
  simp [buttonAt]

/-! ### Who writes what (R21 to R45, R80, R366) -/

/-- Settles O57, stimulus by stimulus: the state each answers differs from `s` in the elements its rule writes. -/
theorem onlyListedStimuliWrite : Obligations.OnlyListedStimuliWrite := by
  intro i s t h
  cases i with
  | setMode m => obtain rfl := (next_eq_next _ t).mp h; simp [buttonAt]
  | getMode => obtain rfl := (next_eq_next _ t).mp h; simp [buttonAt]
  | setConstantColor r g b => obtain rfl := (next_eq_next _ t).mp h; simp [buttonAt]
  | alarmSounding => obtain rfl := (next_eq_next _ t).mp h; simp [buttonAt]
  | beginTestTone p => obtain ⟨-, -, rfl⟩ := (execBeginTestTone_next p s t).mp h; simp [buttonAt]
  | endTestTone => obtain ⟨-, rfl⟩ | ⟨-, rfl⟩ := (execEndTestTone_next s t).mp h <;> simp [buttonAt]
  | onRotateCw f => obtain rfl := (next_eq_next _ t).mp h; simp [buttonAt]
  | onRotateCcw f => obtain rfl := (next_eq_next _ t).mp h; simp [buttonAt]
  | onPress u f =>
    obtain ⟨-, b, hb, ht⟩ := (execOnPress_next u f s t).mp h
    have hany := eq_of_button_differs id ht
    have hcb := eq_of_button_differs (Option.map Button.cbPress) ht
    subst ht
    simpa [map_buttonAt_setButton hb] using And.intro hany hcb
  | alarmSet a =>
    obtain ⟨-, rfl, rfl⟩ | ⟨-, -, rfl⟩ | ⟨-, -, rfl⟩ | ⟨-, -, rfl⟩ := (execAlarmSet_next a s t).mp h <;>
      simp [buttonAt]
  | encEdge clk dir => obtain rfl := (next_eq_next _ t).mp h; simp [buttonAt]
  | btnEdge u level =>
    obtain ⟨-, b, hb, -, ht⟩ := (execBtnEdge_next u level s t).mp h
    have hany := eq_of_button_differs id ht
    have hfsm := eq_of_button_differs (Option.map fun b => (b.state, b.count, b.irqEn, b.timerRun)) ht
    subst ht
    simpa [map_buttonAt_setButton hb] using And.intro hany hfsm
  | btnTick u level =>
    obtain ⟨-, b, hb, -, ht⟩ := (execBtnTick_next u level s t).mp h
    have hany := eq_of_button_differs id ht
    have hfsm := eq_of_button_differs (Option.map fun b => (b.state, b.count, b.irqEn, b.timerRun)) ht
    subst ht
    simpa [map_buttonAt_setButton ((buttonAt_fireIf _ _ _ s u).trans hb)] using And.intro hany hfsm
  | patTick => obtain ⟨-, p, e, -, -, rfl⟩ := (execPatTick_next s t).mp h; simp [buttonAt]
  | freqTick => obtain ⟨-, rfl⟩ := (execFreqTick_next s t).mp h; simp [buttonAt]
  | pipeBegin =>
    obtain ⟨-, ⟨-, rfl⟩ | ⟨-, rfl⟩ | ⟨-, rfl⟩⟩ := (execPipeBegin_next s t).mp h <;> simp [buttonAt]
  | pipeSample v =>
    obtain ⟨-, -, -, rfl⟩ := (execPipeSample_next v s t).mp h
    simpa [buttonAt] using fun k hk => by_contra fun hne => hk (List.getElem?_set_ne (Ne.symm hne))
  | pipeAnalyze => obtain ⟨-, xs, -, rfl⟩ := (execPipeAnalyze_next s t).mp h; simp [buttonAt]
  | pipeLed slow =>
    obtain ⟨-, ⟨-, band, -, rfl⟩ | ⟨-, -, c, -, rfl⟩⟩ := (execPipeLed_next slow s t).mp h <;>
      simp [buttonAt, renderUnit]

/-! ### What a valid configuration gives -/

/-- The constraints of R9, R10 and R12 that the state's ranges rest on. -/
theorem valid_config {c : Config} (hc : configProblem c = none) :
    (∀ e ∈ c.qtable, e.next ≠ .reserved) ∧ 0 < c.btnThreshold ∧
    (∀ p ∈ c.patterns, 0 < p.length ∧ ∀ hz, PatEntry.freq hz ∈ p → 0 < hz) ∧ c.alarmPattern < c.patterns.length ∧
    -1 < c.atan2Zero.lo ∧ c.atan2Zero.hi ≤ 1 := by
  obtain ⟨-, -, -, -, -, -, -, -, -, -, -, hq, -, -, hthr, -, hpat, halarm, hatan⟩ :=
    (Scope.acceptedConfigurations.2 c).mp ((construct_next c _).mpr ⟨hc, rfl⟩)
  exact ⟨fun e he => (hq e he).2, hthr, fun p hp => (hpat p hp).imp_left List.length_pos_iff.mpr, halarm, hatan⟩

/-- Any pattern of a valid configuration can be started at its first entry. -/
theorem pattern_starts {c : Config} (hc : configProblem c = none) {k : Nat} (hk : k < c.patterns.length) :
    ∃ p, c.patterns[k]? = some p ∧ 0 < p.length := by
  obtain ⟨-, -, hpat, -⟩ := valid_config hc
  exact ⟨_, List.getElem?_eq_getElem hk, (hpat _ (List.getElem_mem hk)).1⟩

/-! ### The transform's ranges (R45) -/

theorem magnitude_nonneg (l : Nat) (re im : Alg) : 0 ≤ (magnitude l re im).val l := by
  rw [val_magnitude]
  exact Real.sqrt_nonneg _

/-- R12, R178: with `ATAN2_ZERO` in half-turns in (-1, 1], every angle is a principal one. -/
theorem atan2_mem_Ioc {c : Config} (hc : configProblem c = none) (y x : ℝ) :
    atan2 c y x ∈ Set.Ioc (-Real.pi) Real.pi := by
  obtain ⟨-, -, -, -, hlo, hhi⟩ := valid_config hc
  unfold atan2
  split_ifs with h0
  · have hl : (-1 : ℝ) < c.atan2Zero.val := lt_of_lt_of_le (mod_cast hlo) (param_lo_le _)
    have hh : c.atan2Zero.val ≤ 1 := (param_le_hi _).trans (mod_cast hhi)
    constructor <;> nlinarith [Real.pi_pos]
  · exact Complex.arg_mem_Ioc _

theorem phase_mem_Ioc {c : Config} (hc : configProblem c = none) (re im : Alg) :
    (phase (cosTable c.n) c re im).val (levelOf c.n) ∈ Set.Ioc (-Real.pi) Real.pi := by
  obtain ⟨hpow, -⟩ := configProblem_none_sizes c hc
  rw [val_phase c hpow (configProblem_none_pos c hc)]
  exact atan2_mem_Ioc hc _ _

theorem filled_zipWith_getElem? {α β γ : Type} {f : α → β → γ} {as : List α} {bs : List β} {k : Nat} {v : γ}
    (h : (filled (List.zipWith f as bs))[k]? = some (some v)) : ∃ a b, v = f a b := by
  rw [← readElem_eq_some, readElem_filled, List.getElem?_zipWith_eq_some] at h
  obtain ⟨a, b, -, -, rfl⟩ := h
  exact ⟨a, b, rfl⟩

/-- Settles O44: the elements of the two arrays are `magnitude` and `phase` of a bin. -/
theorem spectrumRanges : Obligations.SpectrumRanges := by
  intro s t hc h
  obtain ⟨-, xs, -, rfl⟩ := (execPipeAnalyze_next s t).mp h
  refine ⟨fun k m hm => ?_, fun k p hp => ?_⟩
  · obtain ⟨re, im, rfl⟩ := filled_zipWith_getElem? hm
    exact magnitude_nonneg _ re im
  · obtain ⟨re, im, rfl⟩ := filled_zipWith_getElem? hp
    exact phase_mem_Ioc hc re im

/-! ### Sanity in parts

`Sane` is the conjunction of what it says of the configuration, of the constant colour, and of three parts of the state
that different stimuli write. -/

/-- The mode, alarm and tone elements: R51 (a), (c), (d), (e), with R26, R29, R32 and R248. -/
structure ToneSane (s : State) : Prop where
  driver : s.ledDrvEn = true ↔ effMode s ≠ .off
  tone : s.patTimerRun = s.sounding ∧ s.pwmEn = s.sounding ∧ s.radioHiz = s.sounding
  freqRuns : s.freqTimerRun = true → s.alarmState = .sounding ∧ s.toneFreq ≠ none
  freqStopped : s.freqTimerRun = false → s.pwmDuty = Config.dutyLow ∧ s.tonePhase = false
  test : s.testActive = true → s.alarmState = .sounding
  pattern : ∃ p, s.cfg.patterns[s.patSel]? = some p ∧ s.patPos < p.length
  frequency : ∀ hz, s.toneFreq = some hz → 0 < hz
  duty : s.pwmDuty = s.cfg.dutyHigh ∨ s.pwmDuty = Config.dutyLow
  saved : s.testActive = true → s.alarmSaved ≠ .sounding

/-- One button: R51 (b), and R147 (a) for the threshold `n`. -/
structure ButtonSane (n : Nat) (b : Button) : Prop where
  irq : b.irqEn = true ↔ (b.state = .holdUp ∨ b.state = .holdDown)
  timer : b.timerRun = true ↔ (b.state = .falling ∨ b.state = .rising)
  count : b.count < n

/-- The edge decoder's elements: R51 (f), R36, and every button. -/
structure EdgeSane (s : State) : Prop where
  encoder : s.encState ≠ .reserved
  buttonCount : s.buttons.length = s.cfg.numButtons
  buttons : ∀ b ∈ s.buttons, ButtonSane s.cfg.btnThreshold b

/-- The pipeline's elements: R51 (g), with R41, R42, R43, R70 and R77. -/
structure PipelineSane (s : State) : Prop where
  arrays : s.x.length = s.cfg.n ∧ s.re.length = s.cfg.n ∧ s.im.length = s.cfg.n ∧ s.mag.length = s.cfg.n
    ∧ s.ph.length = s.cfg.n
  sequencer : seqInRange s.cfg s.pipePhase s.pipeIdx
  latched : s.pipePhase ≠ .idle → s.pipeMode.isSome = true
  samples : ∀ i v, readElem s.x i = some v → v ≤ s.cfg.adcMax
  sampledSoFar : s.pipePhase = .sampling → ∀ i < s.pipeIdx, (readElem s.x i).isSome = true
  sampled : s.pipePhase = .analyze → ∀ i < s.cfg.n, (readElem s.x i).isSome = true
  analyzed : s.pipePhase = .render → s.pipeMode = some .spectrum →
    ∀ k < s.cfg.n, (readElem s.mag k).isSome = true ∧ (readElem s.ph k).isSome = true

theorem sane_iff (s : State) :
    Sane s ↔ configProblem s.cfg = none ∧ s.constValid = s.constColor.isSome ∧
      ToneSane s ∧ EdgeSane s ∧ PipelineSane s := by
  constructor
  · rintro ⟨hi, hs⟩
    exact ⟨hs.config, hs.colour,
      ⟨hi.driver, hi.tone, hi.freqRuns, hi.freqStopped, hi.test, hs.pattern, hs.frequency, hs.duty, hs.saved⟩,
      ⟨hi.encoder, hs.buttonCount, fun b hb => ⟨hi.irq b hb, hi.timer b hb, hs.counts b hb⟩⟩,
      ⟨hs.arrays, hs.sequencer, hs.latched, hs.samples, hs.sampledSoFar, hi.sampled, hi.analyzed⟩⟩
  · rintro ⟨hcfg, hcol, ht, he, hp⟩
    exact ⟨⟨ht.driver, fun b hb => (he.buttons b hb).irq, fun b hb => (he.buttons b hb).timer, ht.tone, ht.freqRuns,
        ht.freqStopped, ht.test, he.encoder, hp.sampled, hp.analyzed⟩,
      ⟨hcfg, hp.arrays, he.buttonCount, fun b hb => (he.buttons b hb).count, ht.pattern, ht.frequency, ht.duty,
        hp.sequencer, hp.latched, hp.samples, hp.sampledSoFar, hcol, ht.saved⟩⟩

/-- No invariant speaks of the trace. -/
theorem Sane.withInput {s : State} (h : Sane s) (ws : List Word) : Sane { s with input := ws } :=
  ⟨{ h.invariants with }, { h.shape with }⟩

/-! ### Construction -/

theorem resetButton_sane {n : Nat} (hn : 0 < n) (pullUp : Bool) : ButtonSane n (resetButton pullUp) := by
  cases pullUp <;> exact ⟨by decide, by decide, hn⟩

theorem toneSane_resetState {c : Config} (hfirst : ∃ p, c.patterns[0]? = some p ∧ 0 < p.length) :
    ToneSane (resetState c) where
  driver := iff_of_false nofun (not_not.mpr rfl)
  tone := ⟨rfl, rfl, rfl⟩
  freqRuns := nofun
  freqStopped _ := ⟨rfl, rfl⟩
  test := nofun
  pattern := hfirst
  frequency := nofun
  duty := .inr rfl
  saved := nofun

theorem edgeSane_resetState {c : Config} (hthr : 0 < c.btnThreshold) : EdgeSane (resetState c) where
  encoder := nofun
  buttonCount := List.length_map _
  buttons b hb := by
    obtain ⟨p, -, rfl⟩ := List.mem_map.mp hb
    exact resetButton_sane hthr p

theorem pipelineSane_resetState (c : Config) : PipelineSane (resetState c) where
  arrays := by simp [resetState]
  sequencer := rfl
  latched h := absurd rfl h
  samples i v h := by simpa using (readElem_emptied c.n i).symm.trans h
  sampledSoFar := nofun
  sampled := nofun
  analyzed := nofun

theorem sane_resetState {c : Config} (hc : configProblem c = none) : Sane (resetState c) := by
  obtain ⟨-, hthr, -, halarm, -⟩ := valid_config hc
  have hfirst := pattern_starts hc (Nat.zero_lt_of_lt halarm)
  exact (sane_iff _).mpr
    ⟨hc, rfl, toneSane_resetState hfirst, edgeSane_resetState hthr, pipelineSane_resetState c⟩

/-- Settles O16: `resetState` is sane, and so with any trace. -/
theorem constructionIsSane : Obligations.ConstructionIsSane := by
  intro c s trace h
  obtain ⟨hc, rfl⟩ := (construct_next c s).mp h
  exact Sane.withInput (sane_resetState hc) trace

/-! ### The part a stimulus writes -/

/-- The three parts of the state that carry invariants over more than one element. -/
inductive StatePart where
  | tone
  | edge
  | pipeline

/-- The part in which a stimulus can write; the last five write outside the three, or nothing but an event. -/
def partOf : Instr → Option StatePart
  | .setMode _ | .beginTestTone _ | .endTestTone | .alarmSet _ | .patTick | .freqTick => some .tone
  | .onPress _ _ | .encEdge _ _ | .btnEdge _ _ | .btnTick _ _ => some .edge
  | .pipeBegin | .pipeSample _ | .pipeAnalyze | .pipeLed _ => some .pipeline
  | .getMode | .alarmSounding | .setConstantColor _ _ _ | .onRotateCw _ | .onRotateCcw _ => none

theorem exec_cfg {i : Instr} {s t : State} (h : exec i s = .next t) : t.cfg = s.cfg :=
  (onlyListedStimuliWrite i s t h).1

theorem exec_tone_frame {i : Instr} {s t : State} (hi : partOf i ≠ some .tone) (h : exec i s = .next t) :
    t.modeSel = s.modeSel ∧ t.ledDrvEn = s.ledDrvEn ∧ tonePart t = tonePart s := by
  obtain ⟨-, -, hmode, -, hdriver, halarm, hsaved, hsel, hpos, hfreq, hduty, -⟩ := onlyListedStimuliWrite i s t h
  cases i <;> simp_all [partOf, tonePart]

theorem exec_pipeline_frame {i : Instr} {s t : State} (hi : partOf i ≠ some .pipeline) (h : exec i s = .next t) :
    pipelinePart t = pipelinePart s := by
  obtain ⟨-, -, -, -, -, -, -, -, -, -, -, -, -, -, -, -, -, hseq, hmode, hx, -, hspec⟩ :=
    onlyListedStimuliWrite i s t h
  cases i <;> simp_all [partOf, pipelinePart]

theorem exec_encState_frame {i : Instr} {s t : State} (hi : partOf i ≠ some .edge) (h : exec i s = .next t) :
    t.encState = s.encState := by
  obtain ⟨-, -, -, -, -, -, -, -, -, -, -, henc, -⟩ := onlyListedStimuliWrite i s t h
  cases i <;> simp_all [partOf]

/-- The whole list of buttons, beyond the sixteen that a stimulus can name. -/
theorem exec_buttons_frame {i : Instr} {s t : State} (hi : partOf i ≠ some .edge) (h : exec i s = .next t) :
    t.buttons = s.buttons := by
  cases i with
  | setMode m => cases h; rfl
  | getMode => cases h; rfl
  | setConstantColor r g b => cases h; rfl
  | alarmSounding => cases h; rfl
  | onRotateCw f => cases h; rfl
  | onRotateCcw f => cases h; rfl
  | beginTestTone p => obtain ⟨-, -, rfl⟩ := (execBeginTestTone_next p s t).mp h; rfl
  | endTestTone => obtain ⟨-, rfl⟩ | ⟨-, rfl⟩ := (execEndTestTone_next s t).mp h <;> rfl
  | alarmSet a =>
    obtain ⟨-, -, rfl⟩ | ⟨-, -, rfl⟩ | ⟨-, -, rfl⟩ | ⟨-, -, rfl⟩ := (execAlarmSet_next a s t).mp h <;> rfl
  | patTick => obtain ⟨-, p, e, -, -, rfl⟩ := (execPatTick_next s t).mp h; exact applyEntry_buttons e s
  | freqTick => obtain ⟨-, rfl⟩ := (execFreqTick_next s t).mp h; rfl
  | pipeBegin => obtain ⟨-, ⟨-, rfl⟩ | ⟨-, rfl⟩ | ⟨-, rfl⟩⟩ := (execPipeBegin_next s t).mp h <;> rfl
  | pipeSample v => obtain ⟨-, -, -, rfl⟩ := (execPipeSample_next v s t).mp h; exact afterSample_buttons _ _ _
  | pipeAnalyze => obtain ⟨-, xs, -, rfl⟩ := (execPipeAnalyze_next s t).mp h; rfl
  | pipeLed slow =>
    obtain ⟨-, ⟨-, band, -, rfl⟩ | ⟨-, -, c, -, rfl⟩⟩ := (execPipeLed_next slow s t).mp h <;> simp [renderUnit]
  | onPress u f => exact absurd rfl hi
  | encEdge clk dir => exact absurd rfl hi
  | btnEdge u level => exact absurd rfl hi
  | btnTick u level => exact absurd rfl hi

/-! ### The tone part -/

theorem ToneSane.congr {s t : State} (h : ToneSane s) (hcfg : t.cfg = s.cfg) (hmode : t.modeSel = s.modeSel)
    (hdriver : t.ledDrvEn = s.ledDrvEn) (htone : tonePart t = tonePart s) : ToneSane t := by
  obtain ⟨⟩ := s
  obtain ⟨⟩ := t
  simp only [tonePart, TonePart.mk.injEq] at hcfg hmode hdriver htone
  obtain ⟨rfl, rfl, rfl, rfl, rfl, rfl, rfl, rfl, rfl, rfl, rfl, rfl⟩ := htone
  subst hcfg hmode hdriver
  exact { h with }

/-- R222, R223: the driver follows a new selection, and nothing else of the part changes. -/
theorem ToneSane.setMode {s : State} (h : ToneSane s) (m : Mode) : ToneSane (applyEffMode { s with modeSel := m }) :=
  { h with driver := driverLevel_iff _ }

/-- R244: entering SOUNDING, at the first entry of a pattern. -/
theorem toneSane_enterSounding {s : State} {p : Nat} (halarm : s.alarmState = .sounding)
    (hpat : ∃ pattern, s.cfg.patterns[p]? = some pattern ∧ 0 < pattern.length)
    (hsaved : s.testActive = true → s.alarmSaved ≠ .sounding) : ToneSane (enterSounding p s) := by
  have hsound : s.sounding = true := (sounding_iff s).mpr halarm
  exact {
    driver := driverLevel_iff _
    tone := ⟨hsound.symm, hsound.symm, hsound.symm⟩
    freqRuns := nofun
    freqStopped := fun _ => ⟨rfl, rfl⟩
    test := fun _ => halarm
    pattern := hpat
    frequency := nofun
    duty := .inr rfl
    saved := hsaved }

/-- R245: leaving SOUNDING, with the test tone ended. -/
theorem toneSane_leaveSounding {s : State} (halarm : s.alarmState ≠ .sounding) (htest : s.testActive = false)
    (hpat : ∃ p, s.cfg.patterns[s.patSel]? = some p ∧ s.patPos < p.length) : ToneSane (leaveSounding s) := by
  have hsound : s.sounding = false := by simpa [State.sounding] using halarm
  have hnot : s.testActive ≠ true := by simp [htest]
  exact {
    driver := driverLevel_iff _
    tone := ⟨hsound.symm, hsound.symm, hsound.symm⟩
    freqRuns := nofun
    freqStopped := fun _ => ⟨rfl, rfl⟩
    test := fun ht => absurd ht hnot
    pattern := hpat
    frequency := nofun
    duty := .inr rfl
    saved := fun ht => absurd ht hnot }

/-- R249: a change between two states that are not SOUNDING. -/
theorem ToneSane.setAlarm {s : State} (h : ToneSane s) {a : AlarmState} (hs : s.alarmState ≠ .sounding)
    (ha : a ≠ .sounding) : ToneSane { s with alarmState := a } := by
  have hsound : State.sounding { s with alarmState := a } = s.sounding := by simp [State.sounding, hs, ha]
  have hmode : effMode { s with alarmState := a } = effMode s := by rw [effMode, hsound]; rfl
  exact { h with
    driver := by rw [hmode]; exact h.driver
    tone := by rw [hsound]; exact h.tone
    freqRuns := fun hf => absurd (h.freqRuns hf).1 hs
    test := fun ht => absurd (h.test ht) hs }

/-- R250: an entry of the pattern that plays; a frequency entry is positive (R10). -/
theorem ToneSane.playEntry {s : State} (h : ToneSane s) (halarm : s.alarmState = .sounding) {e : PatEntry}
    (he : ∀ hz, e = .freq hz → 0 < hz) : ToneSane (applyEntry e s) := by
  cases e with
  | freq hz =>
    exact { h with
      freqRuns := fun _ => ⟨halarm, nofun⟩
      freqStopped := nofun
      frequency := fun _ hf => he _ (congrArg _ (Option.some.inj hf)) }
  | hold => exact h
  | silence =>
    exact { h with
      freqRuns := nofun
      freqStopped := fun _ => ⟨rfl, rfl⟩
      frequency := nofun
      duty := .inr rfl }

/-- R252: a half-period of a tone that plays. -/
theorem ToneSane.freqTick {s : State} (h : ToneSane s) (hrun : s.freqTimerRun = true) :
    ToneSane { s with tonePhase := !s.tonePhase, pwmDuty := dutyOf s.cfg (!s.tonePhase) } :=
  { h with
    freqStopped := fun hf => absurd (hrun.symm.trans hf) nofun
    duty := by cases s.tonePhase <;> simp [dutyOf] }

theorem exec_keeps_toneSane {i : Instr} {s t : State} (hc : configProblem s.cfg = none) (hs : ToneSane s)
    (h : exec i s = .next t) : ToneSane t := by
  obtain ⟨-, -, hpat, halarm, -⟩ := valid_config hc
  cases i with
  | setMode m => obtain rfl := (next_eq_next _ t).mp h; exact hs.setMode m
  | beginTestTone p =>
    obtain ⟨hp, hsound, rfl⟩ := (execBeginTestTone_next p s t).mp h
    refine toneSane_enterSounding rfl (pattern_starts hc hp) fun _ ha => ?_
    exact Bool.false_ne_true (hsound.symm.trans ((sounding_iff s).mpr ha))
  | endTestTone =>
    obtain ⟨ht, rfl⟩ | ⟨-, rfl⟩ := (execEndTestTone_next s t).mp h
    · exact toneSane_leaveSounding (hs.saved ht) rfl hs.pattern
    · exact hs
  | alarmSet a =>
    obtain ⟨ha, -, rfl⟩ | ⟨-, ha, rfl⟩ | ⟨ha, ha', rfl⟩ | ⟨-, -, rfl⟩ := (execAlarmSet_next a s t).mp h
    · exact toneSane_enterSounding rfl (pattern_starts hc halarm) hs.saved
    · exact toneSane_leaveSounding ha rfl hs.pattern
    · exact hs.setAlarm ha ha'
    · exact hs
  | patTick =>
    obtain ⟨hrun, p, e, hp, he, rfl⟩ := (execPatTick_next s t).mp h
    have hsound := (sounding_iff s).mp (hs.tone.1.symm.trans hrun)
    obtain ⟨hlen, hfreq⟩ := hpat p (List.mem_of_getElem? hp)
    have hentry := hs.playEntry hsound fun hz heq => hfreq hz (heq ▸ List.mem_of_getElem? he)
    exact { hentry with pattern := ⟨p, by simpa using hp, Nat.mod_lt _ hlen⟩ }
  | freqTick =>
    obtain ⟨hrun, rfl⟩ := (execFreqTick_next s t).mp h
    exact hs.freqTick hrun
  | _ =>
    obtain ⟨hmode, hdriver, htone⟩ := exec_tone_frame (by simp [partOf]) h
    exact hs.congr (exec_cfg h) hmode hdriver htone

/-! ### The edge part -/

theorem EdgeSane.congr {s t : State} (h : EdgeSane s) (hcfg : t.cfg = s.cfg) (henc : t.encState = s.encState)
    (hbtn : t.buttons = s.buttons) : EdgeSane t :=
  ⟨henc ▸ h.encoder, by rw [hbtn, hcfg]; exact h.buttonCount, by rw [hbtn, hcfg]; exact h.buttons⟩

theorem EdgeSane.setButton {s : State} (h : EdgeSane s) (u : BitVec 4) {b : Button}
    (hb : ButtonSane s.cfg.btnThreshold b) : EdgeSane (setButton u b s) where
  encoder := h.encoder
  buttonCount := List.length_set.trans h.buttonCount
  buttons b' hb' := (List.mem_or_eq_of_mem_set hb').elim (h.buttons b') fun he => he ▸ hb

/-- R133, R134: a table of named positions leads to named positions. -/
theorem encNext_ne_reserved {q : List QEntry} (hq : ∀ e ∈ q, e.next ≠ .reserved) (e : EncState) (pp : Fin 4) :
    encNext q e pp ≠ .reserved := by
  induction q with
  | nil => exact nofun
  | cons entry rest ih =>
    obtain ⟨hentry, hrest⟩ := List.forall_mem_cons.mp hq
    unfold encNext qLookup
    split_ifs
    · exact hentry
    · exact ih hrest

/-- R146: a button settled in a steady position. -/
theorem settleButton_sane {n : Nat} (hn : 0 < n) {steady : BtnState} (h : steady = .holdUp ∨ steady = .holdDown)
    (b : Button) : ButtonSane n (settleButton steady b) := by
  obtain rfl | rfl := h <;> exact ⟨by simp [settleButton], by simp [settleButton], hn⟩

/-- R145: a button that starts a candidate transition. -/
theorem startCandidate_sane {n : Nat} (hn : 0 < n) {next : BtnState} (h : next = .falling ∨ next = .rising)
    (b : Button) : ButtonSane n (startCandidate next b) := by
  obtain rfl | rfl := h <;> exact ⟨by simp [startCandidate], by simp [startCandidate], hn⟩

theorem ButtonSane.edge {n : Nat} {b : Button} (h : ButtonSane n b) (level : Bool) :
    ButtonSane n (edgeButton level b) := by
  have hn := Nat.zero_lt_of_lt h.count
  unfold edgeButton
  split
  · exact startCandidate_sane hn (.inl rfl) b
  · exact startCandidate_sane hn (.inr rfl) b
  all_goals exact h

theorem backState_steady (b : Button) : backState b = .holdUp ∨ backState b = .holdDown := by
  unfold backState
  split_ifs <;> simp

theorem fwdState_steady (b : Button) : fwdState b = .holdUp ∨ fwdState b = .holdDown := by
  unfold fwdState
  split_ifs <;> simp

/-- R146, R147 (a): the count stays below the threshold, for the tick that would reach it accepts. -/
theorem ButtonSane.tick {n : Nat} {b : Button} (h : ButtonSane n b) (level : Bool) :
    ButtonSane n (tickButton n level b) := by
  have hn := Nat.zero_lt_of_lt h.count
  unfold tickButton
  split_ifs with hlevel haccept
  · exact settleButton_sane hn (backState_steady b) b
  · exact settleButton_sane hn (fwdState_steady b) b
  · have hne : b.count + 1 ≠ n := by simpa [tickAccepts, hlevel] using haccept
    exact { h with count := Nat.lt_of_le_of_ne h.count hne }

theorem exec_keeps_edgeSane {i : Instr} {s t : State} (hc : configProblem s.cfg = none) (hs : EdgeSane s)
    (h : exec i s = .next t) : EdgeSane t := by
  obtain ⟨hq, -⟩ := valid_config hc
  cases i with
  | encEdge clk dir =>
    obtain rfl := (next_eq_next _ t).mp h
    exact ⟨by simpa using encNext_ne_reserved hq _ _, by simpa using hs.buttonCount, by simpa using hs.buttons⟩
  | onPress u f =>
    obtain ⟨-, b, hb, rfl⟩ := (execOnPress_next u f s t).mp h
    have hbtn := hs.buttons b (List.mem_of_getElem? hb)
    exact hs.setButton u { hbtn with }
  | btnEdge u level =>
    obtain ⟨-, b, hb, -, rfl⟩ := (execBtnEdge_next u level s t).mp h
    exact hs.setButton u ((hs.buttons b (List.mem_of_getElem? hb)).edge level)
  | btnTick u level =>
    obtain ⟨-, b, hb, -, rfl⟩ := (execBtnTick_next u level s t).mp h
    have hbtn := (hs.buttons b (List.mem_of_getElem? hb)).tick level
    exact (hs.congr (fireIf_cfg ..) (fireIf_encState ..) (fireIf_buttons ..)).setButton u (by simpa using hbtn)
  | _ =>
    have henc := exec_encState_frame (by simp [partOf]) h
    exact hs.congr (exec_cfg h) henc (exec_buttons_frame (by simp [partOf]) h)

/-! ### The pipeline part -/

theorem PipelineSane.congr {s t : State} (h : PipelineSane s) (hcfg : t.cfg = s.cfg)
    (hpipe : pipelinePart t = pipelinePart s) : PipelineSane t := by
  obtain ⟨⟩ := s
  obtain ⟨⟩ := t
  simp only [pipelinePart, PipelinePart.mk.injEq] at hcfg hpipe
  obtain ⟨rfl, rfl, rfl, rfl, rfl, rfl, rfl, rfl⟩ := hpipe
  subst hcfg
  exact { h with }

/-- R171: a SPECTRUM iteration begins, with its first sample to come. -/
theorem PipelineSane.beginSpectrum {s : State} (h : PipelineSane s) (hn : 0 < s.cfg.n) :
    PipelineSane (setSeq .sampling 0 { s with pipeMode := some .spectrum }) :=
  { h with
    sequencer := hn
    latched := fun _ => rfl
    sampledSoFar := fun _ i hi => absurd hi (Nat.not_lt_zero i)
    sampled := nofun
    analyzed := nofun }

/-- R171: a CONSTANT iteration begins, with its first light unit. -/
theorem PipelineSane.beginConstant {s : State} (h : PipelineSane s) (hleds : 0 < s.cfg.numLeds) :
    PipelineSane (setSeq .render 0 { s with pipeMode := some .constant }) :=
  { h with
    sequencer := hleds
    latched := fun _ => rfl
    sampledSoFar := nofun
    sampled := nofun
    analyzed := fun _ => nofun }

/-- R173: a sample is written, and the sequencer goes to the next one or, after the last, to ANALYZE. -/
theorem PipelineSane.sample {s : State} (h : PipelineSane s) (hphase : s.pipePhase = .sampling) {v : Nat}
    (hv : v ≤ s.cfg.adcMax) :
    PipelineSane (afterSample s.cfg.n s.pipeIdx { s with x := s.x.set s.pipeIdx (some v) }) := by
  have hidx : s.pipeIdx < s.cfg.n := by simpa [seqInRange, hphase] using h.sequencer
  have hread := fun j => readElem_set s.x s.pipeIdx j v (h.arrays.1.symm ▸ hidx)
  have harrays : (s.x.set s.pipeIdx (some v)).length = s.cfg.n := List.length_set.trans h.arrays.1
  have hsamples : ∀ j w, readElem (s.x.set s.pipeIdx (some v)) j = some w → w ≤ s.cfg.adcMax := by
    intro j w hw
    rw [hread] at hw
    split_ifs at hw with hj
    · exact Option.some.inj hw ▸ hv
    · exact h.samples j w hw
  have hfilled : ∀ j < s.pipeIdx + 1, (readElem (s.x.set s.pipeIdx (some v)) j).isSome = true := by
    intro j hj
    rw [hread]
    split_ifs with hne
    · rfl
    · exact h.sampledSoFar hphase j (by omega)
  have hlatched := h.latched (by rw [hphase]; exact nofun)
  unfold afterSample
  split_ifs with hlast
  · exact { h with
      arrays := ⟨harrays, h.arrays.2⟩
      sequencer := rfl
      latched := fun _ => hlatched
      samples := hsamples
      sampledSoFar := nofun
      sampled := fun _ j hj => hfilled j (hlast ▸ hj)
      analyzed := nofun }
  · exact { h with
      arrays := ⟨harrays, h.arrays.2⟩
      sequencer := Nat.lt_of_le_of_ne hidx hlast
      latched := fun _ => hlatched
      samples := hsamples
      sampledSoFar := fun _ => hfilled
      sampled := nofun
      analyzed := nofun }

/-- The four arrays of the transform have a value for every bin. -/
theorem analyze_lengths (c : Config) (xs : List Nat) :
    (analyze c xs).re.length = c.n ∧ (analyze c xs).im.length = c.n ∧ (analyze c xs).mag.length = c.n ∧
      (analyze c xs).ph.length = c.n := by
  simp [analyze]

/-- R176: the transform fills `mag` and `ph` and empties `x`. -/
theorem PipelineSane.analyze {s : State} (h : PipelineSane s) (hphase : s.pipePhase = .analyze)
    (hleds : 0 < s.cfg.numLeds) (xs : List Nat) :
    PipelineSane (setSeq .render 0 (storeSpectrum (analyze s.cfg xs) s)) := by
  obtain ⟨hre, him, hmag, hph⟩ := analyze_lengths s.cfg xs
  exact {
    arrays := by simp [hre, him, hmag, hph]
    sequencer := hleds
    latched := fun _ => h.latched (by rw [hphase]; exact nofun)
    samples := by simp
    sampledSoFar := nofun
    sampled := nofun
    analyzed := fun _ _ k hk => by simp [hmag, hph, show k < s.cfg.n from hk] }

/-- R210: the sequencer goes to the next light unit or, after the last, to IDLE. -/
theorem PipelineSane.ledDone {s : State} (h : PipelineSane s) (hphase : s.pipePhase = .render) :
    PipelineSane (afterLed s.cfg.numLeds s.pipeIdx s) := by
  have hidx : s.pipeIdx < s.cfg.numLeds := by simpa [seqInRange, hphase] using h.sequencer
  unfold afterLed
  split_ifs with hlast
  · exact { h with
      sequencer := rfl
      latched := fun hne => absurd rfl hne
      sampledSoFar := nofun
      sampled := nofun
      analyzed := nofun }
  · exact { h with
      sequencer := Nat.lt_of_le_of_ne hidx hlast
      latched := fun _ => h.latched (by rw [hphase]; exact nofun)
      sampledSoFar := nofun
      sampled := nofun
      analyzed := fun _ => h.analyzed hphase }

theorem PipelineSane.emitted {s : State} (h : PipelineSane s) (b : Bool) (e : Event) : PipelineSane (emitIf b e s) :=
  h.congr (emitIf_cfg b e s) (by simp [pipelinePart])

theorem PipelineSane.led {s : State} (h : PipelineSane s) (hphase : s.pipePhase = .render) (color : LedColor)
    (slow : Bool) : PipelineSane (renderUnit color slow s) := by
  have := ((h.emitted s.ledDrvEn (.ledWrite s.pipeIdx color)).emitted slow .yieldSleep).ledDone (by simpa using hphase)
  simpa [renderUnit] using this

theorem exec_keeps_pipelineSane {i : Instr} {s t : State} (hc : configProblem s.cfg = none) (hs : PipelineSane s)
    (h : exec i s = .next t) : PipelineSane t := by
  obtain ⟨-, -, hleds, -⟩ := (Scope.configProblem_none_iff s.cfg).mp hc
  cases i with
  | pipeBegin =>
    obtain ⟨-, ⟨-, rfl⟩ | ⟨-, rfl⟩ | ⟨-, rfl⟩⟩ := (execPipeBegin_next s t).mp h
    · exact hs.beginSpectrum (configProblem_none_pos s.cfg hc)
    · exact hs.beginConstant hleds
    · exact hs
  | pipeSample v =>
    obtain ⟨hv, hphase, -, rfl⟩ := (execPipeSample_next v s t).mp h
    exact hs.sample hphase hv
  | pipeAnalyze =>
    obtain ⟨hphase, xs, -, rfl⟩ := (execPipeAnalyze_next s t).mp h
    exact hs.analyze hphase hleds xs
  | pipeLed slow =>
    obtain ⟨hphase, ⟨-, band, -, rfl⟩ | ⟨-, -, c, -, rfl⟩⟩ := (execPipeLed_next slow s t).mp h <;>
      exact hs.led hphase _ slow
  | _ => exact hs.congr (exec_cfg h) (exec_pipeline_frame (by simp [partOf]) h)

/-! ### Every step, every reachable state (R51) -/

/-- R22: only SET_CONSTANT_COLOR writes the colour, and it leaves one. -/
theorem exec_keeps_colour {i : Instr} {s t : State} (hs : s.constValid = s.constColor.isSome)
    (h : exec i s = .next t) : t.constValid = t.constColor.isSome := by
  obtain ⟨-, -, -, hcol, -⟩ := onlyListedStimuliWrite i s t h
  cases i with
  | setConstantColor r g b => obtain rfl := (next_eq_next _ t).mp h; rfl
  | _ => simp_all

theorem exec_keeps_sane {i : Instr} {s t : State} (hs : Sane s) (h : exec i s = .next t) : Sane t := by
  obtain ⟨hc, hcol, htone, hedge, hpipe⟩ := (sane_iff s).mp hs
  exact (sane_iff t).mpr ⟨exec_cfg h ▸ hc, exec_keeps_colour hcol h, exec_keeps_toneSane hc htone h,
    exec_keeps_edgeSane hc hedge h, exec_keeps_pipelineSane hc hpipe h⟩

/-- Settles O17: a step takes a word from the trace, of which no invariant speaks, and applies its stimulus. -/
theorem stepKeepsSane : Obligations.StepKeepsSane := by
  intro s t hs h
  obtain ⟨-, w, rest, i, -, -, hexec⟩ := (step_next s t).mp h
  exact exec_keeps_sane (Sane.withInput hs rest) hexec

theorem Reachable.sane {c : Config} {s : State} (h : Reachable c s) : Sane s := by
  induction h with
  | start s trace hs => exact constructionIsSane c s trace hs
  | step s t _ hstep ih => exact stepKeepsSane s t ih hstep

/-- Settles O18: a reachable state is sane. -/
theorem reachableInvariants : Obligations.ReachableInvariants := fun _ _ h => (Reachable.sane h).invariants

end Sys2Proof.StateRules

/-! Memory and ordering (spec/20_memory.md): a block of samples fills `x` in index order (R77), the transform
commutes with every stimulus that is no pipeline step (R84), and the mode is read only where an iteration begins
(R89). -/

namespace Sys2Proof.MemoryRules

open Sys2Proof.Machine

/-! ### Runs of stimuli -/

/-- A run completes where its first stimulus does and the others complete from the state it answers. -/
theorem runInstrs_cons_next (i : Instr) (rest : List Instr) (s t : State) :
    runInstrs (i :: rest) s = .next t ↔ ∃ u, exec i s = .next u ∧ runInstrs rest u = .next t := by
  rw [runInstrs]
  cases exec i s <;> simp

theorem runInstrs_pair_next (i j : Instr) (s t : State) :
    runInstrs [i, j] s = .next t ↔ ∃ u, exec i s = .next u ∧ exec j u = .next t := by
  rw [runInstrs_cons_next]
  refine exists_congr fun u => and_congr_right fun _ => ?_
  rw [runInstrs]
  cases exec j u <;> simp [runInstrs]

/-! ### A block of samples (R77, R173) -/

/-- Up to and with index `k`: the elements before it, then the one written there. -/
theorem take_succ_set {α : Type} {l : List α} {k : Nat} (h : k < l.length) (v : α) :
    (l.set k v).take (k + 1) = l.take k ++ [v] := by
  rw [List.take_succ_eq_append_getElem (by simpa using h), List.getElem_set_self, List.take_set_of_le le_rfl]

theorem afterSample_setSeq (n i : Nat) (phase : PipePhase) (k : Nat) (s : State) :
    afterSample n i (setSeq phase k s) = afterSample n i s := by
  unfold afterSample
  split <;> rfl

/-- R173: sample `k`, whatever the array holds. -/
theorem exec_pipeSample {v : BitVec 16} {s : State} {k : Nat} {xs : List (Option Nat)}
    (hv : v.toNat ≤ s.cfg.adcMax) (hk : k < xs.length) :
    exec (.pipeSample v) (setSeq .sampling k { s with x := xs }) =
      .next (afterSample s.cfg.n k { s with x := xs.set k (some v.toNat) }) :=
  (execPipeSample_next v _ _).mpr ⟨hv, rfl, hk, (afterSample_setSeq ..).symm⟩

/-- The rest of a block, from any index: the elements before the index stay, the samples follow them. -/
theorem runInstrs_sampleBlock {v : BitVec 16} {vs : List (BitVec 16)} {s : State} {k : Nat} {xs : List (Option Nat)}
    (hx : xs.length = s.cfg.n) (hlen : k + vs.length + 1 = s.cfg.n) (hrange : ∀ w ∈ v :: vs, w.toNat ≤ s.cfg.adcMax) :
    runInstrs (sampleBlock (v :: vs)) (setSeq .sampling k { s with x := xs }) =
      .next (setSeq .analyze 0 { s with x := xs.take k ++ (v :: vs).map fun w => some w.toNat }) := by
  have hk : k < xs.length := by omega
  have htake := take_succ_set hk (some v.toNat)
  have hlength : (xs.set k (some v.toNat)).length = s.cfg.n := List.length_set.trans hx
  obtain ⟨hv, hvs⟩ := List.forall_mem_cons.mp hrange
  refine (runInstrs_cons_next _ _ _ _).mpr ⟨_, exec_pipeSample hv hk, ?_⟩
  cases vs with
  | nil =>
    have hlast : k + 1 = s.cfg.n := hlen
    rw [afterSample, if_pos hlast, List.map_singleton, ← htake, hlast, ← hlength, List.take_length]
    rfl
  | cons w ws =>
    rw [List.length_cons] at hlen
    have hmore := runInstrs_sampleBlock hlength (by omega : k + 1 + ws.length + 1 = s.cfg.n) hvs
    rw [htake, List.append_assoc] at hmore
    rw [afterSample, if_neg (by omega)]
    exact hmore

/-- Settles O54: a valid configuration has at least one sample, and no element stands before index 0. -/
theorem sampleBlockFillsX : Obligations.SampleBlockFillsX := by
  intro s vs hs hphase hidx hlen hrange
  obtain ⟨hc, -, -, -, hpipe⟩ := (StateRules.sane_iff s).mp hs
  have hstart : setSeq .sampling 0 { s with x := s.x } = s := by rw [← hphase, ← hidx]; rfl
  cases vs with
  | nil => exact absurd hlen (configProblem_none_pos s.cfg hc).ne
  | cons v vs =>
    have hblock := runInstrs_sampleBlock (k := 0) hpipe.arrays.1 (by simpa using hlen) hrange
    rwa [hstart] at hblock

/-! ### The transform and the other stimuli (R84) -/

theorem partOf_eq_pipeline_iff (i : Instr) :
    StateRules.partOf i = some .pipeline ↔ StimulusClass.ofOpcode i.opcode = some .pipeline := by
  cases i <;> simp [StateRules.partOf, Instr.opcode, StimulusClass.ofOpcode]

/-- The state with another pipeline part (R41 to R45). -/
def withPipeline (p : PipelinePart) (s : State) : State :=
  { s with
    pipePhase := p.pipePhase
    pipeIdx := p.pipeIdx
    pipeMode := p.pipeMode
    x := p.x
    re := p.re
    im := p.im
    mag := p.mag
    ph := p.ph }

/-- Equal pipeline parts can be put back for each other. -/
theorem withPipeline_of_eq {p : PipelinePart} {s : State} (h : pipelinePart s = p) : withPipeline p s = s := by
  subst h
  rfl

theorem fireIf_withPipeline (p : PipelinePart) (b : Bool) (cb : Option Handle) (k : Handle → Event) (s : State) :
    fireIf b cb k (withPipeline p s) = withPipeline p (fireIf b cb k s) := by
  cases cb <;> cases b <;> rfl

theorem applyEntry_withPipeline (p : PipelinePart) (e : PatEntry) (s : State) :
    applyEntry e (withPipeline p s) = withPipeline p (applyEntry e s) := by
  cases e <;> rfl

/-- A stimulus that is no pipeline step neither reads nor writes the pipeline part. -/
theorem exec_withPipeline (p : PipelinePart) {i : Instr} {s t : State} (hi : StateRules.partOf i ≠ some .pipeline)
    (h : exec i s = .next t) : exec i (withPipeline p s) = .next (withPipeline p t) := by
  cases i with
  | setMode m => cases h; rfl
  | getMode => cases h; rfl
  | setConstantColor r g b => cases h; rfl
  | alarmSounding => cases h; rfl
  | onRotateCw f => cases h; rfl
  | onRotateCcw f => cases h; rfl
  | beginTestTone k =>
    obtain ⟨hk, hsound, rfl⟩ := (execBeginTestTone_next k s t).mp h
    exact (execBeginTestTone_next k _ _).mpr ⟨hk, hsound, rfl⟩
  | endTestTone =>
    refine (execEndTestTone_next _ _).mpr (((execEndTestTone_next s t).mp h).imp ?_ ?_) <;>
      exact And.imp_right (congrArg (withPipeline p))
  | alarmSet a =>
    refine (execAlarmSet_next a _ _).mpr (((execAlarmSet_next a s t).mp h).imp ?_ (Or.imp ?_ (Or.imp ?_ ?_))) <;>
      exact And.imp_right (And.imp_right (congrArg (withPipeline p)))
  | onPress u f =>
    obtain ⟨hu, b, hb, rfl⟩ := (execOnPress_next u f s t).mp h
    exact (execOnPress_next u f _ _).mpr ⟨hu, b, hb, rfl⟩
  | encEdge clk dir =>
    obtain rfl := (next_eq_next _ t).mp h
    simp only [exec, execEncEdge, fireIf_withPipeline]
    rfl
  | btnEdge u level =>
    obtain ⟨hu, b, hb, hirq, rfl⟩ := (execBtnEdge_next u level s t).mp h
    exact (execBtnEdge_next u level _ _).mpr ⟨hu, b, hb, hirq, rfl⟩
  | btnTick u level =>
    obtain ⟨hu, b, hb, hrun, rfl⟩ := (execBtnTick_next u level s t).mp h
    refine (execBtnTick_next u level _ _).mpr ⟨hu, b, hb, hrun, ?_⟩
    rw [fireIf_withPipeline]
    rfl
  | patTick =>
    obtain ⟨hrun, pattern, e, hp, he, rfl⟩ := (execPatTick_next s t).mp h
    refine (execPatTick_next _ _).mpr ⟨hrun, pattern, e, hp, he, ?_⟩
    rw [applyEntry_withPipeline]
    rfl
  | freqTick =>
    obtain ⟨hrun, rfl⟩ := (execFreqTick_next s t).mp h
    exact (execFreqTick_next _ _).mpr ⟨hrun, rfl⟩
  | pipeBegin => exact absurd rfl hi
  | pipeSample v => exact absurd rfl hi
  | pipeAnalyze => exact absurd rfl hi
  | pipeLed slow => exact absurd rfl hi

/-- PIPE_ANALYZE writes the pipeline part alone, as a function of it and of the configuration. -/
theorem exec_pipeAnalyze_congr {s t u : State} (hcfg : u.cfg = s.cfg) (hpipe : pipelinePart u = pipelinePart s)
    (h : exec .pipeAnalyze s = .next t) : exec .pipeAnalyze u = .next (withPipeline (pipelinePart t) u) := by
  obtain ⟨hphase, xs, hxs, rfl⟩ := (execPipeAnalyze_next s t).mp h
  obtain ⟨⟩ := s
  obtain ⟨⟩ := u
  simp only [pipelinePart, PipelinePart.mk.injEq] at hcfg hpipe
  obtain ⟨rfl, rfl, rfl, rfl, rfl, rfl, rfl, rfl⟩ := hpipe
  subst hcfg
  exact (execPipeAnalyze_next _ _).mpr ⟨hphase, xs, hxs, rfl⟩

theorem withPipeline_of_exec_pipeAnalyze {s t : State} (h : exec .pipeAnalyze s = .next t) :
    withPipeline (pipelinePart s) t = s := by
  obtain ⟨-, xs, -, rfl⟩ := (execPipeAnalyze_next s t).mp h
  rfl

/-- Settles O59: the two stimuli read and write apart, so either one can be put before the other. -/
theorem analyzeCommutesWithEvents : Obligations.AnalyzeCommutesWithEvents := by
  intro i s t hclass
  have hi : StateRules.partOf i ≠ some .pipeline := fun h => hclass ((partOf_eq_pipeline_iff i).mp h)
  rw [runInstrs_pair_next, runInstrs_pair_next]
  constructor
  · rintro ⟨u, hanalyze, hexec⟩
    have hcfg := (StateRules.exec_cfg hexec).trans (StateRules.exec_cfg hanalyze)
    have hpipe := StateRules.exec_pipeline_frame hi hexec
    have hfirst := exec_withPipeline (pipelinePart s) hi hexec
    have hsecond := exec_pipeAnalyze_congr (u := withPipeline (pipelinePart s) t) hcfg rfl hanalyze
    rw [withPipeline_of_exec_pipeAnalyze hanalyze] at hfirst
    exact ⟨_, hfirst, hsecond.trans (congrArg _ (withPipeline_of_eq hpipe))⟩
  · rintro ⟨u, hexec, hanalyze⟩
    have hcfg := StateRules.exec_cfg hexec
    have hpipe := StateRules.exec_pipeline_frame hi hexec
    have hu := exec_pipeAnalyze_congr rfl rfl hanalyze
    refine ⟨_, exec_pipeAnalyze_congr hcfg.symm hpipe.symm hanalyze, ?_⟩
    rw [exec_withPipeline _ hi hexec, ← hu, hanalyze]

/-! ### Where the mode is read (R89, R171) -/

/-- The state with another stored selection and another alarm state. -/
def withMode (m : Mode) (a : AlarmState) (s : State) : State := { s with modeSel := m, alarmState := a }

theorem emitIf_withMode (m : Mode) (a : AlarmState) (b : Bool) (e : Event) (s : State) :
    emitIf b e (withMode m a s) = withMode m a (emitIf b e s) := by
  cases b <;> rfl

theorem afterSample_withMode (m : Mode) (a : AlarmState) (n i : Nat) (s : State) :
    afterSample n i (withMode m a s) = withMode m a (afterSample n i s) := by
  unfold afterSample
  split <;> rfl

theorem afterLed_withMode (m : Mode) (a : AlarmState) (n i : Nat) (s : State) :
    afterLed n i (withMode m a s) = withMode m a (afterLed n i s) := by
  unfold afterLed
  split <;> rfl

theorem renderUnit_withMode (m : Mode) (a : AlarmState) (color : LedColor) (slow : Bool) (s : State) :
    renderUnit color slow (withMode m a s) = withMode m a (renderUnit color slow s) := by
  simp only [renderUnit, emitIf_withMode, ← afterLed_withMode]
  rfl

/-- Settles O60: the three stimuli, each by what it answers. -/
theorem modeIsReadOnlyAtPipeBegin : Obligations.ModeIsReadOnlyAtPipeBegin := by
  intro i s t m a hclass hbegin h
  have hi := (partOf_eq_pipeline_iff i).mpr hclass
  change exec i (withMode m a s) = .next (withMode m a t)
  cases i with
  | pipeBegin => exact absurd rfl hbegin
  | pipeSample v =>
    obtain ⟨hv, hphase, hidx, rfl⟩ := (execPipeSample_next v s t).mp h
    exact (execPipeSample_next v _ _).mpr ⟨hv, hphase, hidx, (afterSample_withMode ..).symm⟩
  | pipeAnalyze =>
    obtain ⟨hphase, xs, hxs, rfl⟩ := (execPipeAnalyze_next s t).mp h
    exact (execPipeAnalyze_next _ _).mpr ⟨hphase, xs, hxs, rfl⟩
  | pipeLed slow =>
    obtain ⟨hphase, ⟨hmode, band, hband, rfl⟩ | ⟨hmode, hvalid, c, hc, rfl⟩⟩ := (execPipeLed_next slow s t).mp h
    · exact (execPipeLed_next slow _ _).mpr
        ⟨hphase, .inl ⟨hmode, band, hband, (renderUnit_withMode ..).symm⟩⟩
    · exact (execPipeLed_next slow _ _).mpr
        ⟨hphase, .inr ⟨hmode, hvalid, c, hc, (renderUnit_withMode ..).symm⟩⟩
  | _ => cases hi

end Sys2Proof.MemoryRules

/-! The encoding (spec/30_encoding.md): the decoder as the table of R104 reads it, trace lines as words, the reasons a
stimulus or a step is refused for, and the guards of R113. -/

namespace Sys2Proof.Encoding

open Sys2Proof.Machine

/-! ### Decoding what was encoded (R101 to R106) -/

/-- Settles O1, format by format. -/
theorem decodeEncode : Obligations.DecodeEncode := by
  intro i
  cases i with
  | setMode m => exact Laws.RoundTrip.setMode m
  | getMode => exact Laws.RoundTrip.getMode
  | setConstantColor r g b => exact Laws.RoundTrip.setConstantColor r g b
  | alarmSounding => exact Laws.RoundTrip.alarmSounding
  | beginTestTone p => exact Laws.RoundTrip.beginTestTone p
  | endTestTone => exact Laws.RoundTrip.endTestTone
  | onRotateCw h => exact Laws.RoundTrip.onRotateCw h
  | onRotateCcw h => exact Laws.RoundTrip.onRotateCcw h
  | onPress u h => exact Laws.RoundTrip.onPress u h
  | alarmSet a => exact Laws.RoundTrip.alarmSet a
  | encEdge clk dir => exact Laws.RoundTrip.encEdge clk dir
  | btnEdge u level => exact Laws.RoundTrip.btnEdge u level
  | btnTick u level => exact Laws.RoundTrip.btnTick u level
  | patTick => exact Laws.RoundTrip.patTick
  | freqTick => exact Laws.RoundTrip.freqTick
  | pipeBegin => exact Laws.RoundTrip.pipeBegin
  | pipeSample v => exact Laws.RoundTrip.pipeSample v
  | pipeAnalyze => exact Laws.RoundTrip.pipeAnalyze
  | pipeLed slow => exact Laws.RoundTrip.pipeLed slow

theorem decode_of_encode_eq {i : Instr} {w : Word} (h : encode i = w) : decode w = .ok i :=
  h ▸ decodeEncode i

/-- Settles O6: each word is the encoding of its stimulus. -/
theorem sampleWordsDecode : Obligations.SampleWordsDecode :=
  ⟨decode_of_encode_eq (by decide), decode_of_encode_eq (by decide), decode_of_encode_eq (by decide),
    decode_of_encode_eq (by decide), decode_of_encode_eq (by decide), decode_of_encode_eq (by decide),
    decode_of_encode_eq (by decide), decode_of_encode_eq (by decide), decode_of_encode_eq (by decide),
    decode_of_encode_eq (by decide)⟩

/-! ### The bits of a field (R101, R102) -/

/-- Ones in the `n` bits from `lo` up. -/
def fieldOnes (lo n : Nat) : Word := place lo (BitVec.allOnes n)

theorem getLsbD_fieldOnes (lo n j : Nat) :
    (fieldOnes lo n).getLsbD j = true ↔ j < 32 ∧ lo ≤ j ∧ j < lo + n := by
  simp only [fieldOnes, Laws.getLsbD_place, BitVec.getLsbD_allOnes, Bool.and_eq_true, decide_eq_true_eq]
  omega

/-- A field put back where it was read is the word's bits there. -/
theorem place_field (w : Word) (lo n : Nat) : place lo (field w lo n) = w &&& fieldOnes lo n := by
  apply BitVec.eq_of_getLsbD_eq
  intro j hj
  rw [BitVec.getLsbD_and, Bool.eq_iff_iff, Bool.and_eq_true, getLsbD_fieldOnes, Laws.getLsbD_place, field,
    BitVec.getLsbD_extractLsb']
  by_cases hlo : lo ≤ j
  · simp [hj, hlo, Nat.sub_lt_iff_lt_add hlo, and_comm, Nat.add_comm]
  · simp [hlo]

@[simp] theorem place_field_one (w : Word) (j : Nat) : place j (field w j 1) = placeBit j (bit w j) := by
  rw [placeBit]
  congr 1
  apply BitVec.eq_of_getLsbD_eq
  intro k hk
  obtain rfl : k = 0 := by omega
  simp [bit, field]

theorem toNat_opcode_field (w : Word) : (field w 24 8).toNat = w.toNat / 2 ^ 24 := by
  rw [field, BitVec.extractLsb'_toNat, Nat.shiftRight_eq_div_pow]
  exact Nat.mod_eq_of_lt (by omega)

/-! ### The rows of the table (R104, R106) -/

/-- Ones in the bits of the fields. -/
def payloadOnes : List FieldSpec → Word
  | [] => 0
  | f :: rest => fieldOnes f.lo f.width ||| payloadOnes rest

/-- The bits below the opcode that no field takes. -/
def zerosOf (fields : List FieldSpec) : Word := ~~~(fieldOnes 24 8 ||| payloadOnes fields)

@[simp] theorem and_payloadOnes_nil (w : Word) : w &&& payloadOnes [] = 0 := BitVec.and_zero

@[simp] theorem and_payloadOnes_cons (w : Word) (name : String) (lo n : Nat) (rest : List FieldSpec) :
    w &&& payloadOnes (⟨name, lo, n⟩ :: rest) = place lo (field w lo n) ||| (w &&& payloadOnes rest) := by
  rw [payloadOnes, BitVec.and_or_distrib_left, place_field]

theorem getLsbD_payloadOnes (fields : List FieldSpec) (j : Nat) :
    (payloadOnes fields).getLsbD j = true ↔ j < 32 ∧ ∃ f ∈ fields, f.lo ≤ j ∧ j < f.lo + f.width := by
  induction fields with
  | nil => simp [payloadOnes]
  | cons f rest ih =>
    rw [payloadOnes, BitVec.getLsbD_or, Bool.or_eq_true, getLsbD_fieldOnes, ih]
    simp [and_or_left]

theorem getLsbD_zerosOf (fields : List FieldSpec) (j : Nat) :
    (zerosOf fields).getLsbD j = true ↔ j < 24 ∧ ¬∃ f ∈ fields, f.lo ≤ j ∧ j < f.lo + f.width := by
  rw [zerosOf, BitVec.getLsbD_not, Bool.and_eq_true, decide_eq_true_eq, Bool.not_eq_true', ← Bool.not_eq_true,
    BitVec.getLsbD_or, Bool.or_eq_true, getLsbD_fieldOnes, getLsbD_payloadOnes, not_or]
  constructor
  · exact fun ⟨hj, hop, hfield⟩ => ⟨by omega, fun hf => hfield ⟨hj, hf⟩⟩
  · exact fun ⟨hj, hfield⟩ => ⟨by omega, by omega, fun hf => hfield hf.2⟩

/-- The must-be-zero test passes exactly where every one-bit below the opcode lies in a field. -/
theorem and_zerosOf_eq_zero_iff (w : Word) (fields : List FieldSpec) :
    w &&& zerosOf fields = 0 ↔
      ∀ b, b < 24 → w.getLsbD b = true → ∃ f ∈ fields, f.lo ≤ b ∧ b < f.lo + f.width := by
  have hbit : ∀ b, (w &&& zerosOf fields).getLsbD b = true ↔
      w.getLsbD b = true ∧ b < 24 ∧ ¬∃ f ∈ fields, f.lo ≤ b ∧ b < f.lo + f.width := fun b => by
    rw [BitVec.getLsbD_and, Bool.and_eq_true, getLsbD_zerosOf]
  constructor
  · intro h b hb hw
    by_contra hout
    simpa [h] using (hbit b).mpr ⟨hw, hb, hout⟩
  · intro h
    apply BitVec.eq_of_getLsbD_eq
    intro b _
    refine (Bool.eq_false_iff.mpr fun hset => ?_).trans BitVec.getLsbD_zero.symm
    obtain ⟨hw, hb, hout⟩ := (hbit b).mp hset
    exact hout (h b hb hw)

theorem whenZero_of_and_eq_zero {w m : Word} (h : w &&& m = 0) (r : Except DecodeError Instr) : whenZero w m r = r :=
  if_pos h

theorem whenZero_of_and_ne_zero {w m : Word} (h : w &&& m ≠ 0) (r : Except DecodeError Instr) :
    whenZero w m r = .error .invalidWord :=
  if_neg h

theorem mode_code_of_ofCode {c : BitVec 2} {m : Mode} (h : Mode.ofCode c = some m) : m.code = c := by
  revert c
  cases m <;> decide

theorem alarmState_code_of_ofCode {c : BitVec 3} {a : AlarmState} (h : AlarmState.ofCode c = some a) : a.code = c := by
  revert c
  cases a <;> decide

/-- What the decoder answers by a row with these fields: the must-be-zero test, and then no invalid word, but a stimulus
whose opcode and payload are the word's bits, or a reserved operand. -/
def ByRow (w : Word) (fields : List FieldSpec) (d : Except DecodeError Instr) : Prop :=
  ∃ r, d = whenZero w (zerosOf fields) r ∧ r ≠ .error .invalidWord ∧
    ∀ i, r = .ok i → i.opcode = field w 24 8 ∧ i.payload = w &&& payloadOnes fields

theorem byRow_ok {w : Word} {fields : List FieldSpec} {i : Instr} (hop : (field w 24 8).toNat = i.opcode.toNat)
    (hpay : i.payload = w &&& payloadOnes fields) : ByRow w fields (whenZero w (zerosOf fields) (.ok i)) :=
  ⟨.ok i, rfl, nofun, fun _ h => Except.ok.inj h ▸ ⟨(BitVec.eq_of_toNat_eq hop).symm, hpay⟩⟩

theorem byRow_reserved (w : Word) (fields : List FieldSpec) :
    ByRow w fields (whenZero w (zerosOf fields) (.error .reservedOperand)) :=
  ⟨.error .reservedOperand, rfl, nofun, nofun⟩

theorem byRow_setMode {w : Word} (hop : (field w 24 8).toNat = 0x01) : ByRow w [⟨"m", 0, 2⟩] (decode w) := by
  rw [decode, hop]
  cases hm : Mode.ofCode (field w 0 2) with
  | none => exact byRow_reserved w _
  | some m => exact byRow_ok hop (by simp [Instr.payload, mode_code_of_ofCode hm])

theorem byRow_alarmSet {w : Word} (hop : (field w 24 8).toNat = 0x0A) : ByRow w [⟨"s", 0, 3⟩] (decode w) := by
  rw [decode, hop]
  cases ha : AlarmState.ofCode (field w 0 3) with
  | none => exact byRow_reserved w _
  | some a => exact byRow_ok hop (by simp [Instr.payload, alarmState_code_of_ofCode ha])

/-- Format C's fields take every bit below the opcode (R102), so nothing must be zero. -/
theorem byRow_setConstantColor {w : Word} (hop : (field w 24 8).toNat = 0x03) :
    ByRow w [⟨"r", 16, 8⟩, ⟨"g", 8, 8⟩, ⟨"b", 0, 8⟩] (decode w) := by
  have hzeros : w &&& zerosOf [⟨"r", 16, 8⟩, ⟨"g", 8, 8⟩, ⟨"b", 0, 8⟩] = 0 := BitVec.and_zero
  rw [← whenZero_of_and_eq_zero hzeros (decode w), decode, hop]
  exact byRow_ok hop (by simp [Instr.payload, BitVec.or_assoc])

/-- R104: the decoder reads a word by the row that has its opcode. Outside the formats with an enumerated field and
format C, the arm of that opcode is the row's test and the stimulus with its operands read from the fields. -/
theorem decode_byRow {w : Word} {row : FormatRow} (hrow : row ∈ formatRows)
    (hop : (field w 24 8).toNat = row.opcode) : ByRow w row.fields (decode w) := by
  simp only [formatRows, List.mem_cons, List.not_mem_nil, or_false] at hrow
  rcases hrow with rfl | rfl | rfl | rfl | rfl | rfl | rfl | rfl | rfl | rfl | rfl | rfl | rfl | rfl | rfl | rfl |
    rfl | rfl | rfl
  case inl => exact byRow_setMode hop
  case inr.inr.inl => exact byRow_setConstantColor hop
  case inr.inr.inr.inr.inr.inr.inr.inr.inr.inl => exact byRow_alarmSet hop
  all_goals
    rw [decode, hop]
    exact byRow_ok hop (by simp [Instr.payload])

theorem decode_of_no_row {w : Word} (h : ∀ row ∈ formatRows, (field w 24 8).toNat ≠ row.opcode) :
    decode w = .error .invalidWord := by
  simp only [formatRows, List.forall_mem_cons] at h
  unfold decode
  split <;> simp_all

/-- A word spells no stimulus exactly where no row has its opcode and passes its must-be-zero test. -/
theorem decode_eq_invalidWord_iff (w : Word) :
    decode w = .error .invalidWord ↔
      ¬∃ row ∈ formatRows, (field w 24 8).toNat = row.opcode ∧ w &&& zerosOf row.fields = 0 := by
  constructor
  · rintro h ⟨row, hmem, hop, hz⟩
    obtain ⟨r, hr, hvalid, -⟩ := decode_byRow hmem hop
    rw [whenZero_of_and_eq_zero hz] at hr
    exact hvalid (hr.symm.trans h)
  · intro hno
    by_cases hrow : ∃ row ∈ formatRows, (field w 24 8).toNat = row.opcode
    · obtain ⟨row, hmem, hop⟩ := hrow
      obtain ⟨r, hr, -⟩ := decode_byRow hmem hop
      exact hr.trans (whenZero_of_and_ne_zero (fun hz => hno ⟨row, hmem, hop, hz⟩) r)
    · exact decode_of_no_row fun row hmem hop => hrow ⟨row, hmem, hop⟩

/-- Settles O3: the test of a row, bit by bit. -/
theorem invalidWordsAreThoseOutsideTheTable : Obligations.InvalidWordsAreThoseOutsideTheTable := by
  intro w
  rw [decode_eq_invalidWord_iff]
  simp only [toNat_opcode_field, and_zerosOf_eq_zero_iff]

/-- Where the must-be-zero test passes, the word has no bits but its opcode and those in the fields. -/
theorem opcode_or_payload {w : Word} {fields : List FieldSpec} (h : w &&& zerosOf fields = 0) :
    place 24 (field w 24 8) ||| (w &&& payloadOnes fields) = w :=
  calc place 24 (field w 24 8) ||| (w &&& payloadOnes fields)
      = w &&& (fieldOnes 24 8 ||| payloadOnes fields) := by rw [place_field, BitVec.and_or_distrib_left]
    _ = (w &&& (fieldOnes 24 8 ||| payloadOnes fields)) ||| (w &&& zerosOf fields) := by
      rw [h]; exact BitVec.or_zero.symm
    _ = w := by rw [zerosOf, ← BitVec.and_or_distrib_left, BitVec.or_not_self, BitVec.and_allOnes]

/-- Settles O2: the stimulus has the word's opcode and its bits in the row's fields, and the word has no others. -/
theorem encodeDecode : Obligations.EncodeDecode := by
  intro w i hd
  have hvalid : ¬decode w = .error .invalidWord := by rw [hd]; nofun
  rw [decode_eq_invalidWord_iff, not_not] at hvalid
  obtain ⟨row, hmem, hop, hz⟩ := hvalid
  obtain ⟨r, hr, -, hspell⟩ := decode_byRow hmem hop
  rw [whenZero_of_and_eq_zero hz] at hr
  obtain ⟨hopcode, hpayload⟩ := hspell i (hr.symm.trans hd)
  rw [encode, hopcode, hpayload, opcode_or_payload hz]

/-! ### Trace lines (R111) -/

/-- A field in its place, above a number that ends below it. -/
theorem ofNat_mul_add_eq_place_or {n : Nat} (lo : Nat) (v : BitVec n) {k : Nat} (hk : k < 2 ^ lo) :
    BitVec.ofNat 32 (v.toNat * 2 ^ lo + k) = place lo v ||| BitVec.ofNat 32 k := by
  rw [Nat.mul_comm, Nat.two_pow_add_eq_or_of_lt hk, BitVec.ofNat_or]
  congr 1
  apply BitVec.eq_of_toNat_eq
  simp [place, Nat.shiftLeft_eq, Nat.mul_comm]

/-- The given values put into the fields make the payload `p`, which ends below bit `top`. -/
def Places (given : List (String × LineValue)) (fields : List FieldSpec) (top : Nat) (p : Word) : Prop :=
  ∃ k, placeFields given fields = some k ∧ k < 2 ^ top ∧ BitVec.ofNat 32 k = p

theorem places_nil (given : List (String × LineValue)) : Places given [] 0 0 := ⟨0, rfl, by simp, rfl⟩

/-- The fields of R102's formats stand one below the other. -/
theorem places_cons {given : List (String × LineValue)} {f : FieldSpec} {rest : List FieldSpec} {top : Nat} {p : Word}
    (v : BitVec f.width) (hv : (given.lookup f.name).bind (lineValue f.name) = some v.toNat)
    (hrest : Places given rest top p) (htop : top ≤ f.lo) :
    Places given (f :: rest) (f.lo + f.width) (place f.lo v ||| p) := by
  obtain ⟨k, hk, hlt, rfl⟩ := hrest
  have hbelow : k < 2 ^ f.lo := hlt.trans_le (Nat.pow_le_pow_right (by decide) htop)
  refine ⟨v.toNat * 2 ^ f.lo + k, by simp [placeFields, hv, hk, v.isLt], ?_, ofNat_mul_add_eq_place_or _ v hbelow⟩
  have hmul := Nat.mul_le_mul_right (2 ^ f.lo) (Nat.succ_le_of_lt v.isLt)
  rw [Nat.succ_mul] at hmul
  rw [Nat.add_comm f.lo, Nat.pow_add]
  omega

/-- A line whose row has the stimulus's opcode and whose values make its payload is the stimulus's word. -/
theorem assemble_eq_encode {line : TraceLine} {row : FormatRow} {i : Instr} {top : Nat}
    (hfind : formatRows.find? (fun r => r.mnemonic == line.mnemonic) = some row)
    (hlen : line.fields.length = row.fields.length) (hop : row.opcode = i.opcode.toNat)
    (hpay : Places line.fields row.fields top i.payload) (htop : top ≤ 24) : assemble line = some (encode i) := by
  obtain ⟨k, hk, hlt, hp⟩ := hpay
  have hbelow : k < 2 ^ 24 := hlt.trans_le (Nat.pow_le_pow_right (by decide) htop)
  simp [assemble, hfind, hlen, hk, hop, encode, ← hp, ← ofNat_mul_add_eq_place_or 24 i.opcode hbelow]

/-- Format Z. -/
theorem assemble_noField {mnemonic : String} {op : Nat} {i : Instr}
    (hfind : formatRows.find? (fun r => r.mnemonic == mnemonic) = some ⟨mnemonic, op, []⟩)
    (hop : op = i.opcode.toNat) (hpay : i.payload = 0) : assemble ⟨mnemonic, []⟩ = some (encode i) :=
  assemble_eq_encode hfind rfl hop (hpay ▸ places_nil []) (by decide)

/-- The formats of one field. -/
theorem assemble_oneField {mnemonic name : String} {op lo n : Nat} {i : Instr} {value : LineValue} (v : BitVec n)
    (hfind : formatRows.find? (fun r => r.mnemonic == mnemonic) = some ⟨mnemonic, op, [⟨name, lo, n⟩]⟩)
    (hop : op = i.opcode.toNat) (hv : lineValue name value = some v.toNat) (hpay : i.payload = place lo v)
    (htop : lo + n ≤ 24) : assemble ⟨mnemonic, [(name, value)]⟩ = some (encode i) := by
  have hplaces := places_cons (given := [(name, value)]) (f := ⟨name, lo, n⟩) v (by simp [hv]) (places_nil _)
    (Nat.zero_le lo)
  have hor : place lo v ||| 0 = i.payload := BitVec.or_zero.trans hpay.symm
  exact assemble_eq_encode hfind rfl hop (hor ▸ hplaces) htop

/-- The formats of two fields, their values given in either order. -/
theorem assemble_twoFields {mnemonic name₁ name₂ : String} {op lo₁ lo₂ n₁ n₂ : Nat} {i : Instr}
    {given : List (String × LineValue)} (v₁ : BitVec n₁) (v₂ : BitVec n₂)
    (hfind : formatRows.find? (fun r => r.mnemonic == mnemonic) =
      some ⟨mnemonic, op, [⟨name₁, lo₁, n₁⟩, ⟨name₂, lo₂, n₂⟩]⟩)
    (hlen : given.length = 2) (hop : op = i.opcode.toNat)
    (hv₁ : (given.lookup name₁).bind (lineValue name₁) = some v₁.toNat)
    (hv₂ : (given.lookup name₂).bind (lineValue name₂) = some v₂.toNat)
    (hpay : i.payload = place lo₁ v₁ ||| place lo₂ v₂) (hlo : lo₂ + n₂ ≤ lo₁) (htop : lo₁ + n₁ ≤ 24) :
    assemble ⟨mnemonic, given⟩ = some (encode i) := by
  have hplaces := places_cons (f := ⟨name₁, lo₁, n₁⟩) v₁ hv₁
    (places_cons (f := ⟨name₂, lo₂, n₂⟩) v₂ hv₂ (places_nil _) (Nat.zero_le lo₂)) hlo
  have hor : place lo₁ v₁ ||| (place lo₂ v₂ ||| 0) = i.payload :=
    (congrArg (place lo₁ v₁ ||| ·) BitVec.or_zero).trans hpay.symm
  exact assemble_eq_encode hfind hlen hop (hor ▸ hplaces) htop

theorem assemble_setMode {value : LineValue} (m : Mode) (h : lineValue "m" value = some m.code.toNat) :
    assemble ⟨"SET_MODE", [("m", value)]⟩ = some (encode (.setMode m)) :=
  assemble_oneField m.code rfl rfl h rfl (by decide)

theorem assemble_alarmSet {value : LineValue} (a : AlarmState) (h : lineValue "s" value = some a.code.toNat) :
    assemble ⟨"ALARM_SET", [("s", value)]⟩ = some (encode (.alarmSet a)) :=
  assemble_oneField a.code rfl rfl h rfl (by decide)

theorem assemble_setConstantColor (r g b : Byte) :
    assemble ⟨"SET_CONSTANT_COLOR", [("r", .num r.toNat), ("g", .num g.toNat), ("b", .num b.toNat)]⟩
      = some (encode (.setConstantColor r g b)) := by
  have hplaces : Places [("r", .num r.toNat), ("g", .num g.toNat), ("b", .num b.toNat)]
      [⟨"r", 16, 8⟩, ⟨"g", 8, 8⟩, ⟨"b", 0, 8⟩] 24 (place 16 r ||| (place 8 g ||| (place 0 b ||| 0))) :=
    places_cons (f := ⟨"r", 16, 8⟩) r rfl (places_cons (f := ⟨"g", 8, 8⟩) g rfl
      (places_cons (f := ⟨"b", 0, 8⟩) b rfl (places_nil _) (by decide)) (by decide)) (by decide)
  have hor : place 16 r ||| (place 8 g ||| (place 0 b ||| 0)) = (Instr.setConstantColor r g b).payload := by
    simp [Instr.payload, BitVec.or_assoc]
  exact assemble_eq_encode rfl rfl rfl (hor ▸ hplaces) (by decide)

/-- A one-bit value of a line is the field's. -/
theorem lineValue_bool (name : String) (b : Bool) : lineValue name (.num b.toNat) = some (BitVec.ofBool b).toNat :=
  congrArg some (BitVec.toNat_ofBool b).symm

/-- ENC_EDGE with its fields in either order (notes/assumptions/24.md). -/
theorem assemble_encEdge {given : List (String × LineValue)} (clk dir : Bool) (hlen : given.length = 2)
    (hdir : given.lookup "dir" = some (.num dir.toNat)) (hclk : given.lookup "clk" = some (.num clk.toNat)) :
    assemble ⟨"ENC_EDGE", given⟩ = some (encode (.encEdge clk dir)) :=
  assemble_twoFields (BitVec.ofBool dir) (BitVec.ofBool clk) rfl hlen rfl (by rw [hdir]; exact lineValue_bool "dir" dir)
    (by rw [hclk]; exact lineValue_bool "clk" clk) rfl (by decide) (by decide)

/-- Settles O5, format by format. -/
theorem traceLinesAssembleToWords : Obligations.TraceLinesAssembleToWords :=
  ⟨fun m => assemble_setMode m rfl, assemble_setMode .off rfl, assemble_setMode .constant rfl,
    assemble_setMode .spectrum rfl, assemble_noField rfl rfl rfl, assemble_setConstantColor,
    assemble_noField rfl rfl rfl, fun p => assemble_oneField p rfl rfl rfl rfl (by decide),
    assemble_noField rfl rfl rfl, fun h => assemble_oneField h rfl rfl rfl rfl (by decide),
    fun h => assemble_oneField h rfl rfl rfl rfl (by decide),
    fun u h => assemble_twoFields u h rfl rfl rfl rfl rfl rfl (by decide) (by decide),
    fun a => assemble_alarmSet a rfl, assemble_alarmSet .off rfl, assemble_alarmSet .armed rfl,
    assemble_alarmSet .sounding rfl, assemble_alarmSet .snoozed rfl, assemble_alarmSet .test rfl,
    fun clk dir => assemble_encEdge clk dir rfl rfl rfl, fun clk dir => assemble_encEdge clk dir rfl rfl rfl,
    fun u level => assemble_twoFields u (BitVec.ofBool level) rfl rfl rfl rfl (lineValue_bool "level" level) rfl
      (by decide) (by decide),
    fun u level => assemble_twoFields u (BitVec.ofBool level) rfl rfl rfl rfl (lineValue_bool "level" level) rfl
      (by decide) (by decide),
    assemble_noField rfl rfl rfl, assemble_noField rfl rfl rfl, assemble_noField rfl rfl rfl,
    fun v => assemble_oneField v rfl rfl rfl rfl (by decide), assemble_noField rfl rfl rfl,
    fun slow => assemble_oneField (BitVec.ofBool slow) rfl rfl (lineValue_bool _ _) rfl (by decide)⟩

/-! ### Reserved operands (R108) -/

theorem withButton_of_reserved {u : BitVec 4} {s : State} (h : ¬u.toNat < s.cfg.numButtons) (k : Button → Result) :
    withButton u s k = .refused .reservedOperand :=
  if_neg h

theorem operandOk_of_reserved {p : Prop} [Decidable p] (h : ¬p) (r : Result) :
    operandOk (decide p) r = .refused .reservedOperand := by
  rw [operandOk, decide_eq_false h]
  rfl

/-- R108: an operand outside the configuration's bounds, in every state. -/
theorem exec_of_not_wf {i : Instr} {s : State} (h : i.wf s.cfg = false) : exec i s = .refused .reservedOperand := by
  cases i with
  | onPress u f => exact withButton_of_reserved (of_decide_eq_false h) _
  | btnEdge u level => exact withButton_of_reserved (of_decide_eq_false h) _
  | btnTick u level => exact withButton_of_reserved (of_decide_eq_false h) _
  | beginTestTone p => exact operandOk_of_reserved (of_decide_eq_false h) _
  | pipeSample v => exact operandOk_of_reserved (of_decide_eq_false h) _
  | _ => cases h

/-- Settles O4: the two words by the decoder, the operands by the stimuli. -/
theorem reservedOperandsAreRefused : Obligations.ReservedOperandsAreRefused := by
  refine ⟨rfl, fun v hv => ?_, fun i s => exec_of_not_wf⟩
  obtain rfl | rfl | rfl : v = 5 ∨ v = 6 ∨ v = 7 := by bv_omega
  all_goals rfl

/-! ### What stops a step (R109, R118) -/

theorem step_of_stop {s : State} {e : Stop} (h : nextStimulus s = .error e) : step s = e.outcome := by
  rw [step, h]

theorem step_of_configProblem {s : State} {p : ConfigProblem} (h : configProblem s.cfg = some p) :
    step s = (problemStop p).outcome :=
  step_of_stop (by rw [nextStimulus, h])

theorem step_of_decode_error {s : State} {w : Word} {rest : List Word} {e : DecodeError}
    (hc : configProblem s.cfg = none) (hin : s.input = w :: rest) (hd : decode w = .error e) :
    step s = (decodeStop e).outcome :=
  step_of_stop (by simp [nextStimulus, hc, hin, hd])

theorem step_of_trace_end {s : State} (hc : configProblem s.cfg = none) (hin : s.input = []) :
    step s = .refused .noStimulus :=
  step_of_stop (e := .refused .noStimulus) (by rw [nextStimulus, hc, hin])

/-- Settles O12: the configuration before the trace, the trace before its word. -/
theorem stepStops : Obligations.StepStops := fun _ =>
  ⟨step_of_trace_end, fun _ _ => step_of_decode_error, fun _ _ => step_of_decode_error, step_of_configProblem,
    step_of_configProblem, step_of_configProblem⟩

/-! ### Guards (R113) -/

/-- R36: the operands that name a button name one that is there. -/
theorem exists_button {u : BitVec 4} {s : State} (hlen : s.buttons.length = s.cfg.numButtons)
    (hu : u.toNat < s.cfg.numButtons) : ∃ b, buttonAt s u = some b :=
  ⟨_, List.getElem?_eq_getElem (hlen.symm ▸ hu)⟩

theorem guarded_of_fails {g : Bool} (h : g = false) (r : Result) : guarded g r = .refused .guardFailed := by
  rw [guarded, h]
  rfl

theorem operandOk_of_legal {p : Prop} [Decidable p] (h : p) (r : Result) : operandOk (decide p) r = r := by
  rw [operandOk, decide_eq_true h]
  rfl

theorem withButton_of_legal {u : BitVec 4} {s : State} {b : Button} (hu : u.toNat < s.cfg.numButtons)
    (hb : buttonAt s u = some b) (k : Button → Result) : withButton u s k = k b := by
  rw [buttonAt] at hb
  rw [withButton, if_pos hu, hb]

/-- R145, R146: a guard of a button that is there. -/
theorem withButton_guard_fails {u : BitVec 4} {s : State} {g : Button → Bool} (k : Button → Result)
    (hlen : s.buttons.length = s.cfg.numButtons) (hu : u.toNat < s.cfg.numButtons)
    (hg : (buttonAt s u).any g = false) : (withButton u s fun b => guarded (g b) (k b)) = .refused .guardFailed := by
  obtain ⟨b, hb⟩ := exists_button hlen hu
  rw [hb] at hg
  rw [withButton_of_legal hu hb]
  exact guarded_of_fails hg _

/-- R210: outside RENDER the guard fails; in RENDER only a CONSTANT iteration without a colour. -/
theorem execPipeLed_of_guard_fails {slow : Bool} {s : State} (h : guardHolds (.pipeLed slow) s = false) :
    execPipeLed slow s = .refused .guardFailed ∨
      (s.pipePhase = .render ∧ s.pipeMode = some .constant ∧ s.constValid = false ∧
        execPipeLed slow s = .refused .unwrittenRead) := by
  by_cases hphase : s.pipePhase = .render
  · obtain ⟨hmode, hvalid⟩ : s.pipeMode = some .constant ∧ s.constValid = false := by
      simpa [guardHolds, hphase] using h
    exact .inr ⟨hphase, hmode, hvalid, by simp [execPipeLed, guarded, hphase, hmode, renderConstant, hvalid]⟩
  · exact .inl (guarded_of_fails (by simpa using hphase) _)

/-- Settles O15: every guard but PIPE_LED's is tested as one bit. -/
theorem failedGuardsAreRefused : Obligations.FailedGuardsAreRefused := by
  intro i s hlen hwf hguard
  cases i with
  | pipeLed slow =>
    exact (execPipeLed_of_guard_fails hguard).imp_right fun ⟨hphase, hmode, hvalid, hexec⟩ =>
      ⟨⟨slow, rfl⟩, hphase, hmode, hvalid, hexec⟩
  | beginTestTone p => exact .inl ((operandOk_of_legal (of_decide_eq_true hwf) _).trans (guarded_of_fails hguard _))
  | pipeSample v => exact .inl ((operandOk_of_legal (of_decide_eq_true hwf) _).trans (guarded_of_fails hguard _))
  | btnEdge u level => exact .inl (withButton_guard_fails _ hlen (of_decide_eq_true hwf) hguard)
  | btnTick u level => exact .inl (withButton_guard_fails _ hlen (of_decide_eq_true hwf) hguard)
  | patTick => exact .inl (guarded_of_fails hguard _)
  | freqTick => exact .inl (guarded_of_fails hguard _)
  | pipeBegin => exact .inl (guarded_of_fails hguard _)
  | pipeAnalyze => exact .inl (guarded_of_fails hguard _)
  | _ => cases hguard

/-- R51 (g): the samples that PIPE_ANALYZE reads. -/
theorem exists_samples {s : State} (hs : Sane s) (hphase : s.pipePhase = .analyze) :
    ∃ xs, readRange s.x 0 s.cfg.n = some xs :=
  readRange_isSome _ _ _ fun j hj => by simpa using hs.invariants.sampled hphase j hj

/-- R51 (g), R184: the band of a light unit lies within the bins. -/
theorem exists_band {s : State} (hs : Sane s) (hphase : s.pipePhase = .render) (hmode : s.pipeMode = some .spectrum) :
    ∃ band, bandOf s = some band := by
  have hunit : s.pipeIdx < s.cfg.numLeds := by simpa [seqInRange, hphase] using hs.shape.sequencer
  have hbins := configProblem_none_bins s.cfg hs.shape.config
  have hin : ∀ j < s.cfg.binsPerLed, s.pipeIdx * s.cfg.binsPerLed + j < s.cfg.n := fun j hj => by
    have hunits := Nat.mul_le_mul_right s.cfg.binsPerLed (Nat.succ_le_of_lt hunit)
    rw [Nat.succ_mul, hbins] at hunits
    omega
  have hread := fun j hj => hs.invariants.analyzed hphase hmode _ (hin j hj)
  obtain ⟨ms, hms⟩ := readRange_isSome _ _ _ fun j hj => (hread j hj).1
  obtain ⟨ps, hps⟩ := readRange_isSome _ _ _ fun j hj => (hread j hj).2
  exact ⟨(ms, ps), (bandOf_eq_some s _).mpr ⟨ms, ps, hms, hps, rfl⟩⟩

theorem execEndTestTone_completes (s : State) : ∃ t, execEndTestTone s = .next t := by
  unfold execEndTestTone
  split_ifs <;> exact ⟨_, rfl⟩

theorem execAlarmSet_completes (a : AlarmState) (s : State) : ∃ t, execAlarmSet a s = .next t := by
  unfold execAlarmSet
  split_ifs <;> exact ⟨_, rfl⟩

/-- R26: a sane state's pattern position has an entry. -/
theorem execPatTick_completes {s : State} (hs : Sane s) (hrun : s.patTimerRun = true) :
    ∃ t, execPatTick s = .next t := by
  obtain ⟨p, hp, hpos⟩ := hs.shape.pattern
  exact ⟨_, (execPatTick_next s _).mpr ⟨hrun, p, _, hp, List.getElem?_eq_getElem hpos, rfl⟩⟩

theorem execPipeBegin_completes {s : State} (hphase : s.pipePhase = .idle) : ∃ t, execPipeBegin s = .next t := by
  have hnext := fun t => (execPipeBegin_next s t).mpr
  cases hmode : effMode s with
  | spectrum => exact ⟨_, hnext _ ⟨hphase, .inl ⟨hmode, rfl⟩⟩⟩
  | constant => exact ⟨_, hnext _ ⟨hphase, .inr (.inl ⟨hmode, rfl⟩)⟩⟩
  | off => exact ⟨_, hnext _ ⟨hphase, .inr (.inr ⟨hmode, rfl⟩)⟩⟩

/-- R41: a sane state's sample index is one of `x`. -/
theorem execPipeSample_completes {v : BitVec 16} {s : State} (hs : Sane s) (hv : v.toNat ≤ s.cfg.adcMax)
    (hphase : s.pipePhase = .sampling) : ∃ t, execPipeSample v s = .next t := by
  have hidx : s.pipeIdx < s.cfg.n := by simpa [seqInRange, hphase] using hs.shape.sequencer
  obtain ⟨hx, -⟩ := hs.shape.arrays
  exact ⟨_, (execPipeSample_next v s _).mpr ⟨hv, hphase, hx.symm ▸ hidx, rfl⟩⟩

/-- R22, R42: a sane rendering state has a mode, and in a CONSTANT iteration whose guard holds a colour. -/
theorem execPipeLed_completes {slow : Bool} {s : State} (hs : Sane s) (hphase : s.pipePhase = .render)
    (hcolour : s.pipeMode = some .constant → s.constValid = true) : ∃ t, execPipeLed slow s = .next t := by
  have hnext := fun t => (execPipeLed_next slow s t).mpr
  obtain ⟨mode, hmode⟩ := Option.isSome_iff_exists.mp (hs.shape.latched (by rw [hphase]; exact nofun))
  cases mode with
  | spectrum =>
    obtain ⟨band, hband⟩ := exists_band hs hphase hmode
    exact ⟨_, hnext _ ⟨hphase, .inl ⟨hmode, band, hband, rfl⟩⟩⟩
  | constant =>
    have hvalid := hcolour hmode
    obtain ⟨c, hc⟩ := Option.isSome_iff_exists.mp (hs.shape.colour.symm.trans hvalid)
    exact ⟨_, hnext _ ⟨hphase, .inr ⟨hmode, hvalid, c, hc, rfl⟩⟩⟩

/-- A sane state has what a stimulus reads once its guard holds. -/
theorem exec_completes {i : Instr} {s : State} (hs : Sane s) (hwf : i.wf s.cfg = true)
    (hguard : guardHolds i s = true) : ∃ t, exec i s = .next t := by
  cases i with
  | beginTestTone p =>
    exact ⟨_, (execBeginTestTone_next p s _).mpr ⟨of_decide_eq_true hwf, by simpa [guardHolds] using hguard, rfl⟩⟩
  | endTestTone => exact execEndTestTone_completes s
  | alarmSet a => exact execAlarmSet_completes a s
  | onPress u f =>
    have hu := of_decide_eq_true hwf
    obtain ⟨b, hb⟩ := exists_button hs.shape.buttonCount hu
    exact ⟨_, (execOnPress_next u f s _).mpr ⟨hu, b, hb, rfl⟩⟩
  | btnEdge u level =>
    obtain ⟨b, hb, hirq⟩ := (Option.any_eq_true ..).mp hguard
    exact ⟨_, (execBtnEdge_next u level s _).mpr ⟨of_decide_eq_true hwf, b, hb, hirq, rfl⟩⟩
  | btnTick u level =>
    obtain ⟨b, hb, hrun⟩ := (Option.any_eq_true ..).mp hguard
    exact ⟨_, (execBtnTick_next u level s _).mpr ⟨of_decide_eq_true hwf, b, hb, hrun, rfl⟩⟩
  | patTick => exact execPatTick_completes hs hguard
  | freqTick => exact ⟨_, (execFreqTick_next s _).mpr ⟨hguard, rfl⟩⟩
  | pipeBegin => exact execPipeBegin_completes (beq_iff_eq.mp hguard)
  | pipeSample v => exact execPipeSample_completes hs (of_decide_eq_true hwf) (beq_iff_eq.mp hguard)
  | pipeAnalyze =>
    have hphase := beq_iff_eq.mp hguard
    obtain ⟨xs, hxs⟩ := exists_samples hs hphase
    exact ⟨_, (execPipeAnalyze_next s _).mpr ⟨hphase, xs, hxs, rfl⟩⟩
  | pipeLed slow =>
    obtain ⟨hphase, hcolour⟩ := (Bool.and_eq_true ..).mp hguard
    exact execPipeLed_completes hs (beq_iff_eq.mp hphase) fun hmode => by simpa [hmode] using hcolour
  | _ => exact ⟨_, rfl⟩

/-- Settles O14: a failed guard is a refusal, and behind a guard that holds a sane state completes. -/
theorem guardsDecideCompletion : Obligations.GuardsDecideCompletion := by
  intro i s hs hwf
  refine ⟨fun ⟨t, h⟩ => ?_, exec_completes hs hwf⟩
  by_contra hguard
  rw [Bool.not_eq_true] at hguard
  obtain href | ⟨-, -, -, -, href⟩ := failedGuardsAreRefused i s hs.shape.buttonCount hwf hguard <;>
    exact nomatch h.symm.trans href

end Sys2Proof.Encoding

/-! The edge decoder (spec/40_edge_decoder.md): ENC_EDGE as one move of the quadrature table (R136) and what a detent's
four pairs do (R134, R138), and a button's candidate transition from its edge over its ticks to the end (R145 to
R147). -/

namespace Sys2Proof.EdgeRules

open Sys2Proof.Machine

/-! ### Runs and callbacks -/

theorem runInstrs_cons_of_next {i : Instr} {s t : State} (h : exec i s = .next t) (rest : List Instr) :
    runInstrs (i :: rest) s = runInstrs rest t := by
  rw [runInstrs, h]

/-- R136, R146: an invoked callback appends its event to the outputs and changes nothing else. -/
theorem fireIf_eq (b : Bool) (cb : Option Handle) (k : Handle → Event) (s : State) :
    fireIf b cb k s = { s with outputs := s.outputs ++ if b then (cb.map k).toList else [] } := by
  cases cb <;> cases b <;> simp [fireIf, emitIf, emit]

/-! ### One pin pair (R132, R136) -/

/-- The state with the quadrature FSM in position `e`. -/
def atEnc (e : EncState) (s : State) : State := { s with encState := e }

/-- R136: the state after ENC_EDGE with the pin pair `pp`. -/
def encStep (pp : Fin 4) (s : State) : State :=
  { s with
    encState := encNext s.cfg.qtable s.encState pp
    outputs := s.outputs ++
      (if encHit s.cfg.qtable s.encState pp && s.encState == .cw3 then (s.cbCw.map .fireCw).toList else []) ++
      (if encHit s.cfg.qtable s.encState pp && s.encState == .ccw3 then (s.cbCcw.map .fireCcw).toList else []) }

theorem exec_encEdge (clk dir : Bool) (s : State) :
    exec (.encEdge clk dir) s = .next (encStep (pinPair s.cfg.encPullDown clk dir) s) := by
  simp only [exec, execEncEdge, fireIf_eq, encStep]

theorem encStep_of_absent {pp : Fin 4} {s : State} (h : qLookup s.cfg.qtable s.encState pp = none) :
    encStep pp s = { s with encState := .start } := by
  simp [encStep, encNext, encHit, h]

theorem encStep_of_present {pp : Fin 4} {s : State} {q : EncState} (h : qLookup s.cfg.qtable s.encState pp = some q) :
    encStep pp s = { s with
      encState := q
      outputs := s.outputs ++
        (if s.encState = .cw3 then (s.cbCw.map .fireCw).toList else []) ++
        (if s.encState = .ccw3 then (s.cbCcw.map .fireCcw).toList else []) } := by
  simp [encStep, encNext, encHit, h]

/-- R132 as the spec writes it, in both wirings. -/
theorem pinPair_val (pullDown clk dir : Bool) :
    (pinPair pullDown clk dir).val =
      if pullDown then 3 - (clk.toNat + 2 * dir.toNat) else clk.toNat + 2 * dir.toNat := by
  cases pullDown <;> cases clk <;> cases dir <;> rfl

/-- Settles O30: an absent pair and a present one. -/
theorem encEdgeEffect : Obligations.EncEdgeEffect := by
  refine fun clk dir s => ⟨rfl, fun pp hpp => ?_⟩
  obtain rfl : pp = pinPair s.cfg.encPullDown clk dir := Fin.ext (hpp.trans (pinPair_val ..).symm)
  rw [exec_encEdge]
  exact ⟨fun h => congrArg _ (encStep_of_absent h), fun q h => congrArg _ (encStep_of_present h)⟩

/-! ### Sequences of pin pairs (R134, R138) -/

/-- A position that no callback is fired from: neither CW3 nor CCW3. -/
def quiet (e : EncState) : Bool := e != .cw3 && e != .ccw3

/-- No position that the pairs are applied in fires a callback. -/
def silent (t : List QEntry) : EncState → List (Fin 4) → Bool
  | _, [] => true
  | e, pp :: pps => quiet e && silent t (encNext t e pp) pps

/-- The position after the pairs. -/
def encEnd (t : List QEntry) (e : EncState) (pps : List (Fin 4)) : EncState := pps.foldl (encNext t) e

/-- The state after an ENC_EDGE for each of the pairs. -/
def encRun (pps : List (Fin 4)) (s : State) : State := pps.foldl (fun t pp => encStep pp t) s

/-- The ENC_EDGE that reads as the pair `pp` (R132). -/
def edgeFor (pullDown : Bool) (pp : Fin 4) : Instr :=
  .encEdge (pullDown != (pp.val % 2 == 1)) (pullDown != (2 ≤ pp.val))

theorem exec_edgeFor (pp : Fin 4) (s : State) : exec (edgeFor s.cfg.encPullDown pp) s = .next (encStep pp s) := by
  have hpair : ∀ (pullDown : Bool) (pp : Fin 4),
      pinPair pullDown (pullDown != (pp.val % 2 == 1)) (pullDown != (2 ≤ pp.val)) = pp := by decide
  rw [edgeFor, exec_encEdge, hpair]

theorem edgeFor_pinPair : ∀ pullDown clk dir : Bool,
    edgeFor pullDown (pinPair pullDown clk dir) = .encEdge clk dir := by decide

/-- Edges are the pairs they read as. -/
theorem map_encEdge_eq (pullDown : Bool) (edges : List (Bool × Bool)) :
    edges.map (fun e => Instr.encEdge e.1 e.2) =
      (edges.map fun e => pinPair pullDown e.1 e.2).map (edgeFor pullDown) := by
  simp [edgeFor_pinPair]

theorem runInstrs_edgeFor (pps : List (Fin 4)) (s : State) :
    runInstrs (pps.map (edgeFor s.cfg.encPullDown)) s = .next (encRun pps s) := by
  induction pps generalizing s with
  | nil => rfl
  | cons pp pps ih =>
    rw [List.map_cons, runInstrs_cons_of_next (exec_edgeFor pp s)]
    exact ih (encStep pp s)

/-- From a position that fires nothing, only the position moves. -/
theorem encStep_of_quiet {s : State} (h : quiet s.encState = true) (pp : Fin 4) :
    encStep pp s = atEnc (encNext s.cfg.qtable s.encState pp) s := by
  obtain ⟨hcw, hccw⟩ : s.encState ≠ .cw3 ∧ s.encState ≠ .ccw3 := by simpa [quiet] using h
  simp [encStep, atEnc, hcw, hccw]

theorem encRun_of_silent {pps : List (Fin 4)} {s : State} (h : silent s.cfg.qtable s.encState pps = true) :
    encRun pps s = atEnc (encEnd s.cfg.qtable s.encState pps) s := by
  induction pps generalizing s with
  | nil => rfl
  | cons pp pps ih =>
    obtain ⟨hquiet, hrest⟩ := (Bool.and_eq_true ..).mp h
    calc encRun (pp :: pps) s
        = encRun pps (atEnc (encNext s.cfg.qtable s.encState pp) s) :=
          congrArg (encRun pps) (encStep_of_quiet hquiet pp)
      _ = atEnc (encEnd s.cfg.qtable s.encState (pp :: pps)) s := ih hrest

/-- R134 (b): a chain of four present pairs from START back to it, of which only the fourth can fire. -/
theorem encRun_chain {s : State} {a b c d : Fin 4} {e₁ e₂ e₃ : EncState} (hs : s.encState = .start)
    (ha : qLookup s.cfg.qtable .start a = some e₁) (hb : qLookup s.cfg.qtable e₁ b = some e₂)
    (hc : qLookup s.cfg.qtable e₂ c = some e₃) (hd : qLookup s.cfg.qtable e₃ d = some .start)
    (h₁ : quiet e₁ = true) (h₂ : quiet e₂ = true) :
    encRun [a, b, c, d] s = { s with
      outputs := s.outputs ++
        (if e₃ = .cw3 then (s.cbCw.map .fireCw).toList else []) ++
        (if e₃ = .ccw3 then (s.cbCcw.map .fireCcw).toList else []) } := by
  have hsilent : silent s.cfg.qtable s.encState [a, b, c] = true := by
    rw [hs]
    simp [silent, encNext, ha, hb, h₁, h₂, show quiet .start = true from rfl]
  have hend : encEnd s.cfg.qtable s.encState [a, b, c] = e₃ := by simp [encEnd, encNext, hs, ha, hb, hc]
  have hthree : encRun [a, b, c] s = atEnc e₃ s := hend ▸ encRun_of_silent hsilent
  calc encRun [a, b, c, d] s
      = encStep d (atEnc e₃ s) := congrArg (encStep d) hthree
    _ = _ := encStep_of_present (s := atEnc e₃ s) hd
    _ = _ := by rw [← hs]; rfl

/-- R134 (c): the clockwise chain ends in CW3. -/
theorem encRun_clockwise {s : State} {q1 q2 q3 : Fin 4} (hq : chainsOk s.cfg.qtable q1 q2 q3 = true)
    (hs : s.encState = .start) :
    encRun [q1, q2, q3, 3] s = { s with outputs := s.outputs ++ (s.cbCw.map .fireCw).toList } := by
  obtain ⟨-, ⟨h1, h2, h3, h4⟩, -, -⟩ := (Scope.chainsOk_iff ..).mp hq
  simpa using encRun_chain hs h1 h2 h3 h4 rfl rfl

/-- R134 (c): the counter-clockwise chain ends in CCW3. -/
theorem encRun_counterClockwise {s : State} {q1 q2 q3 : Fin 4} (hq : chainsOk s.cfg.qtable q1 q2 q3 = true)
    (hs : s.encState = .start) :
    encRun [q3, q2, q1, 3] s = { s with outputs := s.outputs ++ (s.cbCcw.map .fireCcw).toList } := by
  obtain ⟨-, -, ⟨h1, h2, h3, h4⟩, -⟩ := (Scope.chainsOk_iff ..).mp hq
  simpa using encRun_chain hs h1 h2 h3 h4 rfl rfl

/-- R134 (d): with one of its first three edges skipped neither chain reaches a position that fires. -/
theorem silent_of_skipped {t : List QEntry} {q1 q2 q3 : Fin 4} (hq : chainsOk t q1 q2 q3 = true) {j : Nat}
    (hj : j < 3) :
    silent t .start ([q1, q2, q3, 3].eraseIdx j) = true ∧ silent t .start ([q3, q2, q1, 3].eraseIdx j) = true := by
  obtain ⟨-, ⟨hcw1, hcw2, -, -⟩, ⟨hccw1, hccw2, -, -⟩, hskip0, hskip1, -, -, hskip1', -, -⟩ :=
    (Scope.chainsOk_iff ..).mp hq
  obtain rfl | rfl | rfl : j = 0 ∨ j = 1 ∨ j = 2 := by omega
  · simp [silent, encNext, hskip0, hcw1, hccw1, quiet]
  · simp [silent, encNext, hskip1, hskip1', hcw1, hccw1, quiet]
  · simp [silent, encNext, hcw1, hcw2, hccw1, hccw2, quiet]

/-- R134: a valid configuration's table has a clockwise sequence. -/
theorem exists_chain {c : Config} (hc : configProblem c = none) : ∃ q1 q2 q3, chainsOk c.qtable q1 q2 q3 = true := by
  obtain ⟨-, -, -, hok⟩ := configProblem_none_sizes c hc
  have hqtable : qtableOk c.qtable = true := by simp_all [constraintsOk]
  exact ((Scope.qtableOk_iff _).mp hqtable).2

/-- Settles O36: the clockwise sequence that the configuration check found. -/
theorem detentsWithEveryTable : Obligations.DetentsWithEveryTable := by
  intro c hc
  obtain ⟨q1, q2, q3, hq⟩ := exists_chain hc
  refine ⟨q1, q2, q3, ?_⟩
  rintro s rfl hs edges
  rw [map_encEdge_eq s.cfg.encPullDown, runInstrs_edgeFor]
  refine ⟨fun h => ?_, fun h => ?_, fun ⟨j, hj, h⟩ => ?_⟩
  · rw [h, encRun_clockwise hq hs]
  · rw [h, encRun_counterClockwise hq hs]
  · obtain ⟨hcw, hccw⟩ := silent_of_skipped hq hj
    have hsilent : silent s.cfg.qtable s.encState (edges.map fun e => pinPair s.cfg.encPullDown e.1 e.2) = true := by
      obtain h | h := h <;> rwa [h, hs]
    exact ⟨_, congrArg _ (encRun_of_silent hsilent)⟩

/-! ### The default table (R135, R138) -/

/-- R112: the pairs of a detent in the default table's order. -/
theorem rotCw_eq (pullDown : Bool) : rotCw pullDown = [2, 0, 1, 3].map (edgeFor pullDown) := by
  cases pullDown <;> rfl

theorem rotCcw_eq (pullDown : Bool) : rotCcw pullDown = [1, 0, 2, 3].map (edgeFor pullDown) := by
  cases pullDown <;> rfl

theorem chainsOk_default : chainsOk defaultQTable 2 0 1 = true := by decide

/-- Where the default table leads from START after the first pairs of a sequence, none of which fires. -/
theorem runInstrs_prefixes {s : State} (ht : s.cfg.qtable = defaultQTable) (hs : s.encState = .start)
    {pps : List (Fin 4)} {ends : List (Nat × EncState)}
    (h : ∀ p ∈ ends, silent defaultQTable .start (pps.take p.1) = true ∧
      encEnd defaultQTable .start (pps.take p.1) = p.2) :
    ∀ k e, (k, e) ∈ ends →
      runInstrs ((pps.map (edgeFor s.cfg.encPullDown)).take k) s = .next { s with encState := e } := by
  intro k e hke
  obtain ⟨hsilent, hend⟩ := h (k, e) hke
  rw [← ht, ← hs] at hsilent hend
  rw [← List.map_take, runInstrs_edgeFor, encRun_of_silent hsilent, hend]
  rfl

/-- Settles O35: the prefixes are silent, and the default table is one that R134 allows. -/
theorem detentsWithDefaultTable : Obligations.DetentsWithDefaultTable := by
  intro s ht hs
  have hq : chainsOk s.cfg.qtable 2 0 1 = true := ht ▸ chainsOk_default
  rw [rotCw_eq, rotCcw_eq, List.eraseIdx_map, runInstrs_edgeFor, runInstrs_edgeFor, encRun_clockwise hq hs,
    encRun_counterClockwise hq hs]
  exact ⟨runInstrs_prefixes ht hs (by decide), rfl, runInstrs_prefixes ht hs (by decide), rfl,
    runInstrs_prefixes ht hs (by decide)⟩

/-! ### Callback registration (R139, R140, R148) -/

/-- Settles O31: both words are spelled by the encoder, and both meanings write one handle. -/
theorem onRotateEffect : Obligations.OnRotateEffect := fun _ _ => ⟨rfl, rfl, rfl, rfl⟩

/-- Settles O32: an operand outside the configuration's bounds, and a button that is there. -/
theorem onPressEffect : Obligations.OnPressEffect := fun u h s =>
  ⟨rfl, fun hu => Encoding.exec_of_not_wf (decide_eq_false hu.not_gt),
    fun b hu hb => (execOnPress_next u h s _).mpr ⟨hu, b, hb, rfl⟩⟩

/-! ### A button's edge and its ticks (R142, R143, R145, R146) -/

theorem setButton_self {u : BitVec 4} {s : State} {b : Button} (hb : s.buttons[u.toNat]? = some b) :
    setButton u b s = s := by
  obtain ⟨hlt, rfl⟩ := List.getElem?_eq_some_iff.mp hb
  rw [setButton, List.set_getElem_self]

theorem setButton_setButton (u : BitVec 4) (b b' : Button) (s : State) :
    setButton u b' (setButton u b s) = setButton u b' s := by
  simp [setButton]

theorem edgeButton_of_qualifying {level : Bool} {b : Button} (h : b.state = if level then .holdDown else .holdUp) :
    edgeButton level b = startCandidate (if level then .rising else .falling) b := by
  cases level <;> simp [edgeButton, h]

/-- R142: the edges that do not qualify. -/
theorem edgeButton_of_other {level : Bool} {b : Button} (hup : ¬(b.state = .holdUp ∧ level = false))
    (hdown : ¬(b.state = .holdDown ∧ level = true)) : edgeButton level b = b := by
  cases hstate : b.state with
  | holdUp => simp [edgeButton, hstate, show level = true by simpa [hstate] using hup]
  | holdDown => simp [edgeButton, hstate, show level = false by simpa [hstate] using hdown]
  | falling => simp [edgeButton, hstate]
  | rising => simp [edgeButton, hstate]

section
variable {u : BitVec 4} {level : Bool} {s : State} {b : Button} (hu : u.toNat < s.cfg.numButtons)
  (hb : s.buttons[u.toNat]? = some b)
include hu hb

theorem exec_btnEdge (hirq : b.irqEn = true) :
    exec (.btnEdge u level) s = .next (setButton u (edgeButton level b) s) :=
  (execBtnEdge_next u level s _).mpr ⟨hu, b, hb, hirq, rfl⟩

theorem exec_btnEdge_disabled (hirq : b.irqEn = false) : exec (.btnEdge u level) s = .refused .guardFailed :=
  (Encoding.withButton_of_legal hu hb _).trans (Encoding.guarded_of_fails hirq _)

theorem exec_btnEdge_qualifying (hirq : b.irqEn = true) (hstate : b.state = if level then .holdDown else .holdUp) :
    exec (.btnEdge u level) s = .next (setButton u (startCandidate (if level then .rising else .falling) b) s) := by
  rw [exec_btnEdge hu hb hirq, edgeButton_of_qualifying hstate]

theorem exec_btnEdge_other (hirq : b.irqEn = true) (hup : ¬(b.state = .holdUp ∧ level = false))
    (hdown : ¬(b.state = .holdDown ∧ level = true)) : exec (.btnEdge u level) s = .next s := by
  rw [exec_btnEdge hu hb hirq, edgeButton_of_other hup hdown, setButton_self hb]

theorem exec_btnTick_stopped (hrun : b.timerRun = false) : exec (.btnTick u level) s = .refused .guardFailed :=
  (Encoding.withButton_of_legal hu hb _).trans (Encoding.guarded_of_fails hrun _)

theorem exec_btnTick (hrun : b.timerRun = true) :
    exec (.btnTick u level) s = .next (setButton u (tickButton s.cfg.btnThreshold level b)
      { s with outputs := s.outputs ++
          if tickAccepts s.cfg.btnThreshold level b && activeEdge (pullUpOf s.cfg u) b then
            (b.cbPress.map (.firePress u)).toList else [] }) := by
  rw [← fireIf_eq]
  exact (execBtnTick_next u level s _).mpr ⟨hu, b, hb, hrun, rfl⟩

/-- A read of the starting level aborts the candidate. -/
theorem exec_btnTick_abort (hrun : b.timerRun = true) (hlevel : level = startLevel b) :
    exec (.btnTick u level) s = .next (setButton u (settleButton (backState b) b) s) := by
  rw [exec_btnTick hu hb hrun]
  simp [tickButton, tickAccepts, hlevel]

/-- A consistent read below the threshold is counted. -/
theorem exec_btnTick_count (hrun : b.timerRun = true) (hlevel : level ≠ startLevel b)
    (hcount : b.count + 1 ≠ s.cfg.btnThreshold) :
    exec (.btnTick u level) s = .next (setButton u { b with count := b.count + 1 } s) := by
  rw [exec_btnTick hu hb hrun]
  simp [tickButton, tickAccepts, hlevel, hcount]

/-- The consistent read that reaches the threshold accepts the candidate, and fires on the active edge. -/
theorem exec_btnTick_accept (hrun : b.timerRun = true) (hlevel : level ≠ startLevel b)
    (hcount : b.count + 1 = s.cfg.btnThreshold) {pullUp : Bool} (hpull : s.cfg.btnPullUp[u.toNat]? = some pullUp) :
    exec (.btnTick u level) s = .next (setButton u (settleButton (fwdState b) b)
      { s with outputs := s.outputs ++
          if startLevel b = pullUp then (b.cbPress.map (.firePress u)).toList else [] }) := by
  have hpullUp : pullUpOf s.cfg u = pullUp := by simp [pullUpOf, List.getD, hpull]
  have haccepts : tickAccepts s.cfg.btnThreshold level b = true := by simp [tickAccepts, hlevel, hcount]
  have hactive : activeEdge pullUp b = (startLevel b == pullUp) := rfl
  rw [exec_btnTick hu hb hrun, hpullUp, tickButton, if_neg hlevel, haccepts, hactive]
  simp

end

/-- Settles O33: a disabled interrupt, a qualifying edge either way, and any other edge. -/
theorem btnEdgeEffect : Obligations.BtnEdgeEffect := by
  refine fun u level s => ⟨rfl, fun hu => Encoding.exec_of_not_wf (decide_eq_false hu.not_gt), fun b hu hb => ?_⟩
  refine ⟨exec_btnEdge_disabled hu hb, ?_, ?_, exec_btnEdge_other hu hb⟩ <;>
    (rintro hirq hstate rfl; exact exec_btnEdge_qualifying hu hb hirq hstate)

/-- Settles O34: a stopped timer, and the three ends of a tick. -/
theorem btnTickEffect : Obligations.BtnTickEffect := by
  refine fun u level s => ⟨rfl, fun hu => Encoding.exec_of_not_wf (decide_eq_false hu.not_gt), ?_⟩
  exact fun b pullUp hu hb hpull => ⟨exec_btnTick_stopped hu hb, fun hrun _ =>
    ⟨exec_btnTick_abort hu hb hrun, exec_btnTick_count hu hb hrun,
      fun hlevel hcount => exec_btnTick_accept hu hb hrun hlevel hcount hpull⟩⟩

/-! ### A candidate over its ticks (R147) -/

/-- A button whose candidate transition to `level` has read that level on `k` ticks. -/
def candidate (level : Bool) (k : Nat) (b : Button) : Button :=
  { b with state := if level then .rising else .falling, count := k, irqEn := false, timerRun := true }

theorem candidate_zero (level : Bool) (b : Button) :
    startCandidate (if level then .rising else .falling) b = candidate level 0 b := rfl

@[simp] theorem startLevel_candidate (level : Bool) (k : Nat) (b : Button) :
    startLevel (candidate level k b) = !level := by
  cases level <;> rfl

@[simp] theorem backState_candidate (level : Bool) (k : Nat) (b : Button) :
    backState (candidate level k b) = if level then .holdDown else .holdUp := by
  cases level <;> rfl

@[simp] theorem fwdState_candidate (level : Bool) (k : Nat) (b : Button) :
    fwdState (candidate level k b) = if level then .holdUp else .holdDown := by
  cases level <;> rfl

@[simp] theorem settleButton_candidate (steady : BtnState) (level : Bool) (k : Nat) (b : Button) :
    settleButton steady (candidate level k b) = settleButton steady b := rfl

section
variable {u : BitVec 4} {level : Bool} {s : State} {b : Button} (hu : u.toNat < s.cfg.numButtons)
  (hb : s.buttons[u.toNat]? = some b)

include hb in
theorem getElem?_setButton_self (b' : Button) : (setButton u b' s).buttons[u.toNat]? = some b' :=
  List.getElem?_set_self (List.getElem?_eq_some_iff.mp hb).1

include hu hb

/-- A consistent tick below the threshold is counted. -/
theorem exec_btnTick_candidate {k : Nat} (hk : k + 1 < s.cfg.btnThreshold) :
    exec (.btnTick u level) (setButton u (candidate level k b) s) =
      .next (setButton u (candidate level (k + 1) b) s) :=
  (exec_btnTick_count (s := setButton u (candidate level k b) s) hu (getElem?_setButton_self hb _) rfl (by simp)
    hk.ne).trans (congrArg Host.Outcome.next (setButton_setButton ..))

theorem runInstrs_consistent_ticks {n k : Nat} (hn : k + n < s.cfg.btnThreshold) (rest : List Instr) :
    runInstrs (List.replicate n (.btnTick u level) ++ rest) (setButton u (candidate level k b) s) =
      runInstrs rest (setButton u (candidate level (k + n) b) s) := by
  induction n generalizing k with
  | zero => rfl
  | succ n ih =>
    have hcount : k + 1 + n = k + (n + 1) := by omega
    rw [List.replicate_succ, List.cons_append, runInstrs_cons_of_next (exec_btnTick_candidate hu hb (by omega)),
      ih (by omega), hcount]

/-- A qualifying edge and consistent ticks below the threshold leave the candidate with their number counted. -/
theorem runInstrs_candidate (hirq : b.irqEn = true) (hstate : b.state = if level then .holdDown else .holdUp) {n : Nat}
    (hn : n < s.cfg.btnThreshold) (rest : List Instr) :
    runInstrs (.btnEdge u level :: (List.replicate n (.btnTick u level) ++ rest)) s =
      runInstrs rest (setButton u (candidate level n b) s) := by
  rw [runInstrs_cons_of_next (exec_btnEdge_qualifying hu hb hirq hstate), candidate_zero,
    runInstrs_consistent_ticks hu hb (k := 0) (by omega), Nat.zero_add]

/-- R147 (b), (f): an edge with all its ticks settles in the other position and fires on the active edge. -/
theorem runInstrs_debounced (hirq : b.irqEn = true) (hstate : b.state = if level then .holdDown else .holdUp)
    (hthr : 0 < s.cfg.btnThreshold) {pullUp : Bool} (hpull : s.cfg.btnPullUp[u.toNat]? = some pullUp) :
    runInstrs (debounced s.cfg u level) s = .next (setButton u (settleButton (if level then .holdUp else .holdDown) b)
      { s with outputs := s.outputs ++
          if (!level) = pullUp then (b.cbPress.map (.firePress u)).toList else [] }) := by
  obtain ⟨n, hn⟩ : ∃ n, s.cfg.btnThreshold = n + 1 := ⟨_, (Nat.succ_pred_eq_of_pos hthr).symm⟩
  have haccept := exec_btnTick_accept (level := level) (s := setButton u (candidate level n b) s) hu
    (getElem?_setButton_self hb _) rfl (by simp) hn.symm hpull
  rw [debounced, hn, List.replicate_succ', runInstrs_candidate hu hb hirq hstate (by omega),
    runInstrs_cons_of_next haccept, settleButton_candidate, fwdState_candidate, startLevel_candidate]
  exact congrArg Host.Outcome.next (setButton_setButton u (candidate level n b) _ { s with outputs := _ })

end

/-- R9: a button that has a wiring is one of the buttons. -/
theorem lt_numButtons {c : Config} {u : BitVec 4} {pullUp : Bool} (h : c.btnPullUp[u.toNat]? = some pullUp) :
    u.toNat < c.numButtons :=
  (List.getElem?_eq_some_iff.mp h).1

/-- Settles O37: the press is the active edge of its wiring, the release the other one. -/
theorem cleanPressAndRelease : Obligations.CleanPressAndRelease := by
  intro u s b pullUp hc hpull hb hirq
  obtain ⟨-, hthr, -⟩ := StateRules.valid_config hc
  have hu := lt_numButtons hpull
  have hwired : s.cfg.btnPullUp.getD u.toNat false = pullUp := by simp [List.getD, hpull]
  refine ⟨fun hstate => ?_, fun hstate => ?_⟩
  · rw [press, hwired, runInstrs_debounced hu hb hirq (by cases pullUp <;> exact hstate) hthr hpull]
    cases pullUp <;> simp [setButton, settleButton]
  · rw [release, hwired, runInstrs_debounced hu hb hirq hstate hthr hpull]
    simp [setButton, settleButton]

/-- Settles O38: the last tick reads the candidate's starting level. -/
theorem bounceAborts : Obligations.BounceAborts := by
  intro u level ticks s b hu hb hirq hstate hticks
  have habort := exec_btnTick_abort (level := !level) (s := setButton u (candidate level ticks b) s) hu
    (getElem?_setButton_self hb _) rfl (by simp)
  rw [settleButton_candidate, backState_candidate, setButton_setButton, ← hstate] at habort
  rw [List.cons_append, runInstrs_candidate hu hb hirq hstate hticks, runInstrs_cons_of_next habort,
    settleButton, ← hirq]
  rfl

end Sys2Proof.EdgeRules

/-! The spectrum pipeline (spec/41_spectrum_pipeline.md): what each pipeline step does and which next state it answers
(R171, R173, R176, R210), the transform of a block over the reals (R175 to R182), the colour of a band (R184 to R194),
and whole render passes and iterations (R112, R206). -/

namespace Sys2Proof.PipelineRules

open Sys2Proof.Machine

/-! ### PIPE_BEGIN and PIPE_SAMPLE (R171, R173) -/

theorem effMode_of_not_sounding {s : State} (h : s.alarmState ≠ .sounding) : effMode s = s.modeSel := by
  simp [effMode, State.sounding, h]

theorem effMode_eq_off {s : State} (h : s.alarmState = .sounding ∨ s.modeSel = .off) : effMode s = .off := by
  by_cases hsound : s.alarmState = .sounding
  · simp [effMode, State.sounding, hsound]
  · exact (effMode_of_not_sounding hsound).trans (h.resolve_left hsound)

/-- R171: a SPECTRUM iteration begins. -/
theorem exec_pipeBegin_spectrum {s : State} (hphase : s.pipePhase = .idle) (hquiet : s.alarmState ≠ .sounding)
    (hmode : s.modeSel = .spectrum) :
    exec .pipeBegin s = .next (setSeq .sampling 0 { s with pipeMode := some .spectrum }) :=
  (execPipeBegin_next s _).mpr ⟨hphase, .inl ⟨(effMode_of_not_sounding hquiet).trans hmode, rfl⟩⟩

/-- Settles O39: the three effective modes, and the guard. -/
theorem pipeBeginEffect : Obligations.PipeBeginEffect := by
  refine fun s => ⟨rfl, fun hphase => Encoding.guarded_of_fails (by simpa using hphase) _, exec_pipeBegin_spectrum,
    fun hphase hquiet hmode => ?_, fun hphase hoff => ?_⟩
  · exact (execPipeBegin_next s _).mpr ⟨hphase, .inr (.inl ⟨(effMode_of_not_sounding hquiet).trans hmode, rfl⟩)⟩
  · exact (execPipeBegin_next s _).mpr ⟨hphase, .inr (.inr ⟨effMode_eq_off hoff, rfl⟩)⟩

theorem afterSample_eq (n i : Nat) (s : State) :
    afterSample n i s = { s with
      pipePhase := if i + 1 = n then .analyze else .sampling
      pipeIdx := if i + 1 = n then 0 else i + 1 } := by
  unfold afterSample
  split <;> rfl

/-- Settles O40: the operand is tested before the guard, and then the sample is stored. -/
theorem pipeSampleEffect : Obligations.PipeSampleEffect := by
  refine fun v s => ⟨rfl, fun hv => Encoding.exec_of_not_wf (decide_eq_false hv.not_ge), fun hv hphase => ?_,
    fun hv hphase hidx => ?_⟩
  · exact (Encoding.operandOk_of_legal hv _).trans (Encoding.guarded_of_fails (by simpa using hphase) _)
  · have hnext := (execPipeSample_next v s _).mpr ⟨hv, hphase, hidx, rfl⟩
    rw [afterSample_eq] at hnext
    exact hnext

/-! ### PIPE_LED: one light unit (R206, R210 to R212) -/

theorem emitIf_eq (b : Bool) (e : Event) (s : State) :
    emitIf b e s = { s with outputs := s.outputs ++ if b then [e] else [] } := by
  cases b <;> simp [emitIf, emit]

theorem afterLed_eq (n i : Nat) (s : State) :
    afterLed n i s = { s with
      pipePhase := if i + 1 = n then .idle else .render
      pipeIdx := if i + 1 = n then 0 else i + 1 } := by
  unfold afterLed
  split <;> rfl

/-- R210's end: the write behind its gate, the yield, the sequencer, and nothing else. -/
theorem renderUnit_eq (color : LedColor) (slow : Bool) (s : State) :
    renderUnit color slow s = { s with
      outputs := s.outputs ++ (if s.ledDrvEn then [.ledWrite s.pipeIdx color] else []) ++
        (if slow then [.yieldSleep] else [])
      pipePhase := if s.pipeIdx + 1 = s.cfg.numLeds then .idle else .render
      pipeIdx := if s.pipeIdx + 1 = s.cfg.numLeds then 0 else s.pipeIdx + 1 } := by
  simp only [renderUnit, emitIf_eq, afterLed_eq]

theorem exec_pipeLed_constant {slow : Bool} {s : State} {color : Rgb} (hphase : s.pipePhase = .render)
    (hmode : s.pipeMode = some .constant) (hvalid : s.constValid = true) (hcolor : s.constColor = some color) :
    exec (.pipeLed slow) s = .next (renderUnit (.rgb color) slow s) :=
  (execPipeLed_next slow s _).mpr ⟨hphase, .inr ⟨hmode, hvalid, color, hcolor, rfl⟩⟩

/-- Settles O52: the guard, the colour that is not there, and the colour that is. -/
theorem pipeLedConstantEffect : Obligations.PipeLedConstantEffect := by
  refine fun slow s => ⟨rfl, fun hphase => Encoding.guarded_of_fails (by simpa using hphase) _,
    fun hphase hmode hvalid => ?_, fun color hphase hmode hvalid hcolor => ?_⟩
  · simp [exec, execPipeLed, guarded, hphase, hmode, renderConstant, hvalid]
  · rw [exec_pipeLed_constant hphase hmode hvalid hcolor, renderUnit_eq]

/-! ### A render pass (R112, R206) -/

/-- The sequencer before light unit `k`; after the last unit it is idle (R210). -/
def atUnit (k : Nat) (s : State) : State :=
  { s with
    pipePhase := if k = s.cfg.numLeds then .idle else .render
    pipeIdx := if k = s.cfg.numLeds then 0 else k }

theorem atUnit_of_lt {k : Nat} {s : State} (h : k < s.cfg.numLeds) : atUnit k s = setSeq .render k s := by
  simp [atUnit, h.ne, setSeq]

theorem atUnit_last {k : Nat} {s : State} (h : k = s.cfg.numLeds) : atUnit k s = setSeq .idle 0 s := by
  simp [atUnit, h, setSeq]

/-- The state with a LedWrite for each of `count` units from `k` on, where the driver is enabled (R212). -/
def written (color : Nat → LedColor) (k count : Nat) (s : State) : State :=
  { s with outputs := s.outputs ++
      if s.ledDrvEn then (List.range' k count).map (fun unit => .ledWrite unit (color unit)) else [] }

theorem renderUnit_atUnit (color : Nat → LedColor) (k : Nat) (s : State) :
    renderUnit (color k) false (setSeq .render k s) = atUnit (k + 1) (written color k 1 s) := by
  rw [renderUnit_eq]
  simp only [Bool.false_eq_true, if_false, List.append_nil]
  rfl

theorem written_written (color : Nat → LedColor) (k count : Nat) (s : State) :
    written color (k + 1) count (written color k 1 s) = written color k (count + 1) s := by
  cases hdrv : s.ledDrvEn <;> simp [written, hdrv, List.range'_succ]

/-- PIPE_LED with slow=0 renders unit `unit` of the state in the colour `color`, whatever was emitted before. -/
def Renders (s : State) (unit : Nat) (color : LedColor) : Prop :=
  ∀ out, exec (.pipeLed false) (setSeq .render unit { s with outputs := out }) =
    .next (renderUnit color false (setSeq .render unit { s with outputs := out }))

/-- The units from `k` on are rendered in index order. -/
theorem runInstrs_units {color : Nat → LedColor} {count k : Nat} {s : State} (hk : k + count = s.cfg.numLeds)
    (h : ∀ unit, unit < s.cfg.numLeds → Renders s unit (color unit)) :
    runInstrs (List.replicate count (.pipeLed false)) (atUnit k s) =
      .next (setSeq .idle 0 (written color k count s)) := by
  induction count generalizing k s with
  | zero =>
    have hwritten : written color k 0 s = s := by simp [written]
    rw [hwritten, ← atUnit_last (k := k) hk]
    rfl
  | succ count ih =>
    have hunit : k < s.cfg.numLeds := by omega
    rw [List.replicate_succ, atUnit_of_lt hunit, EdgeRules.runInstrs_cons_of_next (h k hunit s.outputs),
      renderUnit_atUnit, ← written_written color k count s]
    exact ih (k := k + 1) (s := written color k 1 s) ((Nat.add_right_comm ..).trans hk) h

/-- R206: a whole pass from unit 0 writes every unit and ends in IDLE. -/
theorem runInstrs_renderAll {color : Nat → LedColor} {s : State} (hleds : 0 < s.cfg.numLeds)
    (h : ∀ unit, unit < s.cfg.numLeds → Renders s unit (color unit)) :
    runInstrs (renderAll s.cfg) (setSeq .render 0 s) =
      .next (setSeq .idle 0 (written color 0 s.cfg.numLeds s)) :=
  atUnit_of_lt hleds ▸ runInstrs_units (Nat.zero_add _) h

theorem setSeq_self {s : State} {phase : PipePhase} {k : Nat} (hphase : s.pipePhase = phase) (hidx : s.pipeIdx = k) :
    setSeq phase k s = s := by
  subst hphase hidx
  rfl

/-- Settles O53: every unit is rendered in the constant colour. -/
theorem constantPassWritesEveryUnit : Obligations.ConstantPassWritesEveryUnit := by
  intro s color hs hphase hidx hmode hcolor
  obtain ⟨-, hleds, -, -⟩ := configProblem_none_sizes s.cfg hs.shape.config
  have hvalid : s.constValid = true := by rw [hs.shape.colour, hcolor]; rfl
  have hpass := runInstrs_renderAll (color := fun _ => .rgb color) (Nat.pos_of_ne_zero hleds)
    fun unit _ out => exec_pipeLed_constant rfl hmode hvalid hcolor
  rw [setSeq_self hphase hidx, written, ← List.range_eq_range'] at hpass
  exact hpass

/-! ### Reading a range of an array (R72) -/

theorem readRange_filled {α : Type} (vs : List α) : readRange (filled vs) 0 vs.length = some vs :=
  (readRange_eq_some ..).mpr ⟨rfl, fun j _ => by rw [readElem_filled, Nat.zero_add]⟩

/-- Elements from `i` on that all hold values can be read. -/
theorem readRange_of_slice {α : Type} {a : List (Option α)} {i n : Nat} {vs : List α} (hlen : vs.length = n)
    (h : (a.drop i).take n = vs.map some) : readRange a i n = some vs := by
  refine (readRange_eq_some ..).mpr ⟨hlen, fun j hj => ?_⟩
  have hslice := congrArg (fun l => l[j]?) h
  simp only [List.getElem?_take_of_lt hj, List.getElem?_drop, List.getElem?_map] at hslice
  rw [List.getElem?_eq_getElem (hlen.symm ▸ hj : j < vs.length)] at hslice ⊢
  exact (readElem_eq_some ..).mpr hslice

theorem readRange_of_constant {α : Type} {a : List (Option α)} {i n : Nat} {v : α}
    (h : ∀ j, j < n → a[i + j]? = some (some v)) : readRange a i n = some (List.replicate n v) :=
  (readRange_eq_some ..).mpr ⟨List.length_replicate, fun j hj => by
    rw [(readElem_eq_some ..).mpr (h j hj), List.getElem?_replicate_of_lt hj]⟩

/-! ### PIPE_ANALYZE (R176 to R178) -/

/-- The values of bin `k` after the transform of the block `xs` (R175, R177, R178). -/
structure IsBin (c : Config) (xs : List Nat) (k : Nat) (re im : Alg) (mag : Mag) (ph : Phase) : Prop where
  re_val : re.val (levelOf c.n) = dftReal c.n xs k
  im_val : im.val (levelOf c.n) = dftImag c.n xs k
  mag_val : mag.val (levelOf c.n) = √(dftReal c.n xs k ^ 2 + dftImag c.n xs k ^ 2)
  ph_val : ph.val (levelOf c.n) = atan2 c (dftImag c.n xs k) (dftReal c.n xs k)

theorem isBin_of_transform {c : Config} {xs : List Nat} {k : Nat} {re im : Alg} (hc : configProblem c = none)
    (hre : re.val (levelOf c.n) = dftReal c.n xs k) (him : im.val (levelOf c.n) = dftImag c.n xs k) :
    IsBin c xs k re im (magnitude (levelOf c.n) re im) (phase (cosTable c.n) c re im) where
  re_val := hre
  im_val := him
  mag_val := by rw [val_magnitude, hre, him]
  ph_val := by
    obtain ⟨hpow, -⟩ := configProblem_none_sizes c hc
    rw [val_phase c hpow (configProblem_none_pos c hc), hre, him]

theorem analyze_bin {c : Config} {xs : List Nat} {k : Nat} (hc : configProblem c = none) (hlen : xs.length = c.n)
    (hk : k < c.n) :
    ∃ re im mag ph, (analyze c xs).re[k]? = some re ∧ (analyze c xs).im[k]? = some im ∧
      (analyze c xs).mag[k]? = some mag ∧ (analyze c xs).ph[k]? = some ph ∧ IsBin c xs k re im mag ph := by
  obtain ⟨hpow, -⟩ := configProblem_none_sizes c hc
  have hpos := configProblem_none_pos c hc
  refine ⟨_, _, _, _, ?_, ?_, ?_, ?_, isBin_of_transform hc (val_dftRe c.n hpow hpos xs hlen k)
    (val_dftIm c.n hpow hpos xs hlen k)⟩ <;> simp [analyze, hk]

theorem exec_pipeAnalyze {s : State} {xs : List Nat} (hphase : s.pipePhase = .analyze)
    (hx : readRange s.x 0 s.cfg.n = some xs) :
    exec .pipeAnalyze s = .next (setSeq .render 0 (storeSpectrum (analyze s.cfg xs) s)) :=
  (execPipeAnalyze_next s _).mpr ⟨hphase, xs, hx, rfl⟩

/-- Settles O41: the block is read whole, and every bin of what is stored is the transform's. -/
theorem pipeAnalyzeEffect : Obligations.PipeAnalyzeEffect := by
  refine fun s => ⟨rfl, fun hphase => Encoding.guarded_of_fails (by simpa using hphase) _,
    fun xs hc hphase hlen hx => ?_⟩
  have hread : readRange s.x 0 s.cfg.n = some xs := by rw [hx, ← hlen]; exact readRange_filled xs
  obtain ⟨hre, him, hmag, hph⟩ := StateRules.analyze_lengths s.cfg xs
  refine ⟨_, _, _, _, exec_pipeAnalyze hphase hread, hre, him, hmag, hph, fun k hk => ?_⟩
  obtain ⟨re, im, mag, ph, hre, him, hmag, hph, hbin⟩ := analyze_bin hc hlen hk
  simp [hre, him, hmag, hph, hbin.re_val, hbin.im_val, hbin.mag_val, hbin.ph_val]

/-- A completed PIPE_ANALYZE read a whole block, and every bin it left is that block's. -/
theorem exec_pipeAnalyze_bins {s t : State} (hc : configProblem s.cfg = none) (h : exec .pipeAnalyze s = .next t) :
    ∃ xs, readRange s.x 0 s.cfg.n = some xs ∧ ∀ k, k < s.cfg.n → ∃ re im mag ph,
      t.re[k]? = some (some re) ∧ t.im[k]? = some (some im) ∧ t.mag[k]? = some (some mag) ∧
      t.ph[k]? = some (some ph) ∧ IsBin s.cfg xs k re im mag ph := by
  obtain ⟨-, xs, hx, rfl⟩ := (execPipeAnalyze_next s t).mp h
  obtain ⟨hlen, -⟩ := (readRange_eq_some ..).mp hx
  refine ⟨xs, hx, fun k hk => ?_⟩
  obtain ⟨re, im, mag, ph, hre, him, hmag, hph, hbin⟩ := analyze_bin hc hlen hk
  exact ⟨re, im, mag, ph, by simp [filled, hre], by simp [filled, him], by simp [filled, hmag],
    by simp [filled, hph], hbin⟩

/-! ### The transform of a constant block (R182) -/

/-- The `n`th roots of unity, each to the power `k`, add up to `n` or cancel out. -/
theorem sum_exp_angle {n k : Nat} (hk : k < n) :
    ∑ i ∈ Finset.range n, Complex.exp ((2 * Real.pi * k * i / n : ℝ) * Complex.I) = if k = 0 then (n : ℂ) else 0 := by
  have hroot := Complex.isPrimitiveRoot_exp n (Nat.ne_zero_of_lt hk)
  have hterm : ∀ i : Nat, Complex.exp ((2 * Real.pi * k * i / n : ℝ) * Complex.I) =
      (Complex.exp (2 * Real.pi * Complex.I / n) ^ k) ^ i := fun i => by
    rw [← pow_mul, ← Complex.exp_nat_mul]
    congr 1
    push_cast
    ring
  simp only [hterm]
  split_ifs with h0
  · simp [h0]
  · rw [geom_sum_eq (hroot.pow_ne_one_of_pos_of_lt h0 hk), pow_right_comm, hroot.pow_eq_one, one_pow, sub_self,
      zero_div]

theorem sum_cos_angle {n k : Nat} (hk : k < n) :
    ∑ i ∈ Finset.range n, Real.cos (2 * Real.pi * k * i / n) = if k = 0 then (n : ℝ) else 0 := by
  have hsum := congrArg Complex.re (sum_exp_angle hk)
  simpa only [Complex.re_sum, Complex.exp_ofReal_mul_I_re, apply_ite Complex.re, Complex.natCast_re, Complex.zero_re]
    using hsum

theorem sum_sin_angle {n k : Nat} (hk : k < n) : ∑ i ∈ Finset.range n, Real.sin (2 * Real.pi * k * i / n) = 0 := by
  have hsum := congrArg Complex.im (sum_exp_angle hk)
  simpa only [Complex.im_sum, Complex.exp_ofReal_mul_I_im, apply_ite Complex.im, Complex.natCast_im, Complex.zero_im,
    ite_self] using hsum

theorem sampleAt_replicate {n i : Nat} (v : Nat) (hi : i < n) : sampleAt (List.replicate n v) i = v := by
  simp [sampleAt, List.getD, hi]

theorem sum_sampleAt_replicate (n v : Nat) (f : Nat → ℝ) :
    ∑ i ∈ Finset.range n, sampleAt (List.replicate n v) i * f i = v * ∑ i ∈ Finset.range n, f i := by
  rw [Finset.mul_sum]
  refine Finset.sum_congr rfl fun i hi => ?_
  rw [sampleAt_replicate v (Finset.mem_range.mp hi)]

theorem dftReal_replicate {n k : Nat} (v : Nat) (hk : k < n) :
    dftReal n (List.replicate n v) k = if k = 0 then (n : ℝ) * v else 0 := by
  rw [dftReal, sum_sampleAt_replicate, sum_cos_angle hk, mul_ite, mul_zero, mul_comm]

theorem dftImag_replicate {n k : Nat} (v : Nat) (hk : k < n) : dftImag n (List.replicate n v) k = 0 := by
  rw [dftImag, sum_sampleAt_replicate, sum_sin_angle hk, mul_zero, neg_zero]

/-- R15: the angle of a point on the positive real axis. -/
theorem atan2_zero_of_pos (c : Config) {x : ℝ} (hx : 0 < x) : atan2 c 0 x = 0 := by
  rw [atan2, if_neg fun h => hx.ne' h.1]
  exact Complex.arg_ofReal_of_nonneg hx.le

/-- Settles O42: the cosines of every bin but the first, and the sines of all bins, cancel out. -/
theorem constantBlockIsBinZero : Obligations.ConstantBlockIsBinZero := by
  intro s t v hc hx h k hk
  obtain ⟨xs, hread, hbins⟩ := exec_pipeAnalyze_bins hc h
  obtain rfl := Option.some.inj (hread.symm.trans (readRange_of_constant (v := v) fun j hj => by simp [hx, hj]))
  obtain ⟨re, im, mag, ph, hre, him, hmag, hph, hbin⟩ := hbins k hk
  have hreal := dftReal_replicate v hk
  have himag := dftImag_replicate v hk
  refine ⟨re, im, mag, ph, hre, him, hmag, hph, hbin.re_val.trans hreal, hbin.im_val.trans himag, ?_, fun h0 hv => ?_⟩
  · rw [hbin.mag_val, himag, ← hreal, zero_pow two_ne_zero, add_zero, Real.sqrt_sq]
    rw [hreal]
    positivity
  · have hpos : (0 : ℝ) < s.cfg.n * v := by
      have := configProblem_none_pos s.cfg hc
      positivity
    rw [hbin.ph_val, himag, hreal, if_pos h0, atan2_zero_of_pos s.cfg hpos]

/-! ### The symmetry of the transform (R179) -/

theorem angle_reflect {n k : Nat} (hk : k < n) (i : Nat) :
    2 * Real.pi * ((n - k : Nat) : ℝ) * i / n = i * (2 * Real.pi) - 2 * Real.pi * k * i / n := by
  have hn : (n : ℝ) ≠ 0 := by exact_mod_cast Nat.ne_zero_of_lt hk
  rw [Nat.cast_sub hk.le]
  field_simp

theorem dftReal_reflect {n k : Nat} (hk : k < n) (xs : List Nat) : dftReal n xs (n - k) = dftReal n xs k := by
  simp only [dftReal, angle_reflect hk, Real.cos_nat_mul_two_pi_sub]

theorem dftImag_reflect {n k : Nat} (hk : k < n) (xs : List Nat) : dftImag n xs (n - k) = -dftImag n xs k := by
  simp only [dftImag, angle_reflect hk, Real.sin_nat_mul_two_pi_sub, mul_neg, Finset.sum_neg_distrib]

theorem dftImag_zero (n : Nat) (xs : List Nat) : dftImag n xs 0 = 0 := by simp [dftImag]

/-- The middle bin of an even number of bins is its own mirror image. -/
theorem dftImag_half {n : Nat} (hn : 0 < n) (heven : 2 ∣ n) (xs : List Nat) : dftImag n xs (n / 2) = 0 := by
  have hmirror := dftImag_reflect (Nat.div_lt_self hn one_lt_two) xs
  rw [show n - n / 2 = n / 2 by omega] at hmirror
  linarith

/-- R15: mirroring a point in the real axis negates its angle, but for π. -/
theorem atan2_neg (c : Config) {x y : ℝ} (h : ¬(x = 0 ∧ y = 0)) :
    atan2 c (-y) x = if atan2 c y x = Real.pi then Real.pi else -atan2 c y x := by
  rw [atan2, atan2, if_neg h, if_neg (by simpa using h)]
  exact Complex.arg_conj ⟨x, y⟩

/-- Settles O43: the bins `k` and N - `k` are mirror images. -/
theorem transformIsSymmetric : Obligations.TransformIsSymmetric := by
  intro s t hc h
  obtain ⟨xs, -, hbins⟩ := exec_pipeAnalyze_bins hc h
  refine ⟨dftReal s.cfg.n xs, dftImag s.cfg.n xs, fun k => √(dftReal s.cfg.n xs k ^ 2 + dftImag s.cfg.n xs k ^ 2),
    fun k => atan2 s.cfg (dftImag s.cfg.n xs k) (dftReal s.cfg.n xs k), fun k hk => ?_, dftImag_zero _ xs,
    fun hn => ?_, fun k _ hk => ?_⟩
  · obtain ⟨re, im, mag, ph, hre, him, hmag, hph, hbin⟩ := hbins k hk
    exact ⟨⟨re, hre, hbin.re_val⟩, ⟨im, him, hbin.im_val⟩, ⟨mag, hmag, hbin.mag_val⟩, ⟨ph, hph, hbin.ph_val⟩⟩
  · obtain ⟨⟨p, hp⟩, -⟩ := (Scope.configProblem_none_iff s.cfg).mp hc
    have heven : 2 ∣ s.cfg.n := hp ▸ dvd_pow_self 2 (by rintro rfl; omega)
    exact dftImag_half (by omega) heven xs
  · have hre := dftReal_reflect hk xs
    have him := dftImag_reflect hk xs
    refine ⟨hre, him, by simp only [hre, him, neg_sq], fun hpi hne => ?_, fun hpi hne => ?_⟩
    · simp only [hre, him, atan2_neg _ hne, if_pos hpi]
    · simp only [hre, him, atan2_neg _ hne, if_neg hpi]

/-! ### Bands (R184, R185) -/

theorem binsPerLed_pos {c : Config} (hc : configProblem c = none) : 0 < c.binsPerLed := by
  obtain ⟨hpos, -⟩ := scale_pos c hc
  exact_mod_cast hpos

/-- Settles O45: the band of bin `k` is `k` / BINS_PER_LED. -/
theorem bandsPartitionTheBins : Obligations.BandsPartitionTheBins := by
  intro c hc
  have hbins := configProblem_none_bins c hc
  have hpos := binsPerLed_pos hc
  refine ⟨(Nat.mul_comm ..).trans hbins, hpos, fun k hk => ⟨k / c.binsPerLed, ⟨?_, ?_, ?_⟩, ?_⟩⟩
  · rw [Nat.div_lt_iff_lt_mul hpos, hbins]
    exact hk
  · exact Nat.div_mul_le_self ..
  · exact (Nat.div_lt_iff_lt_mul hpos).mp (Nat.lt_succ_self _)
  · rintro led ⟨-, hlo, hhi⟩
    exact (Nat.div_eq_of_lt_le hlo hhi).symm

theorem exec_pipeLed_spectrum {slow : Bool} {s : State} {band : List Mag × List Phase} (hphase : s.pipePhase = .render)
    (hmode : s.pipeMode = some .spectrum) (hband : bandOf s = some band) :
    exec (.pipeLed slow) s = .next (renderUnit (ledColour s.cfg band.1 band.2) slow s) :=
  (execPipeLed_next slow s _).mpr ⟨hphase, .inl ⟨hmode, band, hband, rfl⟩⟩

theorem bandOf_of_slices {s : State} {ms : List Mag} {ps : List Phase} (hms : ms.length = s.cfg.binsPerLed)
    (hmag : (s.mag.drop (s.pipeIdx * s.cfg.binsPerLed)).take s.cfg.binsPerLed = ms.map some)
    (hps : ps.length = s.cfg.binsPerLed)
    (hph : (s.ph.drop (s.pipeIdx * s.cfg.binsPerLed)).take s.cfg.binsPerLed = ps.map some) :
    bandOf s = some (ms, ps) :=
  (bandOf_eq_some s _).mpr ⟨ms, ps, readRange_of_slice hms hmag, readRange_of_slice hps hph, rfl⟩

/-- Settles O46: the unit is rendered in the colour of its band, which is R192's. -/
theorem pipeLedSpectrumEffect : Obligations.PipeLedSpectrumEffect := by
  intro slow s ms ps hc hphase hmode hms hmag hps hph
  refine ⟨ledColour s.cfg ms ps, ?_, ledColour_val s.cfg hc ms ps⟩
  rw [exec_pipeLed_spectrum hphase hmode (bandOf_of_slices hms hmag hps hph), renderUnit_eq]

/-! ### A band of magnitude 0 (R193 (b)) -/

theorem sumMagnitude_of_silent (l n : Nat) : sumMagnitude l (List.replicate n (.exact (.rat 0))) = .point 0 := by
  have hsum : magSum l (List.replicate n (.exact (.rat 0))) = (.rat 0, .point 0) := by
    induction n with
    | zero => rfl
    | succ n ih => simp [List.replicate_succ, magSum, ih, Alg.add, Alg.addRat]
  have hencl : (Alg.rat 0).encl l = .point 0 := by cases l <;> rfl
  rw [sumMagnitude, hsum, hencl, add_point, add_zero]

theorem mul_point_zero (e : Encl) : e.mul (.point 0) = .point 0 := by simp [Encl.mul, Encl.point]

theorem channel?_point_zero : channel? (.point 0) = some 0 := by simp [channel?_point, channelOf, ceil_eq]

/-- With magnitude 0 every channel of every quadrant is 0. -/
theorem colour?_of_silent (c : Config) (ap : Encl) : colour? c (.point 0) ap = some ⟨0, 0, 0⟩ := by
  have hclamp : clampMag (.point 0) = .point 0 := by simp [clampMag_point]
  have hquadrant : ∀ q, colourIn? c (.point 0) ap q = some ⟨0, 0, 0⟩ := fun q => by
    simp only [colourIn?_eq_some, hclamp, mul_point_zero, channel?_point_zero, and_self]
  simp [colour?, hquadrant]

theorem ledColour_of_silent (c : Config) (n : Nat) (ps : List Phase) :
    ledColour c (List.replicate n (.exact (.rat 0))) ps = .rgb ⟨0, 0, 0⟩ := by
  refine ledColour_of_colour? c _ ps _ ?_
  rw [bandAverages, sumMagnitude_of_silent, scale_point, mul_zero]
  exact colour?_of_silent c _

/-- Settles O48: the band that is read is all zeros. -/
theorem silentBandIsBlack : Obligations.SilentBandIsBlack := by
  intro slow s t hmode hdrv hsilent h
  obtain ⟨-, ⟨-, band, hband, rfl⟩ | ⟨hconstant, -⟩⟩ := (execPipeLed_next slow s t).mp h
  · obtain ⟨ms, ps, hms, -, rfl⟩ := (bandOf_eq_some s band).mp hband
    obtain rfl := Option.some.inj (hms.symm.trans (readRange_of_constant hsilent))
    rw [renderUnit_outputs, ledColour_of_silent, hdrv]
    rfl
  · exact nomatch hmode.symm.trans hconstant

/-! ### Channels and ramps (R189 to R194) -/

theorem channelReal_eq_ceil {x : ℝ} (h0 : 0 ≤ x) (h1 : x ≤ 255) : (channelReal x : ℤ) = ⌈x⌉ := by
  have hlo : 0 ≤ ⌈x⌉ := Int.ceil_nonneg h0
  have hhi : ⌈x⌉ ≤ 255 := Int.ceil_le.mpr (by exact_mod_cast h1)
  rw [channelReal]
  omega

theorem channelReal_of_nonpos {x : ℝ} (h : x ≤ 0) : channelReal x = 0 := by
  have hceil : ⌈x⌉ ≤ 0 := Int.ceil_le.mpr (by exact_mod_cast h)
  rw [channelReal]
  omega

theorem channelReal_of_gt {x : ℝ} (h : 255 < x) : channelReal x = 255 := by
  have hceil : 255 < ⌈x⌉ := Int.lt_ceil.mpr (by exact_mod_cast h)
  rw [channelReal]
  omega

theorem one_le_channelReal {x : ℝ} (h : 0 < x) : 1 ≤ channelReal x := by
  have hceil : 0 < ⌈x⌉ := Int.ceil_pos.mpr h
  rw [channelReal]
  omega

/-- Settles O50: the machine's channel is the real one at a rational. -/
theorem channelCeiling : Obligations.ChannelCeiling := by
  refine ⟨channelReal_cast, fun v h0 h1 => ?_, fun v hv => ?_, fun v hv => ?_, fun x => channelReal_eq_ceil,
    fun x hx => channelReal_of_nonpos hx.le, fun x => channelReal_of_gt, fun x => one_le_channelReal, fun z hz => ?_⟩
  · have hceil := channelReal_eq_ceil (x := v) (by exact_mod_cast h0) (by exact_mod_cast h1)
    rw [Rat.ceil_cast, channelReal_cast, ← ceil_eq] at hceil
    omega
  · rw [← channelReal_cast]
    exact channelReal_of_nonpos (by exact_mod_cast hv.le)
  · rw [← channelReal_cast]
    exact channelReal_of_gt (by exact_mod_cast hv)
  · have hceil := channelReal_eq_ceil (Nat.cast_nonneg z) (by exact_mod_cast hz)
    rw [Int.ceil_natCast] at hceil
    exact_mod_cast hceil

/-- R191's linear function of a phase of `t` half-turns. -/
def rampAt (q : Quadrant) (t : Rat) : Rat :=
  match q with
  | .redNeg => -2 * t - 1
  | .blue => 1 + 2 * t
  | .green => 1 - 2 * t
  | .redPos => 2 * t - 1

theorem ramp_point (q : Quadrant) (t : Rat) : ramp q (.point t) = .point (rampAt q t) := by
  cases q <;> simp only [ramp, scale_point, add_point, rampAt] <;> ring_nf

theorem rampAt_mem_Icc {t : Rat} (h0 : -1 ≤ t) (h1 : t ≤ 1) :
    rampAt (quadrantAt (quadrantIndex t)) t ∈ Set.Icc 0 1 := by
  unfold quadrantIndex
  split_ifs <;> constructor <;> simp only [quadrantAt, rampAt] <;> linarith

/-- Settles O51: on points each ramp is its linear function. -/
theorem rampsRunFromZeroToOne : Obligations.RampsRunFromZeroToOne := by
  refine ⟨fun t => ⟨ramp_point _ t, ramp_point _ t, ramp_point _ t, ramp_point _ t⟩, ⟨?_, ?_⟩, ⟨?_, ?_⟩, ⟨?_, ?_⟩,
    ⟨?_, ?_⟩, fun t h0 h1 => ⟨_, ramp_point _ t, rampAt_mem_Icc h0 h1⟩⟩ <;>
    rw [ramp_point] <;> norm_num [rampAt]

/-! ### The colour at the boundaries (R193) -/

theorem colourReal_of_silent (c : Config) (ap : ℝ) : colourReal c ap 0 = (0, 0, 0) := by
  simp [colourReal, channelReal_of_nonpos le_rfl]

/-- R189, R191: the triple at a phase of `t` half-turns, by the place of `t` in R189's table. -/
theorem adjusted_of_place {t ap : ℝ} {place : Nat} (c : Config) (hap : t * Real.pi = ap) (ht : -1 ≤ t)
    (hplace : quadrantIndexReal t = place) : adjusted c ap = adjustedAt c (quadrantAt place) t := by
  rw [← hap, adjusted_eq c t ht, hplace]

theorem adjusted_zero (c : Config) : adjusted c 0 = (c.baseColor.r.val, c.baseColor.g.val, c.baseColor.b.val) := by
  rw [adjusted_of_place c (zero_mul _) (by norm_num) (by norm_num [quadrantIndexReal] : _ = 2)]
  norm_num [quadrantAt, adjustedAt, rampReal]

theorem adjusted_neg_half_pi (c : Config) :
    adjusted c (-Real.pi / 2) = (c.baseColor.r.val, c.baseColor.g.val, 0) := by
  rw [adjusted_of_place (t := -1 / 2) c (by ring) (by norm_num) (by norm_num [quadrantIndexReal] : _ = 1)]
  norm_num [quadrantAt, adjustedAt, rampReal]

theorem adjusted_half_pi (c : Config) :
    adjusted c (Real.pi / 2) = (0, c.baseColor.g.val, c.baseColor.b.val) := by
  rw [adjusted_of_place (t := 1 / 2) c (by ring) (by norm_num) (by norm_num [quadrantIndexReal] : _ = 3)]
  norm_num [quadrantAt, adjustedAt, rampReal]

/-- Settles O49: the value of the colour is `Colour` at the band's averages. -/
theorem colourAtTheBoundaries : Obligations.ColourAtTheBoundaries := by
  rintro slow s ms ps ap am m hc hphase hmode hdrv hms hmag hps hph rfl rfl rfl
  have hval := ledColour_val s.cfg hc ms ps
  have hzero := channelReal_of_nonpos le_rfl
  refine ⟨_, ledColour s.cfg ms ps, exec_pipeLed_spectrum hphase hmode (bandOf_of_slices hms hmag hps hph), ?_,
    fun hap => ?_, fun hap => ?_, fun hap => ?_, fun ham => ?_⟩
  · rw [renderUnit_outputs, hdrv]
    rfl
  · rw [hval, hap, colourReal, adjusted_zero]
  · rw [hval, hap, colourReal, adjusted_neg_half_pi, zero_mul, hzero]
  · rw [hval, hap, colourReal, adjusted_half_pi, zero_mul, hzero]
  · rw [hval, ham, colourReal_of_silent]

/-! ### A SPECTRUM iteration (R112, R170, R206) -/

theorem runInstrs_append {is : List Instr} {s t : State} (h : runInstrs is s = .next t) (js : List Instr) :
    runInstrs (is ++ js) s = runInstrs js t := by
  induction is generalizing s with
  | nil => cases h; rfl
  | cons i is ih =>
    obtain ⟨u, hi, his⟩ := (MemoryRules.runInstrs_cons_next i is s t).mp h
    rw [List.cons_append, EdgeRules.runInstrs_cons_of_next hi, ih his]

theorem runInstrs_keeps_sane {is : List Instr} {s t : State} (hs : Sane s) (h : runInstrs is s = .next t) :
    Sane t := by
  induction is generalizing s with
  | nil => cases h; exact hs
  | cons i is ih =>
    obtain ⟨u, hi, his⟩ := (MemoryRules.runInstrs_cons_next i is s t).mp h
    exact ih (StateRules.exec_keeps_sane hs hi) his

/-- The state in which a SPECTRUM iteration on the block `vs` starts to render. -/
def analyzed (vs : List (BitVec 16)) (s : State) : State :=
  setSeq .render 0 (storeSpectrum (analyze s.cfg (vs.map BitVec.toNat)) { s with pipeMode := some .spectrum })

/-- R171 to R176: PIPE_BEGIN, a block of samples in range and PIPE_ANALYZE. -/
theorem runInstrs_until_render {s : State} {vs : List (BitVec 16)} (hs : Sane s) (hphase : s.pipePhase = .idle)
    (hquiet : s.alarmState ≠ .sounding) (hmode : s.modeSel = .spectrum) (hlen : vs.length = s.cfg.n)
    (hrange : ∀ v ∈ vs, v.toNat ≤ s.cfg.adcMax) :
    runInstrs ([.pipeBegin] ++ sampleBlock vs ++ [.pipeAnalyze]) s = .next (analyzed vs s) := by
  have hbegin := exec_pipeBegin_spectrum hphase hquiet hmode
  have hblock := MemoryRules.sampleBlockFillsX _ vs (StateRules.exec_keeps_sane hs hbegin) rfl rfl hlen hrange
  have hread := readRange_filled (vs.map BitVec.toNat)
  rw [List.length_map, hlen, filled, List.map_map] at hread
  rw [List.append_assoc, List.singleton_append, EdgeRules.runInstrs_cons_of_next hbegin, runInstrs_append hblock,
    EdgeRules.runInstrs_cons_of_next (exec_pipeAnalyze rfl hread)]
  rfl

/-- A state that renders is sane before each of its light units. -/
theorem sane_before_unit {s : State} (hs : Sane s) (hphase : s.pipePhase = .render) {unit : Nat}
    (hunit : unit < s.cfg.numLeds) : Sane (setSeq .render unit s) :=
  ⟨{ hs.invariants with
      sampled := nofun
      analyzed := fun _ => hs.invariants.analyzed hphase },
    { hs.shape with
      sequencer := hunit
      latched := fun _ => hs.shape.latched (by rw [hphase]; exact nofun)
      sampledSoFar := nofun }⟩

/-- R184: in a SPECTRUM iteration every light unit has a band to render. -/
theorem exists_renders {s : State} (hs : Sane s) (hphase : s.pipePhase = .render) (hmode : s.pipeMode = some .spectrum)
    {unit : Nat} (hunit : unit < s.cfg.numLeds) : ∃ color, Renders s unit color := by
  obtain ⟨band, hband⟩ := Encoding.exists_band (sane_before_unit hs hphase hunit) rfl hmode
  exact ⟨ledColour s.cfg band.1 band.2, fun out => exec_pipeLed_spectrum rfl hmode hband⟩

/-- Settles O55: the steps up to PIPE_ANALYZE, then a render pass over every unit. -/
theorem spectrumIterationCompletes : Obligations.SpectrumIterationCompletes := by
  intro s vs hs hphase hquiet hmode hlen hrange
  have hc := hs.shape.config
  obtain ⟨-, hleds, -, -⟩ := configProblem_none_sizes s.cfg hc
  have hrun := runInstrs_until_render hs hphase hquiet hmode hlen hrange
  choose! color hcolor using fun unit => exists_renders (unit := unit) (runInstrs_keeps_sane hs hrun) rfl rfl
  have hblock : (vs.map BitVec.toNat).length = s.cfg.n := (List.length_map _).trans hlen
  have hdrv : s.ledDrvEn = true :=
    hs.invariants.driver.mpr (by rw [effMode_of_not_sounding hquiet, hmode]; exact nofun)
  have hpass := runInstrs_renderAll (s := analyzed vs s) (Nat.pos_of_ne_zero hleds) hcolor
  refine ⟨_, (List.range s.cfg.numLeds).map color, (runInstrs_append hrun _).trans hpass, rfl, rfl, rfl, rfl,
    by simp, ?_, rfl, rfl, rfl, fun k hk => ?_⟩
  · simp [written, analyzed, hdrv, List.range_eq_range', List.zipWith_map_right, List.zipWith_self]
  · obtain ⟨re, im, mag, ph, hre, him, -, -, hbin⟩ := analyze_bin hc hblock hk
    exact ⟨re, im, by simp [written, analyzed, filled, hre], by simp [written, analyzed, filled, him],
      hbin.re_val, hbin.im_val⟩

end Sys2Proof.PipelineRules

/-! The mode controller (spec/42_mode_controller.md): the driver level that the stored selection and the alarm state give
(R221, R222), and the whole effect of SET_MODE, GET_MODE and SET_CONSTANT_COLOR (R223 to R225). -/

namespace Sys2Proof.ModeRules

open Sys2Proof.Machine

/-- R221, R222, D17: the driver is enabled in the two modes other than OFF, and only while the alarm does not sound. -/
theorem driverLevel_effMode (s : State) :
    driverLevel (effMode s) = decide (s.alarmState ≠ .sounding ∧ s.modeSel ≠ .off) := by
  rw [Bool.eq_iff_iff, driverLevel_iff, decide_eq_true_iff]
  by_cases hsound : s.alarmState = .sounding
  · rw [PipelineRules.effMode_eq_off (.inl hsound)]
    exact iff_of_false (fun h => h rfl) fun h => h.1 hsound
  · rw [PipelineRules.effMode_of_not_sounding hsound]
    exact (and_iff_right hsound).symm

/-- `ApplyEffMode()` (R222) writes the driver's level and nothing else. -/
theorem applyEffMode_eq (s : State) :
    applyEffMode s = { s with ledDrvEn := decide (s.alarmState ≠ .sounding ∧ s.modeSel ≠ .off) } := by
  rw [← driverLevel_effMode]
  rfl

/-- R21: the code of a mode, as the number that GET_MODE returns. -/
theorem modeCode_toNat (m : Mode) : m.code.toNat = match m with | .off => 0 | .constant => 1 | .spectrum => 2 := by
  cases m <;> rfl

/-- Settles O20: the stored mode, then `ApplyEffMode()` on the state that holds it. -/
theorem setModeEffect : Obligations.SetModeEffect := fun m s =>
  ⟨rfl, rfl, congrArg Host.Outcome.next (applyEffMode_eq { s with modeSel := m })⟩

/-- Settles O21: what is returned is the code of the stored selection, whatever the effective mode. -/
theorem getModeEffect : Obligations.GetModeEffect := fun s =>
  ⟨rfl, congrArg (fun v => Host.Outcome.next (emit (.ret v) s)) (modeCode_toNat s.modeSel)⟩

/-- Settles O22: both elements are stored whatever the state, so the stimulus is its one store. -/
theorem setConstantColorEffect : Obligations.SetConstantColorEffect := fun _ _ _ _ => ⟨rfl, rfl⟩

end Sys2Proof.ModeRules

/-! The alarm tone (spec/43_alarm_tone.md): the whole effect of its six stimuli (R246 to R252), the mutual exclusion of
tone, radio and light driver (R260), and what a test tone leaves behind (R247, R248). -/

namespace Sys2Proof.AlarmRules

open Sys2Proof.Machine

theorem sounding_eq_false {s : State} (h : s.alarmState ≠ .sounding) : s.sounding = false :=
  Bool.eq_false_iff.mpr (mt (sounding_iff s).mp h)

/-! ### Entering and leaving SOUNDING (R244, R245) -/

/-- R244: `ApplyEffMode()` switches the driver off, for the alarm sounds by then. -/
theorem enterSounding_eq {s : State} (h : s.alarmState = .sounding) (p : Nat) :
    enterSounding p s = { s with
      radioHiz := true
      ledDrvEn := false
      patSel := p
      patPos := 0
      toneFreq := none
      tonePhase := false
      freqTimerRun := false
      pwmDuty := 0
      pwmEn := true
      patTimerRun := true } := by
  rw [enterSounding, ModeRules.applyEffMode_eq]
  simp [h, Config.dutyLow]

/-- R245: `ApplyEffMode()` resumes the stored selection in the state that is left to. -/
theorem leaveSounding_eq (s : State) :
    leaveSounding s = { s with
      patTimerRun := false
      freqTimerRun := false
      pwmEn := false
      pwmDuty := 0
      tonePhase := false
      toneFreq := none
      radioHiz := false
      ledDrvEn := decide (s.alarmState ≠ .sounding ∧ s.modeSel ≠ .off) } :=
  ModeRules.applyEffMode_eq _

/-! ### Mutual exclusion (R260) -/

/-- R260 (a) to (d): the driver follows the effective mode, which is OFF while sounding (R51 (a)); the PWM, the radio
flag and the pattern ticker follow the sounding predicate (R51 (c)); the frequency generator needs it (R51 (d)). -/
theorem exclusion_of_invariants {s : State} (h : Invariants s) : Exclusion s := by
  obtain ⟨hticker, hpwm, hradio⟩ := h.tone
  have hdark : s.alarmState = .sounding → s.ledDrvEn = false := fun hs =>
    Bool.eq_false_iff.mpr fun hd => h.driver.mp hd (PipelineRules.effMode_eq_off (.inl hs))
  exact {
    dark := hdark
    radio := fun hp => hradio.trans (hpwm.symm.trans hp)
    lights := fun hp => hdark ((sounding_iff s).mp (hpwm.symm.trans hp))
    silent := fun hs => by
      have hquiet := sounding_eq_false hs
      exact ⟨hpwm.trans hquiet, hradio.trans hquiet, hticker.trans hquiet,
        Bool.eq_false_iff.mpr fun hf => hs (h.freqRuns hf).1⟩ }

/-- R210: a light-unit write needs the driver. -/
theorem exec_no_ledWrite {i : Instr} {s t : State} (hdark : s.ledDrvEn = false) (h : exec i s = .next t) :
    ∃ new, t.outputs = s.outputs ++ new ∧ ∀ e ∈ new, e.isLedWrite = false := by
  obtain ⟨new, hout, -, hsource⟩ := Scope.exec_appendsEvents h
  refine ⟨new, hout, fun e he => ?_⟩
  cases e with
  | ledWrite n color =>
    obtain ⟨-, hdriver, -⟩ := hsource _ he
    exact absurd (hdark.symm.trans hdriver) Bool.false_ne_true
  | _ => rfl

/-- R171: where the effective mode is OFF no iteration begins. -/
theorem exec_pipeBegin_of_off {s t : State} (hoff : effMode s = .off) (h : exec .pipeBegin s = .next t) : t = s := by
  obtain ⟨-, hmode⟩ := (execPipeBegin_next s t).mp h
  simpa [hoff] using hmode

/-- Settles O19: a reachable state keeps R51's invariants, and while sounding they hold the driver and the effective
mode off. -/
theorem mutualExclusion : Obligations.MutualExclusion := by
  intro c s hreach
  have hexcl := exclusion_of_invariants (StateRules.reachableInvariants c s hreach)
  exact ⟨hexcl, fun hsound => ⟨fun _ _ => exec_no_ledWrite (hexcl.dark hsound),
    fun _ => exec_pipeBegin_of_off (PipelineRules.effMode_eq_off (.inl hsound))⟩⟩

/-! ### A test tone (R247, R248) -/

/-- R51 (a): the driver's level is the one `ApplyEffMode()` would write. -/
theorem ledDrvEn_eq_of_invariants {s : State} (h : Invariants s) : s.ledDrvEn = driverLevel (effMode s) :=
  Bool.eq_iff_iff.mpr (h.driver.trans (driverLevel_iff _).symm)

/-- R51 (a), (c), (d), (e): outside SOUNDING everything that leaving it writes is as it leaves it, but for the frequency
of the tone. -/
theorem leaveSounding_of_quiet {s : State} (h : Invariants s) (hquiet : s.alarmState ≠ .sounding) :
    leaveSounding { s with testActive := false } = { s with toneFreq := none } := by
  obtain ⟨hpwm, hradio, hticker, hfreq⟩ := (exclusion_of_invariants h).silent hquiet
  obtain ⟨hduty, hphase⟩ := h.freqStopped hfreq
  have htest : s.testActive = false := Bool.eq_false_iff.mpr (mt h.test hquiet)
  have hdriver := ledDrvEn_eq_of_invariants h
  rw [ModeRules.driverLevel_effMode] at hdriver
  simp [leaveSounding_eq, htest, hticker, hfreq, hpwm, hduty, hphase, hradio, hdriver, Config.dutyLow]

/-- Settles O29: leaving SOUNDING undoes what entering it wrote, but for the pattern's place, and so the pair leaves
what `leaveSounding` makes of a state that does not sound. -/
theorem testToneRestores : Obligations.TestToneRestores := by
  intro p s hs hquiet hp
  have hbegin := (execBeginTestTone_next p s _).mpr ⟨hp, sounding_eq_false hquiet, rfl⟩
  refine (MemoryRules.runInstrs_pair_next _ _ s _).mpr
    ⟨_, hbegin, (execEndTestTone_next _ _).mpr (.inl ⟨rfl, ?_⟩)⟩
  have hleft := leaveSounding_of_quiet hs.invariants hquiet
  exact (congrArg (fun t : State => { t with alarmSaved := s.alarmState, patSel := p.toNat, patPos := 0 }) hleft).symm

/-! ### Host operations (R246 to R249) -/

/-- Settles O23: the query's answer is the sounding predicate's bit. -/
theorem alarmSoundingEffect : Obligations.AlarmSoundingEffect := by
  refine fun s => ⟨rfl, congrArg (fun v => Host.Outcome.next (emit (.ret v) s)) ?_⟩
  simp only [bitCode, sounding_iff]

/-- Settles O24: the operand is tested before the guard, and then `EnterSounding(p)` runs in a state that sounds. -/
theorem beginTestToneEffect : Obligations.BeginTestToneEffect := by
  refine fun p s => ⟨rfl, fun hp => Encoding.exec_of_not_wf (decide_eq_false hp.not_gt), fun hp hsound => ?_,
    fun hp hquiet => ?_⟩
  · exact (Encoding.operandOk_of_legal hp _).trans
      (Encoding.guarded_of_fails (congrArg not ((sounding_iff s).mpr hsound)) _)
  · exact (execBeginTestTone_next p s _).mpr ⟨hp, sounding_eq_false hquiet, by rw [enterSounding_eq rfl]⟩

/-- Settles O25: with a test tone `LeaveSounding()` runs in the saved alarm state. -/
theorem endTestToneEffect : Obligations.EndTestToneEffect := fun s =>
  ⟨rfl, fun hidle => (execEndTestTone_next s s).mpr (.inr ⟨hidle, rfl⟩),
    fun htest => (execEndTestTone_next s _).mpr (.inl ⟨htest, by rw [leaveSounding_eq]⟩)⟩

/-- Settles O26: the four cases of R249, of which the first enters SOUNDING and the second leaves it. -/
theorem alarmSetEffect : Obligations.AlarmSetEffect := by
  obtain ⟨-, hreserved, -⟩ := Encoding.reservedOperandsAreRefused
  intro a s
  have hnext := fun t => (execAlarmSet_next a s t).mpr
  refine ⟨rfl, fun v hv => by simpa [place] using hreserved v hv, fun hold ha => ?_, fun hold ha => ?_,
    fun hold ha => ?_, fun hold ha => ?_⟩
  · exact hnext _ (.inl ⟨hold, ha, by rw [enterSounding_eq rfl]⟩)
  · refine hnext _ (.inr (.inl ⟨hold, ha, ?_⟩))
    simp [leaveSounding_eq, ha]
  · exact hnext _ (.inr (.inr (.inl ⟨hold, ha, rfl⟩)))
  · exact hnext _ (.inr (.inr (.inr ⟨hold, ha, rfl⟩)))

/-! ### Timer events (R250, R252) -/

/-- Settles O27: the entry at the pattern's place is applied, whichever of the three kinds it is. -/
theorem patTickEffect : Obligations.PatTickEffect := by
  refine fun s => ⟨rfl, fun hstopped => Encoding.guarded_of_fails hstopped _, fun pattern e hrun hp he => ?_⟩
  have hnext := (execPatTick_next s _).mpr ⟨hrun, pattern, e, hp, he, rfl⟩
  exact ⟨by rintro hz rfl; exact hnext, by rintro rfl; exact hnext, by rintro rfl; exact hnext⟩

/-- Settles O28: the duty is that of the half-period toggled to. -/
theorem freqTickEffect : Obligations.FreqTickEffect := by
  refine fun s => ⟨rfl, fun hstopped => Encoding.guarded_of_fails hstopped _, fun hrun => ?_⟩
  have hduty : dutyOf s.cfg (!s.tonePhase) = if s.tonePhase then 0 else s.cfg.dutyHigh := by
    cases s.tonePhase <;> rfl
  rw [← hduty]
  exact (execFreqTick_next s _).mpr ⟨hrun, rfl⟩

end Sys2Proof.AlarmRules

/-! Arithmetic and sequencing (spec/44_arithmetic_and_sequencing.md): numbers known exactly stay so from a band to its
three bytes (section 2, R363), and the sequencer's transition table (section 3, R364). -/

namespace Sys2Proof.SequencingRules

open Sys2Proof.Machine

/-! ### Numbers known exactly (R363) -/

/-- The enclosed number is known exactly. -/
def IsPoint (e : Encl) : Prop := ∃ q, e = .point q

/-- The parameter is a rational (notes/assumptions/4.md). -/
def IsRational (p : RealParam) : Prop := ∃ q, p = .rat q

theorem isPoint_point (q : Rat) : IsPoint (.point q) := ⟨q, rfl⟩

theorem IsRational.isPoint {p : RealParam} (h : IsRational p) : IsPoint (.param p) := by
  obtain ⟨q, rfl⟩ := h
  exact ⟨q, param_point q⟩

theorem IsPoint.add {a b : Encl} (ha : IsPoint a) (hb : IsPoint b) : IsPoint (a.add b) := by
  obtain ⟨p, rfl⟩ := ha
  obtain ⟨q, rfl⟩ := hb
  exact ⟨_, add_point p q⟩

theorem IsPoint.mul {a b : Encl} (ha : IsPoint a) (hb : IsPoint b) : IsPoint (a.mul b) := by
  obtain ⟨p, rfl⟩ := ha
  obtain ⟨q, rfl⟩ := hb
  exact ⟨_, mul_point p q⟩

theorem IsPoint.scale {a : Encl} (ha : IsPoint a) (q : Rat) : IsPoint (a.scale q) := by
  obtain ⟨p, rfl⟩ := ha
  exact ⟨_, scale_point q p⟩

theorem IsPoint.clamp {a : Encl} (ha : IsPoint a) (lo hi : Rat) : IsPoint (a.clamp lo hi) := by
  obtain ⟨p, rfl⟩ := ha
  exact ⟨_, clamp_point lo hi p⟩

theorem IsPoint.clampMag {a : Encl} (ha : IsPoint a) : IsPoint (clampMag a) := by
  obtain ⟨p, rfl⟩ := ha
  exact ⟨_, clampMag_point p⟩

theorem IsPoint.ramp {a : Encl} (ha : IsPoint a) (q : Quadrant) : IsPoint (ramp q a) := by
  obtain ⟨t, rfl⟩ := ha
  exact ⟨_, PipelineRules.ramp_point q t⟩

theorem encl_rat (l : Nat) (q : Rat) : (Alg.rat q).encl l = .point q := by cases l <;> rfl

/-! ### The averages of a rational band (R185 to R187) -/

/-- No square root is enclosed in the sum of rational magnitudes. -/
theorem magSum_of_rational (l : Nat) {ms : List Mag} (h : ∀ m ∈ ms, ∃ q, m = .exact (.rat q)) :
    ∃ q, magSum l ms = (.rat q, .point 0) := by
  induction ms with
  | nil => exact ⟨0, rfl⟩
  | cons m ms ih =>
    obtain ⟨⟨q, rfl⟩, hms⟩ := List.forall_mem_cons.mp h
    obtain ⟨p, hp⟩ := ih hms
    exact ⟨p + q, by rw [magSum, hp]; rfl⟩

theorem isPoint_sumMagnitude (l : Nat) {ms : List Mag} (h : ∀ m ∈ ms, ∃ q, m = .exact (.rat q)) :
    IsPoint (sumMagnitude l ms) := by
  obtain ⟨q, hq⟩ := magSum_of_rational l h
  rw [sumMagnitude, hq, encl_rat]
  exact (isPoint_point q).add (isPoint_point 0)

/-- The sum of rational multiples of π has no other angle in it. -/
theorem phaseSum_of_rational (l : Nat) {ps : List Phase} (h : ∀ p ∈ ps, ∃ q, p = .piMul q) :
    IsPoint (phaseSum l ps).turns ∧ (phaseSum l ps).rest = .point 0 := by
  induction ps with
  | nil => exact ⟨isPoint_point 0, rfl⟩
  | cons p ps ih =>
    obtain ⟨⟨q, rfl⟩, hps⟩ := List.forall_mem_cons.mp h
    obtain ⟨hturns, hrest⟩ := ih hps
    exact ⟨(isPoint_point q).add hturns, hrest⟩

/-- Whether the remaining angle, which is 0, is found to be exact or left enclosed, it is a point. -/
theorem isPoint_sumPhase (tab : List Alg) (n : Nat) {ps : List Phase} (h : ∀ p ∈ ps, ∃ q, p = .piMul q) :
    IsPoint (sumPhase tab n ps) := by
  obtain ⟨hturns, hrest⟩ := phaseSum_of_rational (levelOf n) h
  unfold sumPhase
  refine hturns.add ?_
  split
  · exact isPoint_point _
  · rw [hrest]
    exact isPoint_point 0

theorem isPoint_phaseFactor {c : Config} (h : IsRational c.phaseScale) : IsPoint (phaseFactor c) := by
  obtain ⟨q, hq⟩ := h
  exact ⟨1 / (c.binsPerLed * q), by rw [phaseFactor, hq]; rfl⟩

theorem isPoint_bandAverages {c : Config} {ms : List Mag} {ps : List Phase} (hscale : IsRational c.phaseScale)
    (hms : ∀ m ∈ ms, ∃ q, m = .exact (.rat q)) (hps : ∀ p ∈ ps, ∃ q, p = .piMul q) :
    IsPoint (bandAverages c ms ps).1 ∧ IsPoint (bandAverages c ms ps).2 :=
  ⟨(isPoint_sumMagnitude _ hms).scale _,
    ((isPoint_sumPhase _ _ hps).mul (isPoint_phaseFactor hscale)).clamp _ _⟩

/-! ### The colour of exact averages (R189 to R192) -/

/-- The tunables of R8 that the colour mapper reads are rationals. -/
structure RationalColours (c : Config) : Prop where
  red : IsRational c.baseColor.r
  green : IsRational c.baseColor.g
  blue : IsRational c.baseColor.b
  redSpan : IsRational c.redSpan

theorem RationalColours.isPoint_redBase {c : Config} (h : RationalColours c) (q : Quadrant) {ap : Encl}
    (hap : IsPoint ap) : IsPoint (redBase c q ap) := by
  cases q with
  | redNeg => exact (hap.ramp .redNeg).mul h.redSpan.isPoint
  | redPos => exact (hap.ramp .redPos).mul h.redSpan.isPoint
  | blue => exact h.red.isPoint
  | green => exact h.red.isPoint

theorem RationalColours.isPoint_greenBase {c : Config} (h : RationalColours c) (q : Quadrant) {ap : Encl}
    (hap : IsPoint ap) : IsPoint (greenBase c q ap) := by
  cases q with
  | green => exact (hap.ramp .green).mul h.green.isPoint
  | redNeg => exact h.green.isPoint
  | blue => exact h.green.isPoint
  | redPos => exact h.green.isPoint

theorem RationalColours.isPoint_blueBase {c : Config} (h : RationalColours c) (q : Quadrant) {ap : Encl}
    (hap : IsPoint ap) : IsPoint (blueBase c q ap) := by
  cases q with
  | blue => exact (hap.ramp .blue).mul h.blue.isPoint
  | redNeg => exact h.blue.isPoint
  | green => exact h.blue.isPoint
  | redPos => exact h.blue.isPoint

theorem exists_channel {v : Encl} (h : IsPoint v) : ∃ b, channel? v = some b := by
  obtain ⟨q, rfl⟩ := h
  exact ⟨_, channel?_point q⟩

/-- The three ceilings of exact averages are decided in every quadrant. -/
theorem RationalColours.exists_colourIn {c : Config} (h : RationalColours c) (q : Quadrant) {am ap : Encl}
    (ham : IsPoint am) (hap : IsPoint ap) : ∃ color, colourIn? c am ap q = some color := by
  obtain ⟨r, hr⟩ := exists_channel ((h.isPoint_redBase q hap).mul ham.clampMag)
  obtain ⟨g, hg⟩ := exists_channel ((h.isPoint_greenBase q hap).mul ham.clampMag)
  obtain ⟨b, hb⟩ := exists_channel ((h.isPoint_blueBase q hap).mul ham.clampMag)
  exact ⟨⟨r, g, b⟩, (colourIn?_eq_some ..).mpr ⟨hr, hg, hb⟩⟩

/-- Of an exact phase the quadrant is known, and in it the ceilings are decided. -/
theorem RationalColours.exists_colour {c : Config} (h : RationalColours c) {am ap : Encl} (ham : IsPoint am)
    (hap : IsPoint ap) : ∃ color, colour? c am ap = some color := by
  obtain ⟨t, rfl⟩ := hap
  obtain ⟨color, hcolor⟩ := h.exists_colourIn (quadrantAt (quadrantIndex t)) ham (isPoint_point t)
  exact ⟨color, (colour?_point c am t).trans hcolor⟩

/-- A range whose elements all hold values of the form `f q` is read as such values. -/
theorem forall_mem_of_readRange {α β : Type} {f : β → α} {a : List (Option α)} {i n : Nat} {vs : List α}
    (hread : readRange a i n = some vs) (h : ∀ j, j < n → ∃ q, a[i + j]? = some (some (f q))) :
    ∀ v ∈ vs, ∃ q, v = f q := by
  obtain ⟨hlen, helem⟩ := (readRange_eq_some ..).mp hread
  intro v hv
  obtain ⟨j, hj, rfl⟩ := List.mem_iff_getElem.mp hv
  obtain ⟨q, hq⟩ := h j (hlen ▸ hj)
  have hvalue := (helem j (hlen ▸ hj)).symm.trans ((readElem_eq_some ..).mpr hq)
  rw [List.getElem?_eq_getElem hj] at hvalue
  exact ⟨q, Option.some.inj hvalue⟩

/-- Settles O47: the band that is read has exact averages, whose colour is decided. -/
theorem rationalBandsGiveBytes : Obligations.RationalBandsGiveBytes := by
  intro slow s t hmode hdrv hparams hmag hph h
  simp only [List.forall_mem_cons] at hparams
  obtain ⟨hscale, hr, hg, hb, hspan, -⟩ := hparams
  obtain ⟨-, ⟨-, band, hband, rfl⟩ | ⟨hconstant, -⟩⟩ := (execPipeLed_next slow s t).mp h
  · obtain ⟨ms, ps, hms, hps, rfl⟩ := (bandOf_eq_some s band).mp hband
    have hmags := forall_mem_of_readRange (f := fun q => Mag.exact (.rat q)) hms hmag
    have hphases := forall_mem_of_readRange (f := Phase.piMul) hps hph
    obtain ⟨ham, hap⟩ := isPoint_bandAverages hscale hmags hphases
    obtain ⟨color, hcolor⟩ := RationalColours.exists_colour ⟨hr, hg, hb, hspan⟩ ham hap
    refine ⟨color, ?_⟩
    rw [renderUnit_outputs, ledColour_of_colour? s.cfg ms ps color hcolor, hdrv]
    rfl
  · exact nomatch hmode.symm.trans hconstant

/-! ### The sequencer (R364) -/

/-- An index in range is the last one or has a next one. -/
theorem ite_last_eq_ite_next {α : Type} {i n : Nat} (h : i < n) (last next : α) :
    (if i + 1 = n then last else next) = if i + 1 < n then next else last := by
  by_cases hlast : i + 1 = n
  · rw [if_pos hlast, if_neg hlast.not_lt]
  · rw [if_neg hlast, if_pos (Nat.lt_of_le_of_ne h hlast)]

theorem exec_pipeBegin_seq {s t : State} (hs : Sane s) (h : exec .pipeBegin s = .next t) :
    s.pipePhase = .idle ∧ s.pipeIdx = 0 ∧
      (t.pipePhase, t.pipeIdx) = (if s.alarmState = .sounding then (.idle, 0) else
        match s.modeSel with
        | .spectrum => (.sampling, 0)
        | .constant => (.render, 0)
        | .off => (.idle, 0)) := by
  obtain ⟨hphase, hbranch⟩ := (execPipeBegin_next s t).mp h
  have hidx : s.pipeIdx = 0 := by simpa [seqInRange, hphase] using hs.shape.sequencer
  refine ⟨hphase, hidx, ?_⟩
  by_cases hsound : s.alarmState = .sounding
  · rw [PipelineRules.effMode_eq_off (.inl hsound)] at hbranch
    obtain ⟨hmode, -⟩ | ⟨hmode, -⟩ | ⟨-, rfl⟩ := hbranch
    · cases hmode
    · cases hmode
    · rw [if_pos hsound, hphase, hidx]
  · rw [PipelineRules.effMode_of_not_sounding hsound] at hbranch
    rw [if_neg hsound]
    obtain ⟨hmode, rfl⟩ | ⟨hmode, rfl⟩ | ⟨hmode, rfl⟩ := hbranch
    · rw [hmode]; rfl
    · rw [hmode]; rfl
    · rw [hmode, hphase, hidx]

theorem exec_pipeSample_seq {v : BitVec 16} {s t : State} (hs : Sane s) (h : exec (.pipeSample v) s = .next t) :
    s.pipePhase = .sampling ∧ s.pipeIdx < s.cfg.n ∧
      (t.pipePhase, t.pipeIdx) = if s.pipeIdx + 1 < s.cfg.n then (.sampling, s.pipeIdx + 1) else (.analyze, 0) := by
  obtain ⟨-, hphase, -, rfl⟩ := (execPipeSample_next v s t).mp h
  have hidx : s.pipeIdx < s.cfg.n := by simpa [seqInRange, hphase] using hs.shape.sequencer
  exact ⟨hphase, hidx, (afterSample_seq ..).trans (ite_last_eq_ite_next hidx ..)⟩

theorem exec_pipeAnalyze_seq {s t : State} (hs : Sane s) (h : exec .pipeAnalyze s = .next t) :
    s.pipePhase = .analyze ∧ s.pipeIdx = 0 ∧ (t.pipePhase, t.pipeIdx) = (.render, 0) := by
  obtain ⟨hphase, xs, -, rfl⟩ := (execPipeAnalyze_next s t).mp h
  exact ⟨hphase, by simpa [seqInRange, hphase] using hs.shape.sequencer, rfl⟩

theorem renderUnit_seq {color : LedColor} {slow : Bool} {s : State} (hidx : s.pipeIdx < s.cfg.numLeds) :
    ((renderUnit color slow s).pipePhase, (renderUnit color slow s).pipeIdx) =
      if s.pipeIdx + 1 < s.cfg.numLeds then (.render, s.pipeIdx + 1) else (.idle, 0) :=
  (afterLed_seq ..).trans (ite_last_eq_ite_next hidx ..)

theorem exec_pipeLed_seq {slow : Bool} {s t : State} (hs : Sane s) (h : exec (.pipeLed slow) s = .next t) :
    s.pipePhase = .render ∧ s.pipeIdx < s.cfg.numLeds ∧
      (t.pipePhase, t.pipeIdx) = if s.pipeIdx + 1 < s.cfg.numLeds then (.render, s.pipeIdx + 1) else (.idle, 0) := by
  obtain ⟨hphase, hbranch⟩ := (execPipeLed_next slow s t).mp h
  have hidx : s.pipeIdx < s.cfg.numLeds := by simpa [seqInRange, hphase] using hs.shape.sequencer
  refine ⟨hphase, hidx, ?_⟩
  obtain ⟨-, band, -, rfl⟩ | ⟨-, -, color, -, rfl⟩ := hbranch
  · exact renderUnit_seq hidx
  · exact renderUnit_seq hidx

theorem exec_seq_frame {i : Instr} {s t : State} (hi : StimulusClass.ofOpcode i.opcode ≠ some .pipeline)
    (h : exec i s = .next t) : t.pipePhase = s.pipePhase ∧ t.pipeIdx = s.pipeIdx := by
  have hframe := StateRules.exec_pipeline_frame (mt (MemoryRules.partOf_eq_pipeline_iff i).mp hi) h
  exact ⟨congrArg PipelinePart.pipePhase hframe, congrArg PipelinePart.pipeIdx hframe⟩

/-- Settles O56: each pipeline stimulus by its row of R364's table, and the frame of the others. -/
theorem sequencerRelation : Obligations.SequencerRelation := by
  intro i s t hs h
  refine ⟨?_, ?_, ?_, ?_, fun hi => exec_seq_frame hi h⟩
  · rintro rfl
    exact exec_pipeBegin_seq hs h
  · rintro v rfl
    exact exec_pipeSample_seq hs h
  · rintro rfl
    exact exec_pipeAnalyze_seq hs h
  · rintro slow rfl
    exact exec_pipeLed_seq hs h

end Sys2Proof.SequencingRules

/-! Exceptions (spec/60_exceptions.md): the two errors of construction, in R280's order. -/

namespace Sys2Proof.ConstructionRules

open Sys2Proof.Machine

theorem construct_of_configProblem {c : Config} {p : ConfigProblem} (h : configProblem c = some p) :
    construct c = (problemStop p).outcome := by
  rw [construct, h]

theorem configProblem_of_not_powerOfTwo {c : Config} (hn : ¬∃ p, c.n = 2 ^ p) :
    configProblem c = some .nNotPowerOfTwo := by
  rw [← Scope.isPowerOfTwo_iff, Bool.not_eq_true] at hn
  rw [configProblem, if_pos hn]

/-- Past the first check: `LEDS_NOT_DIVIDING_N` comes before R13's constraints. -/
theorem configProblem_of_powerOfTwo {c : Config} (hn : ∃ p, c.n = 2 ^ p) :
    configProblem c =
      if c.numLeds = 0 ∨ c.n % c.numLeds ≠ 0 then some .ledsNotDividingN
      else if constraintsOk c = false then some .badConfig else none := by
  rw [← Scope.isPowerOfTwo_iff] at hn
  rw [configProblem, if_neg (by simp [hn])]

/-- With both of R280's checks passed, only R13's constraints decide. -/
theorem construct_of_errors_passed {c : Config} (hn : ∃ p, c.n = 2 ^ p) (hz : c.numLeds ≠ 0)
    (hdiv : c.n % c.numLeds = 0) : construct c = .refused .badConfig ∨ construct c = .next (resetState c) := by
  have hproblem := configProblem_of_powerOfTwo hn
  rw [if_neg (not_or.mpr ⟨hz, not_not.mpr hdiv⟩)] at hproblem
  by_cases hok : constraintsOk c = false
  · exact .inl (construct_of_configProblem (hproblem.trans (if_pos hok)))
  · exact .inr ((construct_next ..).mpr ⟨hproblem.trans (if_neg hok), rfl⟩)

/-- Settles O7: each clause is one way through the construction check. -/
theorem constructionErrors : Obligations.ConstructionErrors := by
  refine ⟨rfl, rfl, fun c => ⟨fun hn => ?_, fun hn hleds => ?_, construct_of_errors_passed⟩⟩
  · exact construct_of_configProblem (configProblem_of_not_powerOfTwo hn)
  · exact construct_of_configProblem ((configProblem_of_powerOfTwo hn).trans (if_pos hleds))

end Sys2Proof.ConstructionRules

/-! Reset and hazards (spec/70_reset_and_hazards.md): the stimuli that can come first after construction (R322), and what
is fixed for the life of the block (R338). -/

namespace Sys2Proof.ResetRules

open Sys2Proof.Machine

/-! ### The first stimulus (R322) -/

/-- R38, R39: after reset a button's edge interrupt is enabled and its timer stopped. -/
theorem resetState_button_flags {c : Config} {u : BitVec 4} {b : Button} (hb : buttonAt (resetState c) u = some b) :
    b.irqEn = true ∧ b.timerRun = false := by
  obtain ⟨pullUp, -, rfl⟩ := List.mem_map.mp (List.mem_of_getElem? hb)
  exact ⟨rfl, rfl⟩

theorem guardHolds_btnEdge_resetState {c : Config} {u : BitVec 4} (hu : u.toNat < c.numButtons) (level : Bool) :
    guardHolds (.btnEdge u level) (resetState c) = true := by
  obtain ⟨b, hb⟩ := Encoding.exists_button (s := resetState c) (List.length_map _) hu
  exact (Option.any_eq_true ..).mpr ⟨b, hb, (resetState_button_flags hb).1⟩

theorem guardHolds_btnTick_resetState (c : Config) (u : BitVec 4) (level : Bool) :
    guardHolds (.btnTick u level) (resetState c) = false := by
  refine (Option.any_eq_false ..).mpr fun b hb => ?_
  simpa using (resetState_button_flags hb).2

/-- The rows of R113 in the state of R52: nothing sounds, no timer runs, and the sequencer is idle. -/
theorem guardHolds_resetState_iff {c : Config} {i : Instr} (hwf : i.wf c = true) :
    guardHolds i (resetState c) = true ↔
      (StimulusClass.ofOpcode i.opcode = some .host ∨ (∃ clk dir, i = .encEdge clk dir) ∨
        (∃ u level, i = .btnEdge u level) ∨ i = .pipeBegin) := by
  cases i with
  | btnEdge u level =>
    exact iff_of_true (guardHolds_btnEdge_resetState (of_decide_eq_true hwf) level) (.inr (.inr (.inl ⟨u, level, rfl⟩)))
  | btnTick u level =>
    simp [guardHolds_btnTick_resetState, Instr.opcode, StimulusClass.ofOpcode]
  | encEdge clk dir => exact iff_of_true rfl (.inr (.inl ⟨clk, dir, rfl⟩))
  | pipeBegin => exact iff_of_true rfl (.inr (.inr (.inr rfl)))
  | patTick | freqTick | pipeSample v | pipeAnalyze | pipeLed slow =>
    simp [guardHolds, resetState, Instr.opcode, StimulusClass.ofOpcode]
  | _ => exact iff_of_true rfl (.inl (by simp [Instr.opcode, StimulusClass.ofOpcode]))

/-- Settles O10: the state after reset is sane, so there the guards decide. -/
theorem firstStimuli : Obligations.FirstStimuli := by
  intro c s h i hwf
  obtain ⟨hc, rfl⟩ := (construct_next c s).mp h
  exact (Encoding.guardsDecideCompletion i _ (StateRules.sane_resetState hc) hwf).trans (guardHolds_resetState_iff hwf)

/-! ### What never changes (R338) -/

/-- No stimulus writes the configuration or the trace, so a step leaves the trace without the word it decoded
(notes/assumptions/2.md). -/
theorem step_next_cfg_input {s t : State} (h : step s = .next t) : t.cfg = s.cfg ∧ ∃ w, s.input = w :: t.input := by
  obtain ⟨-, w, rest, i, hin, -, hexec⟩ := (step_next s t).mp h
  obtain ⟨hcfg, hinput, -⟩ := StateRules.onlyListedStimuliWrite i _ t hexec
  exact ⟨hcfg, w, hin.trans (congrArg (w :: ·) hinput.symm)⟩

/-- Settles O13: the state after the step is sane too, and the configuration gives both states their sizes. -/
theorem stepKeepsSizes : Obligations.StepKeepsSizes := by
  intro s t hs h
  obtain ⟨hcfg, hword⟩ := step_next_cfg_input h
  have ht := StateRules.stepKeepsSane s t hs h
  have harrays := ht.shape.arrays
  have hbuttons := ht.shape.buttonCount
  rw [hcfg] at harrays hbuttons
  exact ⟨hcfg, hword, hbuttons.trans hs.shape.buttonCount.symm, harrays⟩

end Sys2Proof.ResetRules
